-- ==== Sys2Proof/Word.lean ====
section
/-! DEFINITION. The widths of the machine's quantities (spec/00_scope.md R8, R10). -/

namespace Sys2Proof

/-- A sample number, `SAMPLE_W = 64` bits unsigned (R8). Comparisons are unsigned. -/
abbrev Sample := BitVec 64

/-- A packet counter or a crossing count, `CNT_W = 32` bits (R8). -/
abbrev Count := BitVec 32

/-- One byte as sampled from the wire (R8 `BITS`). -/
abbrev Byte := BitVec 8

/-- A little-endian word of `WBYTES = 4` bytes (R8, R54). -/
abbrev BusWord := BitVec 32

/-- An engine operation code, as `phase` holds it (R70, R75). -/
abbrev Eoc := BitVec 6

/-- A cursor command word (R70, R71). -/
abbrev Ccw := BitVec 4

end Sys2Proof
end

