-- ==== Sys2Proof/Machine/Samples.lean ====
section
/-! DEFINITION. Lists of transition samples: order, bound and counting (spec/20_memory.md R51, R52).
Lowest layer of the machine; it knows nothing of the state. -/

namespace Sys2Proof.Machine

/-- The samples of a list rise strictly (R51, R182). -/
def strictlyIncreasing : List Sample → Bool
  | [] => true
  | [_] => true
  | x :: y :: rest => decide (x < y) && strictlyIncreasing (y :: rest)

/-- Every sample of a list lies below `h` (R51, R182). -/
def allBelow (h : Sample) (l : List Sample) : Bool := l.all fun u => decide (u < h)

/-- Every sample of a list lies at or after `h` (R182). -/
def allFrom (h : Sample) (l : List Sample) : Bool := l.all fun u => decide (h ≤ u)

/-- `|{ j : l[j] <= s }|` (R23, R52). -/
def countUpTo (l : List Sample) (s : Sample) : Nat := l.countP fun t => decide (t ≤ s)

/-- A line's level after `n` transitions, from its initial level: `init xor (n mod 2)` (R22, R52). -/
def levelAfter (init : Bool) (n : Nat) : Bool := init ^^ decide (n % 2 = 1)

/-- The samples of a list of transition records `(sample, newLevel)` on a line whose level before
them is `lvl`; none where a new level equals the level before it (R52). -/
def recordSamples (lvl : Bool) : List (Sample × Bool) → Option (List Sample)
  | [] => some []
  | (t, l) :: rest => if l = lvl then none else (recordSamples l rest).map (t :: ·)

end Sys2Proof.Machine
end

