-- ==== Sys2Proof/Config.lean ====
section
/-! DEFINITION. The fixed parameters of the core (spec/00_scope.md R8). The source's literals are
unaudited and taken as normative (R5, spec/93_implementation_defined.md I11). The parameters the
spec leaves OPEN (mode, horizon, finiteness, start positions, trace) are operands or state. -/

namespace Sys2Proof

/-- `BURST`: the toggles of B inside A's start low pulse (R8). -/
def Config.burst : Nat := 4

/-- `END_CLK`: the clock transitions of the end pattern (R8). -/
def Config.endClk : Nat := 3

/-- `WBYTES`: the bytes of a word (R8). -/
def Config.wordBytes : Nat := 4

/-- `HDR_MUL` of `bytesTotal = h * 4 + 5` (R8). -/
def Config.hdrMul : Nat := 4

/-- `HDR_ADD` of `bytesTotal = h * 4 + 5` (R8). -/
def Config.hdrAdd : Nat := 5

/-- The last bit index of a byte: `BITS = 8` bits, numbered from 0 (R8). -/
def Config.lastBit : BitVec 3 := 7

end Sys2Proof
end

