-- ==== Sys2Proof/Syntax.lean ====
section
/-! DEFINITION. The syntax of the core: channels, modes, code sets, the instructions (one
constructor per row of spec/opcode_table.json) and the packets in which operations are offered to
the core (spec/30_encoding.md). -/

namespace Sys2Proof

/-- A channel tag (R81): the first channel is A, the second B (R37). -/
inductive Ch
  | a
  | b
  deriving DecidableEq, Repr

/-- The output-granularity mode (R28, R80). -/
inductive Mode
  | byte
  | word
  | wordBytesAscending
  | wordBytesDescending
  deriving DecidableEq, Repr

/-- The value of `lastErr` (R82). -/
inductive ErrCode
  | none
  | startEarly
  | startShort
  | startLong
  | startTrail
  | bitTiming
  | endTooMany
  | endAmbig
  deriving DecidableEq, Repr

/-- The result of the end/error classifier (R78). -/
inductive ClassResult
  | normal
  | endOfPacket
  | error
  deriving DecidableEq, Repr

/-- The classification of a decoded unit (R79). -/
inductive Cls
  | frameHeader
  | payload
  | crc
  deriving DecidableEq, Repr

/-- The kind of a marker (R81). -/
inductive MarkerKind
  | start
  | stop
  | bit
  deriving DecidableEq, Repr

/-- The granularity of a decoded unit (R83). -/
inductive Gran
  | byte
  | word
  deriving DecidableEq, Repr

/-- An event of the output log (R86). -/
inductive Event
  /-- `Marker { kind, ch, sample }`. -/
  | marker (kind : MarkerKind) (ch : Ch) (sample : Sample)
  /-- `Unit { gran, value, cls, remaining, start, end }`. -/
  | unit (gran : Gran) (value : BusWord) (cls : Cls) (remaining : Count) (first last : Sample)
  deriving DecidableEq, Repr

/-- The fourteen operations of spec/opcode_table.json. -/
inductive Instr
  /-- `LEVEL c` (R100). -/
  | level (c : Ch)
  /-- `POS c` (R101). -/
  | pos (c : Ch)
  /-- `PEEK c` (R102). -/
  | peek (c : Ch)
  /-- `NEXT c` (R103). -/
  | next (c : Ch)
  /-- `ADV c, s` (R104). -/
  | adv (c : Ch) (s : Sample)
  /-- `WCROSS c, s` (R106). -/
  | wcross (c : Ch) (s : Sample)
  /-- `ALIGN` (R120). -/
  | align
  /-- `START` (R123). -/
  | start
  /-- `BIT k` (R140). -/
  | bit (k : BitVec 3)
  /-- `CLASSIFY` (R146). -/
  | classify
  /-- `ASSEMBLE` (R161). -/
  | assemble
  /-- `RESET mode, pA, pB` (R210). -/
  | reset (mode : Mode) (pA pB : Sample)
  /-- `EXTEND U_A, U_B, H', final'` (R182). -/
  | extend (uA uB : List Sample) (h : Sample) (fin : Bool)
  /-- `CANCEL` (R183). -/
  | cancel
  deriving DecidableEq, Repr

/-- The values the host drives on the input ports of R84 beside an operation code. RESET samples
`mode`, `startA` and `startB`; EXTEND samples the new transitions, the horizon and the final flag.
An EOC itself carries no operand (R88). -/
structure Ports where
  mode : BitVec 2
  startA : Sample
  startB : Sample
  newA : List Sample
  newB : List Sample
  horizon : Sample
  final : Bool
  deriving DecidableEq, Repr

/-- Every port at zero. -/
def Ports.idle : Ports := ⟨0, 0, 0, [], [], 0, false⟩

/-- An operation as it is offered to the core: one of the two formats of R70, with what accompanies
it. A CCW is followed by a 64-bit operand or by nothing (R88). -/
inductive Packet
  | ccw (word : Ccw) (operand : Option Sample)
  | eoc (code : Eoc) (ports : Ports)
  deriving DecidableEq, Repr

/-- The names under which the core refuses an input, leaving itself as it was (R52, R87, R182, R196,
R210, spec/93_implementation_defined.md I1, I2, I12, I13). -/
inductive Reject
  /-- CCW `op` 110 or 111: ILLEGAL_COMMAND (R87). -/
  | illegalCommand
  /-- A CCW of ADV or WCROSS without its operand (R88). -/
  | missingOperand
  /-- An operand after a CCW that takes none (R88). -/
  | strayOperand
  /-- An EOC code that is no operation: ILLEGAL (R87, R88). -/
  | illegalOperation
  /-- An engine operation offered by the host (R200, I2). -/
  | notHostOperation
  /-- A RESET whose position is not yet captured: BAD_RESET (R210). -/
  | badReset
  /-- An EXTEND that breaks a requirement: BAD_EXTEND (R182). -/
  | badExtend
  /-- A trace list that is no transition sequence (R52). -/
  | badTrace
  deriving DecidableEq, Repr

end Sys2Proof
end

