-- ==== Sys2Proof/WellFormed.lean ====
section
/-! DEFINITION. When an instruction is well formed, whatever the state. Only EXTEND can fail the
check: its lists must be strictly increasing and below the new horizon (spec/44_host.md R182). An
EXTEND that is not well formed still has a meaning: it is refused as BAD_EXTEND. -/

namespace Sys2Proof

/-- The part of R182's requirements that does not look at the state. -/
def Instr.wellFormed : Instr → Bool
  | .level _ => true
  | .pos _ => true
  | .peek _ => true
  | .next _ => true
  | .adv _ _ => true
  | .wcross _ _ => true
  | .align => true
  | .start => true
  | .bit _ => true
  | .classify => true
  | .assemble => true
  | .reset _ _ _ => true
  | .extend uA uB h _ =>
    Machine.strictlyIncreasing uA && Machine.strictlyIncreasing uB &&
      Machine.allBelow h uA && Machine.allBelow h uB
  | .cancel => true

end Sys2Proof
end

