-- ==== Sys2Proof/Decode.lean ====
section
/-! DEFINITION. The encodings of spec/30_encoding.md: the decoder of the two operation formats, total
and rejecting by name; the encoder written from the same tables; the code values of modes, results,
classifications, markers, granularities and errors; the assembler text of R89. -/

namespace Sys2Proof

/-! ## The code tables (R78 to R83) -/

/-- The channel bit of a CCW and of a marker (R71, R81). -/
def Ch.code : Ch → BitVec 1
  | .a => 0
  | .b => 1

/-- The channel of a channel bit (R71). -/
def chOfCode (b : BitVec 1) : Ch := if b = 0 then .a else .b

/-- R80. -/
def Mode.code : Mode → BitVec 2
  | .byte => 0
  | .word => 1
  | .wordBytesAscending => 2
  | .wordBytesDescending => 3

/-- The mode of a mode field; all four values are legal (R28, R80). -/
def modeOfCode (m : BitVec 2) : Mode :=
  if m = 0 then .byte else if m = 1 then .word else if m = 2 then .wordBytesAscending
  else .wordBytesDescending

/-- R82. -/
def ErrCode.code : ErrCode → BitVec 3
  | .none => 0
  | .startEarly => 1
  | .startShort => 2
  | .startLong => 3
  | .startTrail => 4
  | .bitTiming => 5
  | .endTooMany => 6
  | .endAmbig => 7

/-- R78, a two-bit two's-complement number. -/
def ClassResult.code : ClassResult → BitVec 2
  | .normal => 0b00
  | .endOfPacket => 0b01
  | .error => 0b11

/-- The classifier result of a code; `10` is reserved and refused (R78, R87). -/
def classResultOfCode (c : BitVec 2) : Option ClassResult :=
  if c = 0b00 then some .normal else if c = 0b01 then some .endOfPacket
  else if c = 0b11 then some .error else none

/-- R79. -/
def Cls.code : Cls → BitVec 2
  | .frameHeader => 0
  | .payload => 1
  | .crc => 2

/-- The classification of a code; 3 is reserved and refused (R79, R87). -/
def clsOfCode (c : BitVec 2) : Option Cls :=
  if c = 0 then some .frameHeader else if c = 1 then some .payload
  else if c = 2 then some .crc else none

/-- R81. -/
def MarkerKind.code : MarkerKind → BitVec 2
  | .start => 0
  | .stop => 1
  | .bit => 2

/-- The marker kind of a code; 3 is reserved and refused (R81, R87). -/
def markerKindOfCode (c : BitVec 2) : Option MarkerKind :=
  if c = 0 then some .start else if c = 1 then some .stop
  else if c = 2 then some .bit else none

/-- R83. -/
def Gran.code : Gran → BitVec 1
  | .byte => 0
  | .word => 1

/-! ## The engine operation codes (R75) -/

/-- `000 000`. -/
def eocAlign : Eoc := 0b000000
/-- `001 000`. -/
def eocStart : Eoc := 0b001000
/-- `010 000`: BIT as `phase` spells it (R76). -/
def eocBit : Eoc := 0b010000
/-- `011 000`. -/
def eocClassify : Eoc := 0b011000
/-- `100 000`. -/
def eocAssemble : Eoc := 0b100000
/-- `101 000`. -/
def eocReset : Eoc := 0b101000
/-- `101 001`. -/
def eocExtend : Eoc := 0b101001
/-- `101 010`. -/
def eocCancel : Eoc := 0b101010
/-- `111 111`: a value of `phase` only, no operation. -/
def eocHalted : Eoc := 0b111111

/-- The `major` field, bits [5:3] (R75). -/
def eocMajor (e : Eoc) : BitVec 3 := e.extractLsb' 3 3

/-- The `minor` field, bits [2:0] (R75). -/
def eocMinor (e : Eoc) : BitVec 3 := e.extractLsb' 0 3

/-! ## Decoding -/

/-- A command that takes no operand (R88). -/
def withoutOperand (operand : Option Sample) (i : Instr) : Except Reject Instr :=
  match operand with
  | none => .ok i
  | some _ => .error .strayOperand

/-- A command that takes the 64-bit operand, used as given (R73, R88). -/
def withOperand (operand : Option Sample) (f : Sample → Instr) : Except Reject Instr :=
  match operand with
  | none => .error .missingOperand
  | some s => .ok (f s)

/-- The decoder of cursor command words (R71, R72, R87, R88). -/
def decodeCcw (word : Ccw) (operand : Option Sample) : Except Reject Instr :=
  let c := chOfCode (word.extractLsb' 3 1)
  let op : BitVec 3 := word.extractLsb' 0 3
  if op = 0b000 then withoutOperand operand (.level c)
  else if op = 0b001 then withoutOperand operand (.pos c)
  else if op = 0b010 then withoutOperand operand (.peek c)
  else if op = 0b011 then withoutOperand operand (.next c)
  else if op = 0b100 then withOperand operand (.adv c)
  else if op = 0b101 then withOperand operand (.wcross c)
  else .error .illegalCommand

/-- The decoder of engine operation codes, host group included; operands come from the ports (R75,
R84, R88). -/
def decodeEoc (code : Eoc) (p : Ports) : Except Reject Instr :=
  if code = eocAlign then .ok .align
  else if code = eocStart then .ok .start
  else if eocMajor code = eocMajor eocBit then .ok (.bit (eocMinor code))
  else if code = eocClassify then .ok .classify
  else if code = eocAssemble then .ok .assemble
  else if code = eocReset then .ok (.reset (modeOfCode p.mode) p.startA p.startB)
  else if code = eocExtend then .ok (.extend p.newA p.newB p.horizon p.final)
  else if code = eocCancel then .ok .cancel
  else .error .illegalOperation

/-- The decoder: total, every packet is an operation or is rejected by name (R88). -/
def decode : Packet → Except Reject Instr
  | .ccw word operand => decodeCcw word operand
  | .eoc code ports => decodeEoc code ports

/-- The engine step that `phase` names, with the bit index taken from register `k` (R29, R76, R181);
none where `phase` holds no engine code. Only the `major` field selects BIT. -/
def decodePhase (phase : Eoc) (k : BitVec 3) : Option Instr :=
  if phase = eocAlign then some .align
  else if phase = eocStart then some .start
  else if eocMajor phase = eocMajor eocBit then some (.bit k)
  else if phase = eocClassify then some .classify
  else if phase = eocAssemble then some .assemble
  else none

/-- The host group of R75: what the host may offer (R180). -/
def Instr.isHost : Instr → Bool
  | .reset _ _ _ => true
  | .extend _ _ _ _ => true
  | .cancel => true
  | .level _ | .pos _ | .peek _ | .next _ | .adv _ _ | .wcross _ _ => false
  | .align | .start | .bit _ | .classify | .assemble => false

/-- The engine group of R75: what only `phase` selects (R200). -/
def Instr.isEngine : Instr → Bool
  | .align | .start | .bit _ | .classify | .assemble => true
  | .level _ | .pos _ | .peek _ | .next _ | .adv _ _ | .wcross _ _ => false
  | .reset _ _ _ | .extend _ _ _ _ | .cancel => false

/-- The cursor commands, the CCW format of R70. -/
def Instr.isCursor : Instr → Bool
  | .level _ | .pos _ | .peek _ | .next _ | .adv _ _ | .wcross _ _ => true
  | .align | .start | .bit _ | .classify | .assemble => false
  | .reset _ _ _ | .extend _ _ _ _ | .cancel => false

/-! ## Encoding -/

/-- A CCW from its two fields (R71). -/
def ccwWord (c : Ch) (op : BitVec 3) : Ccw := c.code ++ op

/-- The encoder. A port that an operation does not sample is driven to zero. -/
def encode : Instr → Packet
  | .level c => .ccw (ccwWord c 0b000) none
  | .pos c => .ccw (ccwWord c 0b001) none
  | .peek c => .ccw (ccwWord c 0b010) none
  | .next c => .ccw (ccwWord c 0b011) none
  | .adv c s => .ccw (ccwWord c 0b100) (some s)
  | .wcross c s => .ccw (ccwWord c 0b101) (some s)
  | .align => .eoc eocAlign Ports.idle
  | .start => .eoc eocStart Ports.idle
  | .bit k => .eoc (eocMajor eocBit ++ k) Ports.idle
  | .classify => .eoc eocClassify Ports.idle
  | .assemble => .eoc eocAssemble Ports.idle
  | .reset mode pA pB =>
    .eoc eocReset { Ports.idle with mode := mode.code, startA := pA, startB := pB }
  | .extend uA uB h fin =>
    .eoc eocExtend { Ports.idle with newA := uA, newB := uB, horizon := h, final := fin }
  | .cancel => .eoc eocCancel Ports.idle

/-! ## The opcode table's words -/

/-- The operand a CCW is followed by when it is written as a table word alone: the bits above the
word are zero, so the operand of ADV and WCROSS is 0 (R88). -/
def tableOperand (word : Ccw) : Option Sample :=
  if word.getLsbD 2 && !word.getLsbD 1 then some 0 else none

/-- The packet that a word of the opcode table stands for. The table's rows are 4 bits wide (CCW) or
6 bits wide (EOC) and their codes overlap, so the width decides; a width given in whole bytes does
not, and then a word is an EOC where it is an operation code and a CCW otherwise. Everything above
the word is zero: the operand of a CCW, and every port. -/
def tablePacket (nbits w : Nat) : Packet :=
  let asCcw : Packet := .ccw (BitVec.ofNat 4 w) (tableOperand (BitVec.ofNat 4 w))
  let asEoc : Packet := .eoc (BitVec.ofNat 6 w) Ports.idle
  if nbits ≤ 4 then asCcw
  else if nbits ≤ 7 ∨ 16 ≤ w then asEoc
  else match decode asEoc with
    | .ok _ => asEoc
    | .error _ => asCcw

/-- A word fits the widest format its width allows: 4 bits for a CCW, 6 for an EOC. -/
def tableWordFits (nbits w : Nat) : Bool :=
  if nbits ≤ 4 then decide (w < 16) else decide (w < 64)

/-- The instruction the decoder reads from a word of the opcode table. -/
def decodeTableWord (nbits w : Nat) : Option Instr :=
  if tableWordFits nbits w then
    match decode (tablePacket nbits w) with
    | .ok i => some i
    | .error _ => none
  else none

/-! ## Assembler text (R89) -/

/-- The name of a channel. -/
def Ch.text : Ch → String
  | .a => "A"
  | .b => "B"

/-- The name of a mode. -/
def Mode.text : Mode → String
  | .byte => "BYTE"
  | .word => "WORD"
  | .wordBytesAscending => "WORD_BYTES_ASCENDING"
  | .wordBytesDescending => "WORD_BYTES_DESCENDING"

/-- An operation's line of text; samples are decimal. -/
def Instr.text : Instr → String
  | .level c => "LEVEL " ++ c.text
  | .pos c => "POS " ++ c.text
  | .peek c => "PEEK " ++ c.text
  | .next c => "NEXT " ++ c.text
  | .adv c s => "ADV " ++ c.text ++ ", " ++ toString s.toNat
  | .wcross c s => "WCROSS " ++ c.text ++ ", " ++ toString s.toNat
  | .align => "ALIGN"
  | .start => "START"
  | .bit k => "BIT " ++ toString k.toNat
  | .classify => "CLASSIFY"
  | .assemble => "ASSEMBLE"
  | .reset mode pA pB =>
    "RESET " ++ mode.text ++ ", " ++ toString pA.toNat ++ ", " ++ toString pB.toNat
  | .extend _ _ _ _ => "EXTEND"
  | .cancel => "CANCEL"

end Sys2Proof
end

