-- ==== Sys2Proof/Machine/State.lean ====
section
/-! DEFINITION. The state of the machine (spec/10_state.md, spec/20_memory.md R51), the reasons a step
can stop, the outcomes of a rule inside a step, and the state right after reset. -/

namespace Sys2Proof.Machine

/-- A cursor unit's two registers (R21). -/
structure Cursor where
  /-- The current sample position. -/
  pos : Sample
  /-- How many transitions of the channel the cursor has passed. -/
  idx : BitVec 64
  deriving DecidableEq, Repr

/-- The trace of one channel: its level before the first transition and its transitions (R51). -/
structure Trace where
  init : Bool
  trans : List Sample
  deriving DecidableEq, Repr

/-- The packet state `ps` (R31). `none` is the unknown value, a clear valid flag. -/
structure PacketState where
  byteCount : Count
  wordAcc : BusWord
  wordStart : Option Sample
  bytesTotal : Option Count
  bytesRem : Option Count
  wordsTotal : Option Count
  wordsRem : Option Count
  deriving DecidableEq, Repr

/-- `PS_INIT` (R31). -/
def PacketState.init : PacketState := ⟨0, 0, none, none, none, none, none⟩

/-- What a step answered: the outcome of R12 where it is Next or Blocked, the response of a cursor
command (R74), or the name under which an input was refused. The model's own field, no register of
the core: notes/assumptions/2.md. -/
inductive Answer
  /-- Next, with no value. -/
  | done
  /-- The bit of LEVEL or WCROSS. -/
  | bit (b : Bool)
  /-- The sample of POS or PEEK. -/
  | sample (s : Sample)
  /-- The crossing count of ADV. -/
  | count (n : Count)
  /-- Blocked: the captured data cannot yet answer (R53). -/
  | blocked
  /-- The input was refused by name and nothing else changed (R196). -/
  | refused (r : Reject)
  deriving DecidableEq, Repr

/-- The state of the machine. INVENTORY.md lists the rule behind each field. `inbox`, `command` and
`answer` are the model's own: the host operations offered and not yet taken (notes/assumptions/2.md),
a command word standing at the cursor units' port, which no rule and no host operation puts there
(notes/assumptions/7.md), and what the last step answered. -/
structure State where
  curA : Cursor
  curB : Cursor
  phase : Eoc
  k : BitVec 3
  shift : Byte
  byteStart : Sample
  byteEnd : Sample
  lastErr : ErrCode
  modeReg : Mode
  ps : PacketState
  out : List Event
  traceA : Trace
  traceB : Trace
  horizon : Sample
  final : Bool
  inbox : List Packet
  command : Option (Ccw × Option Sample)
  answer : Answer
  deriving DecidableEq, Repr

/-- The fault reasons (R196). Each ends the step with no effect and stops the run. Safe: the model
stops where the spec says the machine is stuck. -/
inductive Fault
  /-- CURSOR_BACKWARD, raised by ADV for a target before the cursor (R105). Safe. -/
  | cursorBackward
  /-- READ_UNKNOWN, raised by ASSEMBLE for a read of an unknown field of `ps` (R31). Safe. -/
  | readUnknown
  /-- COUNTER_OVERFLOW, raised by ASSEMBLE when `byteCount` is `2^32 - 1` (R161). Safe. -/
  | counterOverflow
  /-- ILLEGAL_PHASE, raised by the run loop when `phase` holds no engine code (R181). Safe. -/
  | illegalPhase
  /-- ILLEGAL_COMMAND, raised when a reserved command word stands at the cursor units' port (R87).
  Safe. -/
  | illegalCommand
  deriving DecidableEq, Repr

/-- The refusals of a step. The spec's own refusals of host input leave the core running and are
answers (`Answer.refused`), not stops. -/
inductive Refusal
  /-- An instruction whose meaning is not written yet, raised by `exec`. Safe. No arm raises it. -/
  | notModelled (mnemonic : String)
  deriving DecidableEq, Repr

/-- The outcome of a piece of a rule's pseudocode (R11, R12). -/
inductive Flow (α : Type)
  /-- It went through, with a value. -/
  | ok (a : α) (s : State)
  /-- It ended the step with outcome Next (a resync). -/
  | ended (s : State)
  /-- It met a command that the captured data cannot yet answer (R53). -/
  | blocked
  /-- It raised a fault (R196). -/
  | fault (r : Fault)
  deriving DecidableEq, Repr

/-- What the run loop finds to do at a step boundary (R181, R184). -/
inductive Fetched
  /-- An operation to execute, in the state that remains once it is taken. -/
  | run (i : Instr) (s : State)
  /-- A command to a cursor unit, which leaves the port when the unit has answered it. -/
  | issue (i : Instr) (s : State)
  /-- An input that is refused by name, in the state that remains once it is dropped. -/
  | reject (r : Reject) (s : State)
  /-- `phase` is HALTED: no step is taken (R181). -/
  | halted
  /-- No operation can be read. -/
  | fault (r : Fault)
  deriving DecidableEq, Repr

/-- The state of a run (R186). -/
inductive RunState
  | running
  | waiting
  | endOfData
  | halted
  | faulted (r : Fault)
  deriving DecidableEq, Repr

/-- The machine right after `RESET BYTE, 0, 0` (R210, R211, D22) on a live trace of one captured
sample, both lines high with no transition yet. DESIGN CHOICE for the mode, the positions and the
trace, which the spec leaves open: notes/assumptions/5.md. -/
def State.reset : State where
  curA := ⟨0, 0⟩
  curB := ⟨0, 0⟩
  phase := eocAlign
  k := 0
  shift := 0
  byteStart := 0
  byteEnd := 0
  lastErr := .none
  modeReg := .byte
  ps := PacketState.init
  out := []
  traceA := ⟨true, []⟩
  traceB := ⟨true, []⟩
  horizon := 1
  final := false
  inbox := []
  command := none
  answer := .done

end Sys2Proof.Machine
end

