-- ==== Sys2Proof/Machine/Operands.lean ====
section
/-! DEFINITION. The operand forms: a channel names a cursor unit and a trace (spec/30_encoding.md R71),
a bit index assigns the clock and data roles (spec/42_bit_classify.md R145), the mode selects the
units that are materialized (spec/43_assemble.md R160). -/

namespace Sys2Proof.Machine

/-- `other(c)` (R11). -/
def other : Ch → Ch
  | .a => .b
  | .b => .a

/-- The cursor unit of a channel (R21). -/
def State.cur (s : State) : Ch → Cursor
  | .a => s.curA
  | .b => s.curB

/-- The trace of a channel (R51). -/
def State.trace (s : State) : Ch → Trace
  | .a => s.traceA
  | .b => s.traceB

/-- The clock line `K` of bit `k`: A for an even index, B for an odd one (R145). -/
def clockOf (k : BitVec 3) : Ch := if k.getLsbD 0 then .b else .a

/-- The data line `D` of bit `k` (R145). -/
def dataOf (k : BitVec 3) : Ch := other (clockOf k)

/-- Whether the mode requires per-byte units (R160). -/
def byteUnits (m : Mode) : Bool := decide (m = .byte)

/-- Whether the mode requires word-granularity units (R160). -/
def wordUnits (m : Mode) : Bool := decide (m ≠ .byte)

/-- The value of the header byte's `bytesTotal` (R163). -/
def headerBytes (h : Byte) : Count := BitVec.ofNat 32 (Config.hdrMul * h.toNat + Config.hdrAdd)

/-- The value of the header byte's `wordsTotal` (R163). -/
def headerWords (h : Byte) : Count := BitVec.ofNat 32 (h.toNat + 1)

/-- `(wordAcc >> 8) | (zext_32(v) << 24)` (R54, R162). -/
def foldByte (acc : BusWord) (v : Byte) : BusWord := (acc >>> 8) ||| (v.setWidth 32 <<< 24)

/-- `((shift << 1) | bit)[7:0]` (R26, R143). -/
def shiftIn (sh : Byte) (b : Bool) : Byte := (sh <<< 1) ||| (BitVec.ofBool b).setWidth 8

end Sys2Proof.Machine
end

