-- ==== Sys2Proof/Machine/Flags.lean ====
section
/-! DEFINITION. The one-bit status values of the core (spec/10_state.md R34): the two cursor levels,
the classifier result, and the valid flags of `ps`. None is a register of its own. -/

namespace Sys2Proof.Machine

/-- `level(c) = init_c xor (cur[c].idx mod 2)` (R22). -/
def State.level (s : State) (c : Ch) : Bool := levelAfter (s.trace c).init (s.cur c).idx.toNat

/-- The level of a line at a sample, `lev_c(s)` (R52). -/
def Trace.levelAt (t : Trace) (x : Sample) : Bool := levelAfter t.init (countUpTo t.trans x)

/-- The classifier's arms that the crossing count alone decides (R141, R149); none for the ambiguous
arm, `nde = 2`, which CLASSIFY resolves. -/
def classifyCount (nde : Count) : Option ClassResult :=
  if nde ≤ 1 then some .normal else if nde = 2 then none else some .error

/-- The ambiguous arm's result, from the clock transitions counted before `me` and whether moving the
clock to `me` would cross another (R146, R147, R149). -/
def classifyEnd (cnt : Nat) (crosses : Bool) : ClassResult :=
  if cnt = Config.endClk ∧ crosses = false then .endOfPacket else .error

/-- The valid flags of `ps`, in R31's order: wordStart, bytesTotal, bytesRem, wordsTotal, wordsRem. -/
def PacketState.validFlags (ps : PacketState) : Bool × Bool × Bool × Bool × Bool :=
  (ps.wordStart.isSome, ps.bytesTotal.isSome, ps.bytesRem.isSome, ps.wordsTotal.isSome,
    ps.wordsRem.isSome)

end Sys2Proof.Machine
end

