-- ==== Sys2Proof/Machine/Ops.lean ====
section
/-! DEFINITION. The shared operations: sequencing inside a step (spec/00_scope.md R11, R12), the six
cursor commands (spec/40_cursor.md), `emit` (spec/20_memory.md R60), and taking the core's one
exception, the resync (spec/60_exceptions.md R193), with its return (R195). -/

namespace Sys2Proof.Machine

/-! ## Sequencing -/

/-- Goes on with the next command, with the value and the state this one left (R215). -/
def Flow.andThen {α β : Type} (x : Flow α) (f : α → State → Flow β) : Flow β :=
  match x with
  | .ok a s => f a s
  | .ended s => .ended s
  | .blocked => .blocked
  | .fault r => .fault r

/-- The state with the step's answer recorded. -/
def State.answered (s : State) (a : Answer) : State := { s with answer := a }

/-- A step's outcome from its rule's, the step having begun in `s`: a blocked step has no effect
(R53), a faulting one none either (R196). -/
def settle (s : State) (x : Flow Answer) : Host.Outcome State Fault Refusal :=
  match x with
  | .ok a t => .next (t.answered a)
  | .ended t => .next (t.answered .done)
  | .blocked => .next (s.answered .blocked)
  | .fault r => .fault r

/-! ## Named updates -/

/-- A write of a cursor unit's registers (R21). -/
def State.setCur (s : State) (c : Ch) (v : Cursor) : State :=
  match c with
  | .a => { s with curA := v }
  | .b => { s with curB := v }

/-- `phase <- p` (R11, R29). -/
def State.setPhase (s : State) (p : Eoc) : State := { s with phase := p }

/-- `emit(e)`: the event is appended and committed; the sink never refuses (R36, R60). -/
def State.emit (s : State) (e : Event) : State := { s with out := s.out ++ [e] }

/-- Taking the exception: `resync(err)` writes `lastErr` and sends `phase` to ALIGN; nothing is saved
and nothing else changes (R130, R193). -/
def State.resync (s : State) (err : ErrCode) : State :=
  { s with lastErr := err, phase := eocAlign }

/-- Returning from the exception: there is no return instruction and no saved state; the return is
ALIGN's hand-over to START, from wherever the cursors stand (R195). -/
def State.resumeAtNeutral (s : State) : State := s.setPhase eocStart

/-! ## Cursor commands -/

/-- The channel's next transition after its cursor, where it is captured (R102). -/
def State.upcoming (s : State) (c : Ch) : Option Sample :=
  (s.trace c).trans[(s.cur c).idx.toNat]?

/-- `POS c` (R101). -/
def State.position (s : State) (c : Ch) : Sample := (s.cur c).pos

/-- `PEEK c`: blocks where no next transition is captured (R102). -/
def peekNext (c : Ch) (s : State) : Flow Sample :=
  match s.upcoming c with
  | some t => .ok t s
  | none => .blocked

/-- `NEXT c`: moves to the next transition and crosses it (R103). -/
def goNext (c : Ch) (s : State) : Flow Unit :=
  match s.upcoming c with
  | some t => .ok () (s.setCur c ⟨t, (s.cur c).idx + 1⟩)
  | none => .blocked

/-- `|{ j : idx <= j < n_c and T_c[j] <= s }|`: the transitions that moving the cursor to `x` would
cross (R104). -/
def State.crossings (s : State) (c : Ch) (x : Sample) : Nat :=
  countUpTo ((s.trace c).trans.drop (s.cur c).idx.toNat) x

/-- The count that ADV reports, saturating at `2^32 - 1` (R104). -/
def saturate (n : Nat) : Count := BitVec.ofNat 32 (min n (2 ^ 32 - 1))

/-- `ADV c, x`: a backward target faults before the horizon is looked at (R104, R105, R194). -/
def advanceTo (c : Ch) (x : Sample) (s : State) : Flow Count :=
  if x < s.position c then .fault .cursorBackward
  else if s.horizon ≤ x then .blocked
  else
    .ok (saturate (s.crossings c x))
      (s.setCur c ⟨x, (s.cur c).idx + BitVec.ofNat 64 (s.crossings c x)⟩)

/-- `WCROSS c, x` (R106). -/
def wouldCross (c : Ch) (x : Sample) (s : State) : Flow Bool :=
  match s.upcoming c with
  | some t =>
    if t ≤ x then .ok true s else if x < s.horizon then .ok false s else .blocked
  | none => if x < s.horizon then .ok false s else .blocked

/-- `SKIPLOW c`: a low line is advanced to its rising edge (R90). -/
def skipLow (c : Ch) (s : State) : Flow Unit :=
  if s.level c = false then goNext c s else .ok () s

/-- `ALIGNTO c, d`: `c` is advanced to `d`'s sample, the crossing count discarded (R90). -/
def alignTo (c d : Ch) (s : State) : Flow Unit :=
  (advanceTo c (s.position d) s).andThen fun _ t => .ok () t

/-! ## Packet state -/

/-- A read of a field of `ps`; the unknown value faults (R31). -/
def readKnown {α : Type} (o : Option α) : Except Fault α :=
  match o with
  | some v => .ok v
  | none => .error .readUnknown

end Sys2Proof.Machine
end

