-- ==== Sys2Proof/Machine/AlignStart.lean ====
section
/-! DEFINITION. The neutral aligner and the start-sequence detector (spec/41_align_start.md). -/

namespace Sys2Proof.Machine

/-! ## ALIGN -/

/-- Branch (a): the behind cursor is advanced to the ahead cursor's sample (R120). -/
def alignPositions (s : State) : Flow Unit :=
  if s.position .a < s.position .b then alignTo .a .b s
  else if s.position .b < s.position .a then alignTo .b .a s
  else .ok () s

/-- One branch of (b): a cursor that reports low now goes to its next transition, and the other is
brought to the same sample (R120). -/
def raiseLow (c : Ch) (s : State) : Flow Unit :=
  if s.level c = false then (goNext c s).andThen fun _ t => alignTo (other c) c t
  else .ok () s

/-- The termination test (R120). -/
def neutralTest (s : State) : State :=
  if s.level .a = true ∧ s.level .b = true then s.resumeAtNeutral else s.setPhase eocAlign

/-- One iteration of the aligner (R120). -/
def alignRule (s : State) : Flow Answer :=
  (alignPositions s).andThen fun _ s =>
  (raiseLow .a s).andThen fun _ s =>
  (raiseLow .b s).andThen fun _ s =>
  .ok .done (neutralTest s)

/-- `ALIGN` (R120). -/
def execAlign (s : State) : Host.Outcome State Fault Refusal := settle s (alignRule s)

/-! ## START -/

/-- Stages S1 and S2: A's falling edge, taken, and its rising edge, peeked (R124). The value is
`(startSample, windowEnd)`. -/
def startWindow (s : State) : Flow (Sample × Sample) :=
  (goNext .a s).andThen fun _ s =>
  (peekNext .a s).andThen fun e s =>
  .ok (s.position .a, e) s

/-- One toggle of stage S3, the first one if `first` (R125). -/
def burstToggle (startSample windowEnd : Sample) (first : Bool) (s : State) : Flow Unit :=
  (peekNext .b s).andThen fun t s =>
  if first = true ∧ t < startSample then .ended (s.resync .startEarly)
  else if windowEnd ≤ t then .ended (s.resync .startShort)
  else goNext .b s

/-- Stage S3 with `left` toggles to go (R125). -/
def startBurst (startSample windowEnd : Sample) : Nat → Bool → State → Flow Unit
  | 0, _, s => .ok () s
  | left + 1, first, s =>
    (burstToggle startSample windowEnd first s).andThen fun _ s =>
    startBurst startSample windowEnd left false s

/-- Stage S4: no fifth toggle at or before the window's end (R126). -/
def noFifthToggle (windowEnd : Sample) (s : State) : Flow Unit :=
  (wouldCross .b windowEnd s).andThen fun crosses s =>
  if crosses = true then .ended (s.resync .startLong) else .ok () s

/-- Stage S5: B's fall, the refined end (R127). -/
def refinedEnd (s : State) : Flow Sample :=
  (goNext .b s).andThen fun _ s => .ok (s.position .b) s

/-- Stages S6 and S7: A rises and then is quiet up to the refined end (R128). -/
def quietUntil (trueEnd : Sample) (s : State) : Flow Unit :=
  (goNext .a s).andThen fun _ s =>
  (wouldCross .a trueEnd s).andThen fun crosses s =>
  if crosses = true then .ended (s.resync .startTrail) else .ok () s

/-- The registers that a validated start writes, after the cursors: both Start markers, `PS_INIT`,
`k`, `shift` and `phase` (R32, R129). -/
def beginPacket (startSample : Sample) (s : State) : State :=
  let s := (s.emit (.marker .start .a startSample)).emit (.marker .start .b startSample)
  { s with ps := PacketState.init, k := 0, shift := 0, phase := eocBit }

/-- One attempt of the detector (R123 to R129). -/
def startRule (s : State) : Flow Answer :=
  (startWindow s).andThen fun w s =>
  (startBurst w.1 w.2 Config.burst true s).andThen fun _ s =>
  (noFifthToggle w.2 s).andThen fun _ s =>
  (refinedEnd s).andThen fun trueEnd s =>
  (quietUntil trueEnd s).andThen fun _ s =>
  (advanceTo .a trueEnd s).andThen fun _ s =>
  .ok .done (beginPacket w.1 s)

/-- `START` (R123). -/
def execStart (s : State) : Host.Outcome State Fault Refusal := settle s (startRule s)

end Sys2Proof.Machine
end

