-- ==== Sys2Proof/Machine/Assemble.lean ====
section
/-! DEFINITION. The packet assembler (spec/43_assemble.md R160 to R168). The packet state is folded
without looking at the mode (R169); the mode decides only which unit is emitted (R160). -/

namespace Sys2Proof.Machine

/-- The count, the fold and the start of a 4-byte group (R161, R162). -/
def countByte (v : Byte) (byteStart : Sample) (ps : PacketState) : PacketState :=
  let n := ps.byteCount + 1
  { ps with
    byteCount := n
    wordAcc := foldByte ps.wordAcc v
    wordStart := if n.toNat % Config.wordBytes = 1 then some byteStart else ps.wordStart }

/-- Byte #1 fixes the expected lengths (R163); a later byte takes one from the bytes remaining while
there are any (R164). The value's second part is `justZero`. -/
def countRemaining (v : Byte) (ps : PacketState) : Except Fault (PacketState × Bool) :=
  if ps.byteCount = 1 then
    .ok ({ ps with
      bytesTotal := some (headerBytes v)
      bytesRem := some (headerBytes v - 1)
      wordsTotal := some (headerWords v)
      wordsRem := some (headerWords v) }, false)
  else
    match readKnown ps.bytesRem with
    | .error r => .error r
    | .ok rem =>
      if 0 < rem then .ok ({ ps with bytesRem := some (rem - 1) }, decide (rem - 1 = 0))
      else .ok (ps, false)

/-- The classification of a byte (R165). -/
def byteClass (ps : PacketState) : Except Fault Cls :=
  if ps.byteCount ≤ 4 then .ok .frameHeader
  else
    match readKnown ps.bytesRem with
    | .error r => .error r
    | .ok rem => .ok (if rem = 0 then .crc else .payload)

/-- A byte-granularity unit over the byte's own range (R165, R167, R175). -/
def byteUnit (v : Byte) (cls : Cls) (first last : Sample) (ps : PacketState) :
    Except Fault Event :=
  match readKnown ps.bytesRem with
  | .error r => .error r
  | .ok rem => .ok (.unit .byte (v.setWidth 32) cls rem first last)

/-- The word unit of a 4-byte group (R166, R175). -/
def wordUnit (last : Sample) (ps : PacketState) : Except Fault Event :=
  match readKnown ps.wordsRem with
  | .error r => .error r
  | .ok rem =>
    match readKnown ps.wordStart with
    | .error r => .error r
    | .ok first =>
      .ok (.unit .word ps.wordAcc (if ps.byteCount = 4 then .frameHeader else .payload)
        rem first last)

/-- The decrement of the words remaining, while there are any (R166). -/
def countWord (ps : PacketState) : Except Fault PacketState :=
  match readKnown ps.wordsRem with
  | .error r => .error r
  | .ok rem => .ok (if 0 < rem then { ps with wordsRem := some (rem - 1) } else ps)

/-- Whether the byte just counted is a 4th byte (R166). -/
def isFourth (ps : PacketState) : Bool := decide (ps.byteCount.toNat % Config.wordBytes = 0)

/-- The packet state after the word step: at every 4th byte the words remaining are counted; the
accumulator is cleared once the word unit has been formed, which is why it is apart (R166). -/
def wordStep (ps : PacketState) : Except Fault PacketState :=
  if isFourth ps then countWord ps else .ok ps

/-- The accumulator's reset at every 4th byte, in every mode (R166). -/
def clearWord (ps : PacketState) : PacketState :=
  if isFourth ps then { ps with wordAcc := 0 } else ps

/-- The events of the byte: in BYTE mode its byte unit; in a word mode the word unit at a 4th byte,
and elsewhere the CRC unit when the bytes remaining have just reached 0 (R160, R165 to R167). -/
def unitsOf (m : Mode) (v : Byte) (cls : Cls) (justZero : Bool) (first last : Sample)
    (ps : PacketState) : Except Fault (List Event) :=
  if byteUnits m then (byteUnit v cls first last ps).map fun e => [e]
  else if isFourth ps then (wordUnit last ps).map fun e => [e]
  else if justZero then (byteUnit v .crc first last ps).map fun e => [e]
  else .ok []

/-- ASSEMBLE's effect on the packet state and the events it emits, before the state is written
(R161). -/
def assembleByte (m : Mode) (v : Byte) (first last : Sample) (ps : PacketState) :
    Except Fault (PacketState × List Event) :=
  if ps.byteCount = BitVec.allOnes 32 then .error .counterOverflow
  else
    (countRemaining v (countByte v first ps)).bind fun counted =>
    (byteClass counted.1).bind fun cls =>
    (wordStep counted.1).bind fun ps' =>
    (unitsOf m v cls counted.2 first last ps').map fun events => (clearWord ps', events)

/-- `ASSEMBLE` (R161, R168). -/
def assembleRule (s : State) : Flow Answer :=
  match assembleByte s.modeReg s.shift s.byteStart s.byteEnd s.ps with
  | .error r => .fault r
  | .ok (ps, events) =>
    .ok .done { s with
      ps := ps
      out := s.out ++ events
      k := 0
      shift := 0
      phase := eocBit }

/-- `ASSEMBLE` (R161). -/
def execAssemble (s : State) : Host.Outcome State Fault Refusal := settle s (assembleRule s)

end Sys2Proof.Machine
end

