-- ==== Sys2Proof/Machine/BitClassify.lean ====
section
/-! DEFINITION. The bit sampler and the end/error classifier (spec/42_bit_classify.md). -/

namespace Sys2Proof.Machine

/-! ## BIT -/

/-- The registers that a sampled bit writes: `shift`, the Bit marker on the clock channel, the byte's
bounds, and the successor (R140, R143, R144). -/
def sampleBit (k : BitVec 3) (entry ce : Sample) (s : State) : State :=
  let bit := s.level (dataOf k)
  let s := { s with shift := shiftIn s.shift bit }
  let s := s.emit (.marker .bit (clockOf k) ce)
  let s := if k = 0 then { s with byteStart := entry } else s
  if k = Config.lastBit then { s with byteEnd := ce, phase := eocAssemble }
  else { s with k := k + 1, phase := eocBit }

/-- What the crossing count of the data line decides: at `k = 0` the classifier's arms (R141), at the
other indices the bit-timing rule (R142). -/
def judgeBit (k : BitVec 3) (entry ce : Sample) (nde : Count) (s : State) : Flow Answer :=
  if k = 0 then
    match classifyCount nde with
    | some .normal => .ok .done (sampleBit k entry ce s)
    | none => .ok .done (s.setPhase eocClassify)
    | some .endOfPacket | some .error => .ended (s.resync .endTooMany)
  else if 1 < nde then .ended (s.resync .bitTiming)
  else .ok .done (sampleBit k entry ce s)

/-- The clock's sampling edge: a low clock is first skipped to its rising edge (R140). The value is
`clockEdgeSample`. -/
def clockEdge (k : BitVec 3) (s : State) : Flow Sample :=
  (skipLow (clockOf k) s).andThen fun _ s =>
  (goNext (clockOf k) s).andThen fun _ s =>
  .ok (s.position (clockOf k)) s

/-- `BIT k` (R140). -/
def bitRule (k : BitVec 3) (s : State) : Flow Answer :=
  (clockEdge k s).andThen fun ce t =>
  (advanceTo (dataOf k) ce t).andThen fun nde t =>
  judgeBit k (s.position .a) ce nde t

/-- `BIT k` (R140). -/
def execBit (k : BitVec 3) (s : State) : Host.Outcome State Fault Refusal := settle s (bitRule k s)

/-! ## CLASSIFY -/

/-- The counting loop: A's transitions strictly before `me`, at most `left` more, each consumed
(R146). -/
def countClock (me : Sample) : Nat → Nat → State → Flow Nat
  | 0, cnt, s => .ok cnt s
  | left + 1, cnt, s =>
    (peekNext .a s).andThen fun t s =>
    if t < me then (goNext .a s).andThen fun _ s => countClock me left (cnt + 1) s
    else .ok cnt s

/-- Whether moving the clock to `me` would cross another transition, asked only after all counted
transitions were found (R146). -/
def fourthClock (cnt : Nat) (me : Sample) (s : State) : Flow Bool :=
  if cnt = Config.endClk then wouldCross .a me s else .ok false s

/-- The End outcome: Stop markers on both channels at `me`, both cursors at `me` (R146, R147). -/
def endPacket (me : Sample) (s : State) : Flow Answer :=
  let s := (s.emit (.marker .stop .a me)).emit (.marker .stop .b me)
  (advanceTo .a me s).andThen fun _ s =>
  (advanceTo .b me s).andThen fun _ s =>
  .ok .done (s.setPhase eocAlign)

/-- `CLASSIFY` (R146 to R148). -/
def classifyRule (s : State) : Flow Answer :=
  (peekNext .b s).andThen fun me s =>
  (countClock me Config.endClk 0 s).andThen fun cnt s =>
  (fourthClock cnt me s).andThen fun crosses s =>
  match classifyEnd cnt crosses with
  | .endOfPacket => endPacket me s
  | .normal | .error => .ended (s.resync .endAmbig)

/-- `CLASSIFY` (R146). -/
def execClassify (s : State) : Host.Outcome State Fault Refusal := settle s (classifyRule s)

end Sys2Proof.Machine
end

