-- ==== Sys2Proof/Machine/Cursor.lean ====
section
/-! DEFINITION. The cursor commands as instructions (spec/40_cursor.md): each is one command given to
a cursor unit, and its response (spec/30_encoding.md R74) is the step's answer. -/

namespace Sys2Proof.Machine

/-- `LEVEL c` (R100). -/
def execLevel (c : Ch) (s : State) : Host.Outcome State Fault Refusal :=
  settle s (.ok (.bit (s.level c)) s)

/-- `POS c` (R101). -/
def execPos (c : Ch) (s : State) : Host.Outcome State Fault Refusal :=
  settle s (.ok (.sample (s.position c)) s)

/-- `PEEK c` (R102). -/
def execPeek (c : Ch) (s : State) : Host.Outcome State Fault Refusal :=
  settle s ((peekNext c s).andThen fun t u => .ok (.sample t) u)

/-- `NEXT c` (R103). -/
def execNext (c : Ch) (s : State) : Host.Outcome State Fault Refusal :=
  settle s ((goNext c s).andThen fun _ u => .ok .done u)

/-- `ADV c, x` (R104). -/
def execAdv (c : Ch) (x : Sample) (s : State) : Host.Outcome State Fault Refusal :=
  settle s ((advanceTo c x s).andThen fun n u => .ok (.count n) u)

/-- `WCROSS c, x` (R106). -/
def execWcross (c : Ch) (x : Sample) (s : State) : Host.Outcome State Fault Refusal :=
  settle s ((wouldCross c x s).andThen fun b u => .ok (.bit b) u)

end Sys2Proof.Machine
end

