-- ==== Sys2Proof/Machine/HostOps.lean ====
section
/-! DEFINITION. The host operations (spec/44_host.md, spec/70_reset_and_hazards.md R210) and the input
boundary at which the host's inputs are refused by name (spec/20_memory.md R52, spec/60_exceptions.md
R196). -/

namespace Sys2Proof.Machine

/-- An input that is refused by name: nothing but the answer changes (R196). -/
def State.refuse (s : State) (r : Reject) : State := s.answered (.refused r)

/-! ## RESET -/

/-- A cursor placed at a sample, every transition at or before it passed (R23, R210). -/
def cursorAt (t : Trace) (p : Sample) : Cursor := ⟨p, BitVec.ofNat 64 (countUpTo t.trans p)⟩

/-- RESET's requirement: both positions are captured (R210). -/
def resetAccepted (s : State) (pA pB : Sample) : Bool :=
  decide (pA < s.horizon) && decide (pB < s.horizon)

/-- The whole core state is replaced; the trace, the horizon and the final flag stay (R185, R210,
R211). -/
def resetCore (mode : Mode) (pA pB : Sample) (s : State) : State :=
  { s with
    curA := cursorAt s.traceA pA
    curB := cursorAt s.traceB pB
    phase := eocAlign
    k := 0
    shift := 0
    byteStart := 0
    byteEnd := 0
    lastErr := .none
    modeReg := mode
    ps := PacketState.init
    out := [] }

/-- `RESET mode, pA, pB` (R210); refused as BAD_RESET where a position is not captured. -/
def execReset (mode : Mode) (pA pB : Sample) (s : State) : Host.Outcome State Fault Refusal :=
  if resetAccepted s pA pB then settle s (.ok .done (resetCore mode pA pB s))
  else .next (s.refuse .badReset)

/-! ## EXTEND -/

/-- EXTEND's requirements on one channel's list (R182). -/
def extensionOk (s : State) (h : Sample) (u : List Sample) : Bool :=
  strictlyIncreasing u && allFrom s.horizon u && allBelow h u

/-- EXTEND's requirements (R182). -/
def extendAccepted (s : State) (uA uB : List Sample) (h : Sample) : Bool :=
  !s.final && decide (s.horizon ≤ h) && extensionOk s h uA && extensionOk s h uB

/-- The captured trace grows; no register of the core changes (R182). -/
def extendTrace (uA uB : List Sample) (h : Sample) (fin : Bool) (s : State) : State :=
  { s with
    traceA := { s.traceA with trans := s.traceA.trans ++ uA }
    traceB := { s.traceB with trans := s.traceB.trans ++ uB }
    horizon := h
    final := fin }

/-- `EXTEND` (R182); refused as BAD_EXTEND where a requirement is broken. -/
def execExtend (uA uB : List Sample) (h : Sample) (fin : Bool) (s : State) :
    Host.Outcome State Fault Refusal :=
  if extendAccepted s uA uB h then settle s (.ok .done (extendTrace uA uB h fin s))
  else .next (s.refuse .badExtend)

/-! ## CANCEL -/

/-- `CANCEL` (R183). -/
def execCancel (s : State) : Host.Outcome State Fault Refusal :=
  settle s (.ok .done (s.setPhase eocHalted))

/-! ## The input boundary -/

/-- The name under which a packet is refused as an input, if it is: what does not decode (R87, R88,
I1), and what is no host operation, since only the run loop issues engine operations and cursor
commands (R198, R200, I2). -/
def inputProblem (p : Packet) : Option Reject :=
  match decode p with
  | .error r => some r
  | .ok i => if i.isHost then none else some .notHostOperation

/-- The host offers an operation at the present step boundary, behind those already offered there
(R180, R184). -/
def State.offer (s : State) (p : Packet) : Except Reject State :=
  match inputProblem p with
  | some r => .error r
  | none => .ok { s with inbox := s.inbox ++ [p] }

/-- A channel's trace from its initial level and its transition records; refused where they are no
transition sequence of a two-level line below the horizon (R51, R52). -/
def readTrace (init : Bool) (records : List (Sample × Bool)) (h : Sample) : Except Reject Trace :=
  match recordSamples init records with
  | none => .error .badTrace
  | some l => if strictlyIncreasing l && allBelow h l then .ok ⟨init, l⟩ else .error .badTrace

/-- The host supplies the captured trace, before RESET (R52, R84, R189, R214). -/
def State.loadTrace (s : State) (initA initB : Bool) (recordsA recordsB : List (Sample × Bool))
    (h : Sample) (fin : Bool) : Except Reject State :=
  (readTrace initA recordsA h).bind fun tA =>
  (readTrace initB recordsB h).map fun tB =>
  { s with traceA := tA, traceB := tB, horizon := h, final := fin }

/-- The level of a channel after all its captured transitions, the level before an extension (R52). -/
def Trace.lastLevel (t : Trace) : Bool := levelAfter t.init t.trans.length

/-- An offered operation's effect on the trace: an accepted EXTEND's, and none for any other (R182,
R185). -/
def growBy (s : State) (p : Packet) : State :=
  match decode p with
  | .ok (.extend uA uB h fin) =>
    if extendAccepted s uA uB h then extendTrace uA uB h fin s else s
  | .ok _ => s
  | .error _ => s

/-- The state whose trace is the one that the next operation offered will meet: the EXTENDs offered
before it have taken effect (R184). -/
def State.withOfferedExtends (s : State) : State := s.inbox.foldl growBy s

/-- An EXTEND from transition records, converted as R52 says and refused where a new level equals the
level before it (R182). DEDUCED: the level before the first record is the one at which this EXTEND
will find the trace, after the EXTENDs already offered: notes/assumptions/22.md. -/
def extendOfRecords (s : State) (recordsA recordsB : List (Sample × Bool)) (h : Sample)
    (fin : Bool) : Except Reject Instr :=
  let u := s.withOfferedExtends
  match recordSamples u.traceA.lastLevel recordsA, recordSamples u.traceB.lastLevel recordsB with
  | some uA, some uB => .ok (.extend uA uB h fin)
  | _, _ => .error .badTrace

end Sys2Proof.Machine
end

