-- ==== Sys2Proof/Machine/Dispatch.lean ====
section
/-! DEFINITION. One arm per operation. -/

namespace Sys2Proof.Machine

def exec (i : Instr) (s : State) : Host.Outcome State Fault Refusal :=
  match i with
  | .level c => Sys2Proof.Machine.execLevel c s
  | .pos c => Sys2Proof.Machine.execPos c s
  | .peek c => Sys2Proof.Machine.execPeek c s
  | .next c => Sys2Proof.Machine.execNext c s
  | .adv c x => Sys2Proof.Machine.execAdv c x s
  | .wcross c x => Sys2Proof.Machine.execWcross c x s
  | .align => Sys2Proof.Machine.execAlign s
  | .start => Sys2Proof.Machine.execStart s
  | .bit k => Sys2Proof.Machine.execBit k s
  | .classify => Sys2Proof.Machine.execClassify s
  | .assemble => Sys2Proof.Machine.execAssemble s
  | .reset mode pA pB => Sys2Proof.Machine.execReset mode pA pB s
  | .extend uA uB h fin => Sys2Proof.Machine.execExtend uA uB h fin s
  | .cancel => Sys2Proof.Machine.execCancel s

end Sys2Proof.Machine
end

