-- ==== Sys2Proof/Machine/Fetch.lean ====
section
/-! DEFINITION. What the run loop finds to do at a step boundary (spec/44_host.md R181, R184): an
offered host operation if there is one, else the engine step that `phase` names. The core fetches no
instructions from any memory (spec/20_memory.md R62). A command word at the cursor units' port, from
which a cursor command runs as a step of its own, is the model's: notes/assumptions/7.md. -/

namespace Sys2Proof.Machine

/-- An offered packet, `s` being the state once it is taken: a host operation is executed, any other
input is refused by name (R198, R200, I1, I2). -/
def fetchOffered (p : Packet) (s : State) : Fetched :=
  match decode p with
  | .ok i => if i.isHost then .run i s else .reject .notHostOperation s
  | .error r => .reject r s

/-- The command word at the cursor units' port. A reserved one has reached a cursor unit and faults
(R87, R196, I1); one with a wrong operand is refused by name and dropped. -/
def fetchCommand (word : Ccw) (operand : Option Sample) (s : State) : Fetched :=
  match decodeCcw word operand with
  | .ok i => .issue i s
  | .error .illegalCommand => .fault .illegalCommand
  | .error r => .reject r { s with command := none }

/-- With nothing offered: no step in HALTED; ILLEGAL_PHASE where `phase` holds no engine code; else
the engine step that `phase` names (R181). DESIGN CHOICE: a command word at the port comes before that
engine step, and none is looked at in HALTED: notes/assumptions/7.md. -/
def fetchEngine (s : State) : Fetched :=
  if s.phase = eocHalted then .halted
  else
    match decodePhase s.phase s.k with
    | none => .fault .illegalPhase
    | some i =>
      match s.command with
      | some (word, operand) => fetchCommand word operand s
      | none => .run i s

/-- The run loop's choice at a step boundary: offered operations come first, in the order in which
they were offered (R184). -/
def fetch (s : State) : Fetched :=
  match s.inbox with
  | p :: rest => fetchOffered p { s with inbox := rest }
  | [] => fetchEngine s

/-- What becomes of the command word once its unit was tried: an answered command leaves the port; a
Blocked one stays there and is tried again at the next step, as R53 says of a step that is retried.
DESIGN CHOICE: notes/assumptions/7.md. -/
def releaseCommand (o : Host.Outcome State Fault Refusal) : Host.Outcome State Fault Refusal :=
  match o with
  | .next t => .next (if t.answer = .blocked then t else { t with command := none })
  | .fault r => .fault r
  | .refused r => .refused r

/-- The state in which a packet is what the run loop takes next: an engine code goes to `phase`, with
BIT's index in `k` (R76); a host operation is the only operation offered; a cursor command goes to the
cursor units' port, with `phase` at an engine code so that a step is taken. DESIGN CHOICE for a 6-bit
word that is no operation, HALTED's among them: it goes to `phase`, where a reserved one raises
ILLEGAL_PHASE and HALTED's takes no step (R181); as an offer it would be refused (I2). See
notes/assumptions/1.md. -/
def placePacket (s : State) (p : Packet) : State :=
  match p with
  | .ccw word operand =>
    { s with
      inbox := []
      command := some (word, operand)
      phase := if (decodePhase s.phase s.k).isSome then s.phase else eocAlign }
  | .eoc code _ =>
    match decode p with
    | .ok (.bit k) => { s with inbox := [], command := none, phase := eocBit, k := k }
    | .ok i =>
      if i.isHost then { s with inbox := [p] }
      else { s with inbox := [], command := none, phase := code }
    | .error _ => { s with inbox := [], command := none, phase := code }

end Sys2Proof.Machine
end

