-- ==== Sys2Proof/Machine/Step.lean ====
section
/-! DEFINITION. One iteration of the run loop (spec/44_host.md R181). -/

namespace Sys2Proof.Machine

/-- One iteration: the operation that is found is executed; an input that is refused is dropped and
nothing else changes but the answer (R196); in HALTED no step is taken (R181). A command from the
port is executed, and leaves the port unless it is Blocked: notes/assumptions/7.md. -/
def step (s : State) : Host.Outcome State Fault Refusal :=
  match fetch s with
  | .run i t => exec i t
  | .issue i t => releaseCommand (exec i t)
  | .reject r t => .next (t.refuse r)
  | .halted => .next s
  | .fault r => .fault r

/-- The state whose next step takes the operation of a table word: notes/assumptions/1.md. -/
def State.withFetchWord (s : State) (nbits w : Nat) : State := placePacket s (tablePacket nbits w)

end Sys2Proof.Machine
end

