-- ==== Sys2Proof/Machine/RunState.lean ====
section
/-! DEFINITION. The state of a run (spec/44_host.md R186): a function of the state, since the Blocked
status is no register but the outcome of trying the step at `phase` (spec/10_state.md R35). -/

namespace Sys2Proof.Machine

/-- The step tried on its own, without the operations offered at the boundary: the engine step at
`phase`, or the command at the cursor units' port where there is one (notes/assumptions/7.md). -/
def engineStep (s : State) : Host.Outcome State Fault Refusal := step { s with inbox := [] }

/-- Whether the step at `phase` is Blocked (R35). -/
def State.isBlocked (s : State) : Bool :=
  decide (s.phase ≠ eocHalted) &&
    match engineStep s with
    | .next t => decide (t.answer = .blocked)
    | .fault _ => false
    | .refused _ => false

/-- R186. No arm of `exec` refuses, so the last line is never reached. -/
def State.runState (s : State) : RunState :=
  if s.phase = eocHalted then .halted
  else if s.isBlocked then (if s.final then .endOfData else .waiting)
  else
    match engineStep s with
    | .next _ => .running
    | .fault r => .faulted r
    | .refused _ => .halted

end Sys2Proof.Machine
end

