-- ==== Sys2Proof/Safety.lean ====
section
/-! DEFINITION. What counts as a safe run, in the terms the statements use: the well-formed trace and
the cursor invariant, the packet state's invariant, the engine's invariants, the order of the log,
and the renumbering of samples. -/

namespace Sys2Proof.Machine

/-! ## The capture -/

/-- A well-formed trace: transitions strictly increasing and below the horizon (R51). The analogue of
a memory's canonical form; only EXTEND changes a trace. -/
abbrev Trace.Wf (t : Trace) (h : Sample) : Prop :=
  strictlyIncreasing t.trans = true ∧ allBelow h t.trans = true

/-- Both traces are well formed. -/
abbrev State.TracesWf (s : State) : Prop := s.traceA.Wf s.horizon ∧ s.traceB.Wf s.horizon

/-- The cursor invariant (R23), and the position is captured, as RESET requires (R210). -/
abbrev State.CursorOk (s : State) (c : Ch) : Prop :=
  (s.cur c).idx.toNat = countUpTo (s.trace c).trans (s.cur c).pos ∧ (s.cur c).pos < s.horizon

/-- The capture and both cursors are sound (R23, R51). -/
abbrev State.CaptureInv (s : State) : Prop := s.TracesWf ∧ s.CursorOk .a ∧ s.CursorOk .b

/-! ## The packet state -/

/-- The packet state of a packet with header byte `h`, some of whose bytes are assembled (R33, R163,
R164, R166, R171). -/
abbrev PacketState.InPacket (ps : PacketState) (h : Byte) : Prop :=
  ps.bytesTotal = some (BitVec.ofNat 32 (4 * h.toNat + 5)) ∧
  ps.bytesRem = some (BitVec.ofNat 32 (4 * h.toNat + 5 - ps.byteCount.toNat)) ∧
  ps.wordsTotal = some (BitVec.ofNat 32 (h.toNat + 1)) ∧
  ps.wordsRem = some (BitVec.ofNat 32 (h.toNat + 1 - ps.byteCount.toNat / 4)) ∧
  ps.wordStart.isSome = true

/-- The packet state is `PS_INIT`, or one or more bytes of one packet are assembled (R31 to R33). -/
def PacketState.Consistent (ps : PacketState) : Prop :=
  ps = PacketState.init ∨ (ps.byteCount ≠ 0 ∧ ∃ h : Byte, ps.InPacket h)

/-! ## The engine -/

/-- `phase` holds an engine code or HALTED (R29). -/
abbrev State.PhaseLegal (s : State) : Prop :=
  s.phase = eocAlign ∨ s.phase = eocStart ∨ s.phase = eocBit ∨ s.phase = eocClassify ∨
    s.phase = eocAssemble ∨ s.phase = eocHalted

/-- The engine's invariants: R38 (a) and (b), and A is low where CLASSIFY is entered (R146). -/
abbrev State.EngineInv (s : State) : Prop :=
  s.PhaseLegal ∧
  (s.phase = eocStart ∨ s.phase = eocBit ∨ s.phase = eocClassify ∨ s.phase = eocAssemble →
    s.curA.pos = s.curB.pos) ∧
  (s.phase = eocStart → s.level .a = true ∧ s.level .b = true) ∧
  (s.phase = eocClassify → s.level .a = false)

/-- Nothing but the engine commands the cursors: no command word stands at the cursor units' port
(R200, R203; notes/assumptions/7.md). -/
abbrev State.OnlyEngineMovesCursors (s : State) : Prop := s.command = none

/-- The invariant of a run from RESET under well-formed traces (R38). -/
def State.Inv (s : State) : Prop :=
  s.CaptureInv ∧ s.ps.Consistent ∧ s.EngineInv ∧ s.OnlyEngineMovesCursors

/-- The bits gathered so far fit the bit index: at `BIT k`, `shift` holds `k` bits (R26). -/
abbrev State.ShiftInv (s : State) : Prop :=
  eocMajor s.phase = eocMajor eocBit → s.shift.toNat < 2 ^ s.k.toNat

/-! ## The log -/

/-- The samples of the markers of a log, in order. -/
def markerSamples (out : List Event) : List Sample :=
  out.filterMap fun
    | .marker _ _ x => some x
    | .unit _ _ _ _ _ _ => none

/-- The first samples of the units of a log, in order. -/
def unitFirsts (out : List Event) : List Sample :=
  out.filterMap fun
    | .marker _ _ _ => none
    | .unit _ _ _ _ x _ => some x

/-- The last samples of the units of a log, in order. -/
def unitLasts (out : List Event) : List Sample :=
  out.filterMap fun
    | .marker _ _ _ => none
    | .unit _ _ _ _ _ x => some x

/-- The units of a log, in order. -/
def unitEvents (out : List Event) : List Event :=
  out.filter fun
    | .marker _ _ _ => false
    | .unit _ _ _ _ _ _ => true

/-- The markers of a log, in order. -/
def markerEvents (out : List Event) : List Event :=
  out.filter fun
    | .marker _ _ _ => true
    | .unit _ _ _ _ _ _ => false

/-- Every sample of a list is at or before `x`. -/
abbrev NoneAfter (x : Sample) (l : List Sample) : Prop := ∀ y ∈ l, y ≤ x

/-- The log is in sample order (R61). -/
abbrev LogSorted (out : List Event) : Prop :=
  (markerSamples out).Pairwise (· ≤ ·) ∧ (unitFirsts out).Pairwise (· ≤ ·) ∧
    (unitLasts out).Pairwise (· ≤ ·)

/-- The log is in sample order and nothing in it lies beyond the samples that the next events take:
the cursors, the current byte's bounds and the current word's start. -/
def State.LogInv (s : State) : Prop :=
  LogSorted s.out ∧
  (∀ c, NoneAfter (s.position c) (markerSamples s.out ++ unitFirsts s.out ++ unitLasts s.out)) ∧
  ((eocMajor s.phase = eocMajor eocBit ∧ s.k ≠ 0) ∨ s.phase = eocAssemble →
    NoneAfter s.byteStart (unitFirsts s.out) ∧ ∀ c, s.byteStart ≤ s.position c) ∧
  (s.phase = eocAssemble →
    NoneAfter s.byteEnd (unitLasts s.out) ∧ ∀ c, s.byteEnd ≤ s.position c) ∧
  (s.modeReg ≠ .byte → s.ps.byteCount.toNat % 4 ≠ 0 → ∀ ws, s.ps.wordStart = some ws →
    NoneAfter ws (unitFirsts s.out) ∧ ∀ c, ws ≤ s.position c)

/-! ## Names for the statements -/

/-- The channel of a cursor command. -/
def cursorChannel : Instr → Option Ch
  | .level c => some c
  | .pos c => some c
  | .peek c => some c
  | .next c => some c
  | .adv c _ => some c
  | .wcross c _ => some c
  | .align | .start | .bit _ | .classify | .assemble => none
  | .reset _ _ _ | .extend _ _ _ _ | .cancel => none

/-- The first transition of a line after a sample, where it is captured (R102). -/
def Trace.nextAfter (t : Trace) (x : Sample) : Option Sample := t.trans.find? fun y => decide (x < y)

/-- How many transitions both cursors have passed (R220). -/
def State.passed (s : State) : Nat := s.curA.idx.toNat + s.curB.idx.toNat

/-- How many captured transitions lie ahead of the cursors (R220). -/
def State.remaining (s : State) : Nat :=
  (s.traceA.trans.length - s.curA.idx.toNat) + (s.traceB.trans.length - s.curB.idx.toNat)

/-! ## Renumbering samples (R218) -/

/-- A cursor under a renumbering. -/
def Cursor.renumber (f : Sample → Sample) (v : Cursor) : Cursor := ⟨f v.pos, v.idx⟩

/-- A trace under a renumbering. -/
def Trace.renumber (f : Sample → Sample) (t : Trace) : Trace := ⟨t.init, t.trans.map f⟩

/-- An event under a renumbering. -/
def renumberEvent (f : Sample → Sample) : Event → Event
  | .marker kind c x => .marker kind c (f x)
  | .unit g v cls r x y => .unit g v cls r (f x) (f y)

/-- An answer under a renumbering. -/
def Answer.renumber (f : Sample → Sample) : Answer → Answer
  | .sample x => .sample (f x)
  | .done => .done
  | .bit b => .bit b
  | .count n => .count n
  | .blocked => .blocked
  | .refused r => .refused r

/-- A state under a renumbering of its samples; the offered operations and the command word are left
as they are. -/
def State.renumber (f : Sample → Sample) (s : State) : State :=
  { s with
    curA := s.curA.renumber f
    curB := s.curB.renumber f
    byteStart := f s.byteStart
    byteEnd := f s.byteEnd
    ps := { s.ps with wordStart := s.ps.wordStart.map f }
    out := s.out.map (renumberEvent f)
    traceA := s.traceA.renumber f
    traceB := s.traceB.renumber f
    horizon := f s.horizon
    answer := s.answer.renumber f }

/-- An outcome under a renumbering. -/
def renumberOutcome (f : Sample → Sample) :
    Host.Outcome State Fault Refusal → Host.Outcome State Fault Refusal
  | .next t => .next (t.renumber f)
  | .fault r => .fault r
  | .refused r => .refused r

end Sys2Proof.Machine
end

