-- ==== Sys2Proof/Certificates/Slice0/Obligations.lean ====
section
/-! DEFINITION. The statements for the provers. A statement about a meaning holds for every state,
reached or not; where it could fail in a state no run reaches, the invariant that rules such states
out is a premise, and is itself stated to be kept by every step. A response (R74), the outcome Blocked
(R12, R53) and a refusal by name (R196) are read in the field `answer`, which is the model's own
(notes/assumptions/2.md, 3.md, 4.md). -/

open Sys2Proof Sys2Proof.Machine

/-! ## Encoding -/

/-- R70 to R76, R88: decode and encode agree. Every operation, with every operand, is read back from
its packet, and it has one spelling: a command word and its operand are the ones the encoder writes;
an operation code is, and the ports that the operation samples are read in full. -/
def Obligations.DecodeAndEncodeAgree : Prop :=
  (∀ i : Instr, decode (encode i) = .ok i) ∧
  (∀ (w : Ccw) (o : Option Sample) (i : Instr), decode (.ccw w o) = .ok i → encode i = .ccw w o) ∧
  (∀ (e : Eoc) (p : Ports) (i : Instr), decode (.eoc e p) = .ok i →
    ∃ q, encode i = .eoc e q ∧
      (e = eocReset → q.mode = p.mode ∧ q.startA = p.startA ∧ q.startB = p.startB) ∧
      (e = eocExtend → q.newA = p.newA ∧ q.newB = p.newB ∧
        q.horizon = p.horizon ∧ q.final = p.final))

/-- R75, R87, R88: exactly the reserved words are rejected, each under its name. -/
def Obligations.ReservedWordsRejected : Prop :=
  (∀ (w : Ccw) (o : Option Sample),
    decode (.ccw w o) = .error .illegalCommand ↔ 6 ≤ (w.extractLsb' 0 3).toNat) ∧
  (∀ (e : Eoc) (p : Ports), decode (.eoc e p) = .error .illegalOperation ↔
    ¬ (e = 0b000000 ∨ e = 0b001000 ∨ e.extractLsb' 3 3 = 0b010 ∨ e = 0b011000 ∨ e = 0b100000 ∨
      e = 0b101000 ∨ e = 0b101001 ∨ e = 0b101010))

/-- R71 to R76: words written out from the tables decode to the operations they stand for. -/
def Obligations.WrittenWordsDecode : Prop :=
  decode (.ccw 0b0000 none) = .ok (.level .a) ∧
  decode (.ccw 0b1011 none) = .ok (.next .b) ∧
  decode (.ccw 0b0100 (some 15)) = .ok (.adv .a 15) ∧
  decode (.ccw 0b1101 (some 23)) = .ok (.wcross .b 23) ∧
  decode (.eoc 0b010101 Ports.idle) = .ok (.bit 5) ∧
  decode (.eoc 0b100000 Ports.idle) = .ok .assemble ∧
  decode (.eoc 0b101000 { Ports.idle with mode := 0b11, startA := 7, startB := 9 }) =
    .ok (.reset .wordBytesDescending 7 9) ∧
  decode (.eoc 0b101010 Ports.idle) = .ok .cancel

/-- R78 to R83: the code values are those of the tables, and the reserved codes are refused. -/
def Obligations.CodeTablesAgree : Prop :=
  (ClassResult.normal.code = 0b00 ∧ ClassResult.endOfPacket.code = 0b01 ∧
    ClassResult.error.code = 0b11) ∧
  (Cls.frameHeader.code = 0 ∧ Cls.payload.code = 1 ∧ Cls.crc.code = 2) ∧
  (Mode.byte.code = 0 ∧ Mode.word.code = 1 ∧ Mode.wordBytesAscending.code = 2 ∧
    Mode.wordBytesDescending.code = 3) ∧
  (MarkerKind.start.code = 0 ∧ MarkerKind.stop.code = 1 ∧ MarkerKind.bit.code = 2 ∧
    Ch.a.code = 0 ∧ Ch.b.code = 1) ∧
  (ErrCode.none.code = 0b000 ∧ ErrCode.startEarly.code = 0b001 ∧ ErrCode.startShort.code = 0b010 ∧
    ErrCode.startLong.code = 0b011 ∧ ErrCode.startTrail.code = 0b100 ∧
    ErrCode.bitTiming.code = 0b101 ∧ ErrCode.endTooMany.code = 0b110 ∧
    ErrCode.endAmbig.code = 0b111) ∧
  (Gran.byte.code = 0 ∧ Gran.word.code = 1) ∧
  (∀ m : Mode, modeOfCode m.code = m) ∧ (∀ b : BitVec 2, (modeOfCode b).code = b) ∧
  (∀ r : ClassResult, classResultOfCode r.code = some r) ∧ classResultOfCode 0b10 = none ∧
  (∀ c : Cls, clsOfCode c.code = some c) ∧ clsOfCode 3 = none ∧
  (∀ k : MarkerKind, markerKindOfCode k.code = some k) ∧ markerKindOfCode 3 = none ∧
  (∀ c : Ch, chOfCode c.code = c)

/-! ## The run loop -/

/-- R75, R76, R181, R184: at a step boundary the step runs the decoded operation. An offered host
operation is taken from the inbox and executed. With none offered, `phase` names the engine step that
is executed in place, each operation by its own code, BIT with its index from register `k`. A command
word at the cursor units' port, which is the model's own (notes/assumptions/7.md), is executed where
it stands: it leaves the port when it is answered and stays there while it is Blocked. -/
def Obligations.StepRunsDecodedOperation : Prop :=
  (∀ (s : State) (p : Packet) (rest : List Packet) (i : Instr),
    s.inbox = p :: rest → decode p = .ok i → i.isHost = true →
    step s = exec i { s with inbox := rest }) ∧
  (∀ s : State, s.inbox = [] → s.command = none →
    (s.phase = 0b000000 → step s = exec .align s) ∧
    (s.phase = 0b001000 → step s = exec .start s) ∧
    (s.phase = 0b010000 → step s = exec (.bit s.k) s) ∧
    (s.phase = 0b011000 → step s = exec .classify s) ∧
    (s.phase = 0b100000 → step s = exec .assemble s) ∧
    (∀ i, s.phase ≠ eocHalted → decodePhase s.phase s.k = some i → step s = exec i s)) ∧
  (∀ (s : State) (w : Ccw) (o : Option Sample) (i : Instr),
    s.inbox = [] → (decodePhase s.phase s.k).isSome = true → s.command = some (w, o) →
    decode (.ccw w o) = .ok i →
    (∀ t, exec i s = .next t → t.answer ≠ .blocked → step s = .next { t with command := none }) ∧
    (∀ t, exec i s = .next t → t.answer = .blocked → step s = .next t) ∧
    (∀ r, exec i s = .fault r → step s = .fault r))

/-- R196, R198, R200, I1, I2, and the model's way of going on after a refused input
(notes/assumptions/4.md): an input that does not decode, or that is no host operation, is dropped under
its name and the core stays as it was. A reserved command word at the cursor units' port faults; one
with a wrong operand is refused there (notes/assumptions/7.md, 9.md, 13.md). -/
def Obligations.BadInputsLeaveTheCore : Prop :=
  (∀ (s : State) (p : Packet) (rest : List Packet), s.inbox = p :: rest →
    (∀ i, decode p = .ok i → i.isHost = false →
      step s = .next { s with inbox := rest, answer := .refused .notHostOperation }) ∧
    (∀ r, decode p = .error r →
      step s = .next { s with inbox := rest, answer := .refused r })) ∧
  (∀ (s : State) (w : Ccw) (o : Option Sample),
    s.inbox = [] → (decodePhase s.phase s.k).isSome = true → s.command = some (w, o) →
    (decode (.ccw w o) = .error .illegalCommand → step s = .fault .illegalCommand) ∧
    (∀ r, decode (.ccw w o) = .error r → r ≠ .illegalCommand →
      step s = .next { s with command := none, answer := .refused r }))

/-- R181, R183: in HALTED, with nothing offered, no step is taken, whatever stands at the cursor units'
port. -/
def Obligations.HaltedTakesNoStep : Prop :=
  ∀ s : State, s.inbox = [] → s.phase = eocHalted → step s = .next s

/-- R181, R196: ILLEGAL_PHASE is raised exactly when `phase` is neither an engine code nor HALTED. -/
def Obligations.IllegalPhaseFaults : Prop :=
  ∀ s : State, s.inbox = [] →
    (step s = .fault .illegalPhase ↔
      ¬ (s.phase = eocAlign ∨ s.phase = eocStart ∨ s.phase.extractLsb' 3 3 = 0b010 ∨
        s.phase = eocClassify ∨ s.phase = eocAssemble ∨ s.phase = eocHalted))

/-- R53: a step that is Blocked has no effect, whatever the operation; only the answer says so. So it
is with the run loop's step: a Blocked engine step, or a Blocked cursor command, is found again by the
next step (that the command stays at its port is the model's choice, notes/assumptions/7.md). -/
def Obligations.BlockedStepHasNoEffect : Prop :=
  (∀ (i : Instr) (s t : State), exec i s = .next t → t.answer = .blocked →
    t = { s with answer := .blocked }) ∧
  (∀ s t : State, s.inbox = [] → step s = .next t → t.answer = .blocked →
    t = { s with answer := .blocked })

/-- R186: at end-of-data the engine step has no effect and no EXTEND can follow, so the run is stuck
there. -/
def Obligations.EndOfDataIsStuck : Prop :=
  ∀ s : State, s.inbox = [] → s.runState = .endOfData →
    step s = .next { s with answer := .blocked } ∧
    ∀ uA uB h fin, exec (.extend uA uB h fin) s = .next { s with answer := .refused .badExtend }

/-! ## Cursor commands -/

/-- R100, R22: LEVEL. It answers `init_c xor (idx mod 2)`, writes nothing and never blocks; the level
includes a transition exactly at the position. -/
def Obligations.LevelReadsTheLine : Prop :=
  ∀ (c : Ch) (s : State),
    encode (.level c) = .ccw (c.code ++ 0b000#3) none ∧
    exec (.level c) s = .next { s with
      answer := .bit ((s.trace c).init ^^ decide ((s.cur c).idx.toNat % 2 = 1)) } ∧
    (s.CursorOk c → s.level c = (s.trace c).levelAt (s.cur c).pos)

/-- R101: POS. -/
def Obligations.PosReadsTheSample : Prop :=
  ∀ (c : Ch) (s : State),
    encode (.pos c) = .ccw (c.code ++ 0b001#3) none ∧
    exec (.pos c) s = .next { s with answer := .sample (s.cur c).pos }

/-- R102: PEEK answers the next transition and moves nothing; it blocks where none is captured; the
result lies after the position; with FINAL the block is permanent. -/
def Obligations.PeekReadsTheNextTransition : Prop :=
  ∀ (c : Ch) (s : State),
    encode (.peek c) = .ccw (c.code ++ 0b010#3) none ∧
    (∀ t, (s.trace c).trans[(s.cur c).idx.toNat]? = some t →
      exec (.peek c) s = .next { s with answer := .sample t } ∧
      (s.CaptureInv → (s.cur c).pos < t)) ∧
    ((s.trace c).trans[(s.cur c).idx.toNat]? = none →
      exec (.peek c) s = .next { s with answer := .blocked } ∧
      (s.final = true → ∀ uA uB h fin,
        exec (.extend uA uB h fin) s = .next { s with answer := .refused .badExtend }))

/-- R103: NEXT moves to the next transition and crosses exactly that one, so the level flips and is
the transition's new level; it blocks as PEEK does. -/
def Obligations.NextCrossesOneTransition : Prop :=
  ∀ (c : Ch) (s : State),
    encode (.next c) = .ccw (c.code ++ 0b011#3) none ∧
    (∀ t, (s.trace c).trans[(s.cur c).idx.toNat]? = some t →
      let u := s.setCur c ⟨t, (s.cur c).idx + 1⟩
      exec (.next c) s = .next { u with answer := .done } ∧
      u.level c = !s.level c ∧ (s.CaptureInv → u.level c = (s.trace c).levelAt t)) ∧
    ((s.trace c).trans[(s.cur c).idx.toNat]? = none →
      exec (.next c) s = .next { s with answer := .blocked })

/-- R104, R105: ADV. A backward target faults, before the horizon is looked at; an uncaptured one
blocks; any other moves the cursor, crosses the transitions in `(pos, s]` and answers their count,
saturating. The level becomes that of the target, and a target at the position crosses nothing. -/
def Obligations.AdvMovesForward : Prop :=
  ∀ (c : Ch) (x : Sample) (s : State),
    encode (.adv c x) = .ccw (c.code ++ 0b100#3) (some x) ∧
    (x < (s.cur c).pos → exec (.adv c x) s = .fault .cursorBackward) ∧
    ((s.cur c).pos ≤ x → s.horizon ≤ x →
      exec (.adv c x) s = .next { s with answer := .blocked }) ∧
    ((s.cur c).pos ≤ x → x < s.horizon →
      let cnt := (((s.trace c).trans.drop (s.cur c).idx.toNat).filter (· ≤ x)).length
      let u := s.setCur c ⟨x, (s.cur c).idx + BitVec.ofNat 64 cnt⟩
      exec (.adv c x) s =
        .next { u with answer := .count (BitVec.ofNat 32 (min cnt (2 ^ 32 - 1))) } ∧
      (s.CaptureInv → u.level c = (s.trace c).levelAt x ∧ (x = (s.cur c).pos → cnt = 0)))

/-- R106: WCROSS moves nothing. It answers 1 when a captured transition lies in `(pos, s]`, else 0
when `s` is captured, and blocks otherwise; at or before the position it answers 0. -/
def Obligations.WcrossTestsWithoutMoving : Prop :=
  ∀ (c : Ch) (x : Sample) (s : State),
    encode (.wcross c x) = .ccw (c.code ++ 0b101#3) (some x) ∧
    ((∃ t, (s.trace c).trans[(s.cur c).idx.toNat]? = some t ∧ t ≤ x) →
      exec (.wcross c x) s = .next { s with answer := .bit true }) ∧
    ((∀ t, (s.trace c).trans[(s.cur c).idx.toNat]? = some t → x < t) → x < s.horizon →
      exec (.wcross c x) s = .next { s with answer := .bit false }) ∧
    ((∀ t, (s.trace c).trans[(s.cur c).idx.toNat]? = some t → x < t) → s.horizon ≤ x →
      exec (.wcross c x) s = .next { s with answer := .blocked }) ∧
    (s.CaptureInv → x ≤ (s.cur c).pos →
      exec (.wcross c x) s = .next { s with answer := .bit false })

/-- R107: a command to one cursor changes nothing but that cursor (and the answer): not the other
cursor, no register of the engine, no event, no trace. -/
def Obligations.CursorCommandFrame : Prop :=
  ∀ (i : Instr) (c : Ch) (s t : State), cursorChannel i = some c → exec i s = .next t →
    t = { s.setCur c (t.cur c) with answer := t.answer } ∧ t.cur (other c) = s.cur (other c)

/-- R108 (b), (c): WCROSS answers 1 exactly where ADV would count at least one crossing; two ADVs
compose. -/
def Obligations.CursorLaws : Prop :=
  (∀ (c : Ch) (x : Sample) (s : State), s.CaptureInv → (s.cur c).pos ≤ x → x < s.horizon →
    (exec (.wcross c x) s = .next { s with answer := .bit true } ↔
      ∃ n u, exec (.adv c x) s = .next u ∧ u.answer = .count n ∧ 1 ≤ n)) ∧
  (∀ (c : Ch) (x y : Sample) (s : State), s.CaptureInv →
    (s.cur c).pos ≤ x → x ≤ y → y < s.horizon →
    ∃ u v w, exec (.adv c x) s = .next u ∧ exec (.adv c y) u = .next v ∧
      exec (.adv c y) s = .next w ∧ v.cur c = w.cur c ∧
      s.crossings c x + u.crossings c y = s.crossings c y)

/-! ## ALIGN and START -/

/-- R120, R121: where both lines are high at the ahead cursor's sample, ALIGN brings both cursors
there and hands over to START; nothing else changes. -/
def Obligations.AlignHandsOverAtNeutral : Prop :=
  ∀ (s : State) (m : Sample), s.CaptureInv →
    m = (if s.curA.pos < s.curB.pos then s.curB.pos else s.curA.pos) →
    s.traceA.levelAt m = true → s.traceB.levelAt m = true →
    exec .align s = .next { s with
      curA := cursorAt s.traceA m
      curB := cursorAt s.traceB m
      phase := eocStart
      answer := .done }

/-- R120: one whole iteration of ALIGN. Both cursors come to the ahead cursor's sample `m`. If A is
low there, both go on to A's next transition: that sample, or `m`, is `x`. Only then is B looked at: if
B is low at `x`, both go on to B's next transition: that sample, or `x`, is `y`. Both cursors end at
`y`, and START is handed over to exactly where both lines are high at `y`. -/
def Obligations.AlignWaitsForTheLowLine : Prop :=
  ∀ (s : State) (m x y : Sample), s.CaptureInv →
    m = (if s.curA.pos < s.curB.pos then s.curB.pos else s.curA.pos) →
    (if s.traceA.levelAt m = false then s.traceA.nextAfter m = some x else x = m) →
    (if s.traceB.levelAt x = false then s.traceB.nextAfter x = some y else y = x) →
    exec .align s = .next { s with
      curA := cursorAt s.traceA y
      curB := cursorAt s.traceB y
      phase := if s.traceA.levelAt y = true ∧ s.traceB.levelAt y = true then eocStart else eocAlign
      answer := .done }

/-- R120, R121: an ALIGN that is not Blocked leaves the positions equal, writes START exactly when
both cursors report high and ALIGN otherwise, and changes nothing else. It is Blocked exactly when A
is low at the ahead cursor's sample `m` with no transition captured after it, or B is low at the sample
`x` which A's branch leaves both cursors at, with none captured after that. -/
def Obligations.AlignOutcome : Prop :=
  (∀ s t : State, exec .align s = .next t → t.answer ≠ .blocked →
    t.curA.pos = t.curB.pos ∧
    t.phase = (if t.level .a = true ∧ t.level .b = true then eocStart else eocAlign) ∧
    t = { s with curA := t.curA, curB := t.curB, phase := t.phase, answer := .done }) ∧
  (∀ (s : State) (m : Sample), s.CaptureInv →
    m = (if s.curA.pos < s.curB.pos then s.curB.pos else s.curA.pos) →
    (exec .align s = .next { s with answer := .blocked } ↔
      (s.traceA.levelAt m = false ∧ s.traceA.nextAfter m = none) ∨
      (∃ x, (if s.traceA.levelAt m = false then s.traceA.nextAfter m = some x else x = m) ∧
        s.traceB.levelAt x = false ∧ s.traceB.nextAfter x = none)))

/-- R122, R220: an ALIGN that writes ALIGN has passed at least one transition. -/
def Obligations.AlignThatStaysConsumes : Prop :=
  ∀ s t : State, s.CaptureInv → exec .align s = .next t → t.answer ≠ .blocked →
    t.phase = eocAlign → s.passed < t.passed

/-- R132, R124 to R130: START, entered with both lines high at one sample, with A's next two
transitions captured. It validates, with its whole end state, on the pattern of R132; and each check,
in the order of R194, fails as soon as the B transitions up to it are captured, with the cursors where
the attempt left them: A at its fall, or its rise for START_TRAIL; B unmoved for START_EARLY, and else
at its last toggle that was taken. -/
def Obligations.StartCharacterized : Prop :=
  ∀ (s : State) (a1 a2 : Sample), s.CaptureInv → s.curA.pos = s.curB.pos →
    s.level .a = true → s.level .b = true →
    s.traceA.trans[s.curA.idx.toNat]? = some a1 →
    s.traceA.trans[s.curA.idx.toNat + 1]? = some a2 →
    (∀ b1 b4 b5,
      s.traceB.trans[s.curB.idx.toNat]? = some b1 →
      s.traceB.trans[s.curB.idx.toNat + 3]? = some b4 →
      s.traceB.trans[s.curB.idx.toNat + 4]? = some b5 →
      (a1 ≤ b1 → b4 < a2 → a2 < b5 →
        (∀ a3, s.traceA.trans[s.curA.idx.toNat + 2]? = some a3 → b5 < a3) →
        exec .start s = .next { s with
          curA := ⟨b5, s.curA.idx + 2⟩
          curB := ⟨b5, s.curB.idx + 5⟩
          out := s.out ++ [.marker .start .a a1, .marker .start .b a1]
          ps := PacketState.init
          k := 0
          shift := 0
          phase := eocBit
          answer := .done }) ∧
      (a1 ≤ b1 → b4 < a2 → b5 ≤ a2 → exec .start s = .next { s with
        curA := ⟨a1, s.curA.idx + 1⟩, curB := ⟨b4, s.curB.idx + 4⟩, lastErr := .startLong,
        phase := eocAlign, answer := .done }) ∧
      (∀ a3, a1 ≤ b1 → b4 < a2 → a2 < b5 →
        s.traceA.trans[s.curA.idx.toNat + 2]? = some a3 → a3 ≤ b5 → exec .start s = .next { s with
        curA := ⟨a2, s.curA.idx + 2⟩, curB := ⟨b5, s.curB.idx + 5⟩, lastErr := .startTrail,
        phase := eocAlign, answer := .done })) ∧
    (∀ b1, s.traceB.trans[s.curB.idx.toNat]? = some b1 → b1 < a1 → exec .start s = .next { s with
      curA := ⟨a1, s.curA.idx + 1⟩, lastErr := .startEarly, phase := eocAlign, answer := .done }) ∧
    (∀ b1, s.traceB.trans[s.curB.idx.toNat]? = some b1 → a2 ≤ b1 → exec .start s = .next { s with
      curA := ⟨a1, s.curA.idx + 1⟩, lastErr := .startShort, phase := eocAlign, answer := .done }) ∧
    (∀ (j : Nat) (b1 c b : Sample), j < 3 →
      s.traceB.trans[s.curB.idx.toNat]? = some b1 →
      s.traceB.trans[s.curB.idx.toNat + j]? = some c →
      s.traceB.trans[s.curB.idx.toNat + (j + 1)]? = some b → a1 ≤ b1 → c < a2 → a2 ≤ b →
      exec .start s = .next { s with
        curA := ⟨a1, s.curA.idx + 1⟩
        curB := ⟨c, s.curB.idx + BitVec.ofNat 64 (j + 1)⟩
        lastErr := .startShort
        phase := eocAlign
        answer := .done })

/-- R123, R129, R130, R193: all that START can do, and its frame: Blocked with no effect; a resync
with one of its four codes, nothing emitted and `ps`, `k` and `shift` as they were; or a validated
start, whose events are the two Start markers, A first, at one sample. R124, R125, R127, R194, D26: it
is Blocked exactly where A's fall or its rise is not captured, or the B transitions run out after `j`
of them, at most four, all in the window. -/
def Obligations.StartOutcomes : Prop :=
  (∀ s t : State, exec .start s = .next t →
    t = { s with answer := .blocked } ∨
    (∃ err, (err = .startEarly ∨ err = .startShort ∨ err = .startLong ∨ err = .startTrail) ∧
      t = { s with curA := t.curA, curB := t.curB, lastErr := err, phase := eocAlign,
                   answer := .done }) ∨
    (∃ x, t.curA.pos = t.curB.pos ∧
      t = { s with
        curA := t.curA
        curB := t.curB
        out := s.out ++ [.marker .start .a x, .marker .start .b x]
        ps := PacketState.init
        k := 0
        shift := 0
        phase := eocBit
        answer := .done })) ∧
  (∀ s : State, s.CaptureInv →
    (exec .start s = .next { s with answer := .blocked } ↔
      s.traceA.trans[s.curA.idx.toNat]? = none ∨ s.traceA.trans[s.curA.idx.toNat + 1]? = none ∨
      ∃ a1 a2 j, s.traceA.trans[s.curA.idx.toNat]? = some a1 ∧
        s.traceA.trans[s.curA.idx.toNat + 1]? = some a2 ∧ j ≤ 4 ∧
        s.traceB.trans[s.curB.idx.toNat + j]? = none ∧
        ∀ m, m < j → ∃ b, s.traceB.trans[s.curB.idx.toNat + m]? = some b ∧ a1 ≤ b ∧ b < a2))

/-- R38 (c): right after a validated start, A is high and B is low. -/
def Obligations.ValidStartLeavesAHighBLow : Prop :=
  ∀ s t : State, s.CaptureInv → s.level .a = true → s.level .b = true →
    exec .start s = .next t → t.phase = eocBit → t.answer = .done →
    t.level .a = true ∧ t.level .b = false

/-! ## BIT and CLASSIFY -/

/-- R140 to R145, R151: BIT k, entered with both cursors at `p`. With the clock's falling edge at
`f`, and `n` transitions of the data line in `(p, f]`: a bit is sampled for `n` at most 1, its value
the data line's level at `f`; at `k = 0`, two go to CLASSIFY and more are END_TOOMANY; at the other
indices two or more are BIT_TIMING. -/
def Obligations.BitSamplesAtTheClockEdge : Prop :=
  ∀ (s : State) (k : BitVec 3) (p f : Sample) (n : Nat), s.CaptureInv →
    s.curA.pos = p → s.curB.pos = p →
    let K : Ch := if k.toNat % 2 = 0 then .a else .b
    let D : Ch := if k.toNat % 2 = 0 then .b else .a
    (s.trace K).trans[(s.cur K).idx.toNat + (if s.level K = true then 0 else 1)]? = some f →
    n = ((s.trace D).trans.filter fun x => p < x ∧ x ≤ f).length →
    let u : State := { s with
      curA := cursorAt s.traceA f, curB := cursorAt s.traceB f, answer := .done }
    let bit := (s.trace D).levelAt f
    (n ≤ 1 → exec (.bit k) s = .next { u with
      shift := (s.shift <<< 1) ||| (if bit = true then 1 else 0)
      out := s.out ++ [.marker .bit K f]
      byteStart := if k = 0 then p else s.byteStart
      byteEnd := if k = 7 then f else s.byteEnd
      k := if k = 7 then s.k else k + 1
      phase := if k = 7 then eocAssemble else eocBit }) ∧
    (k = 0 → n = 2 → exec (.bit k) s = .next { u with phase := eocClassify }) ∧
    (k = 0 → 2 < n → exec (.bit k) s =
      .next { u with lastErr := .endTooMany, phase := eocAlign }) ∧
    (k ≠ 0 → 1 < n → exec (.bit k) s =
      .next { u with lastErr := .bitTiming, phase := eocAlign })

/-- R141, R142, R144, R193: all that BIT k can do, and its frame. R140, R194: it is Blocked exactly
where the clock's falling edge is not captured, the clock's next transition or, where the clock is low,
the one after it. -/
def Obligations.BitOutcomes : Prop :=
  (∀ (k : BitVec 3) (s t : State), exec (.bit k) s = .next t →
    t = { s with answer := .blocked } ∨
    (k = 0 ∧ t = { s with curA := t.curA, curB := t.curB, phase := eocClassify,
                          answer := .done }) ∨
    (t = { s with curA := t.curA, curB := t.curB,
                  lastErr := if k = 0 then .endTooMany else .bitTiming,
                  phase := eocAlign, answer := .done }) ∨
    (∃ (b : Bool) (ce : Sample), t = { s with
      curA := t.curA
      curB := t.curB
      shift := shiftIn s.shift b
      out := s.out ++ [.marker .bit (clockOf k) ce]
      byteStart := if k = 0 then s.curA.pos else s.byteStart
      byteEnd := if k = 7 then ce else s.byteEnd
      k := if k = 7 then s.k else k + 1
      phase := if k = 7 then eocAssemble else eocBit
      answer := .done })) ∧
  (∀ (k : BitVec 3) (s : State), s.CaptureInv →
    let K : Ch := if k.toNat % 2 = 0 then .a else .b
    (exec (.bit k) s = .next { s with answer := .blocked } ↔
      (s.trace K).trans[(s.cur K).idx.toNat + (if s.level K = true then 0 else 1)]? = none))

/-- R146 to R148: CLASSIFY, with the data line's next transition at `me` and the clock's next three
at `a1`, `a2` and `a3`. End, with both Stop markers at `me` and both cursors there, exactly when all
three come strictly before `me` and no fourth at or before it; END_AMBIG otherwise, the counted
transitions consumed and nothing emitted. -/
def Obligations.ClassifyDecidesTheEnd : Prop :=
  ∀ (s : State) (me a1 a2 a3 : Sample), s.CaptureInv → s.upcoming .b = some me →
    s.traceA.trans[s.curA.idx.toNat]? = some a1 →
    s.traceA.trans[s.curA.idx.toNat + 1]? = some a2 →
    s.traceA.trans[s.curA.idx.toNat + 2]? = some a3 →
    (a3 < me → (∀ a4, s.traceA.trans[s.curA.idx.toNat + 3]? = some a4 → me < a4) →
      exec .classify s = .next { s with
        curA := ⟨me, s.curA.idx + 3⟩
        curB := ⟨me, s.curB.idx + 1⟩
        out := s.out ++ [.marker .stop .a me, .marker .stop .b me]
        phase := eocAlign
        answer := .done }) ∧
    (a3 < me → (∃ a4, s.traceA.trans[s.curA.idx.toNat + 3]? = some a4 ∧ a4 ≤ me) →
      exec .classify s = .next { s with
        curA := ⟨a3, s.curA.idx + 3⟩, lastErr := .endAmbig, phase := eocAlign,
        answer := .done }) ∧
    (me ≤ a3 → a2 < me → exec .classify s = .next { s with
      curA := ⟨a2, s.curA.idx + 2⟩, lastErr := .endAmbig, phase := eocAlign, answer := .done }) ∧
    (me ≤ a2 → a1 < me → exec .classify s = .next { s with
      curA := ⟨a1, s.curA.idx + 1⟩, lastErr := .endAmbig, phase := eocAlign, answer := .done }) ∧
    (me ≤ a1 → exec .classify s = .next { s with
      lastErr := .endAmbig, phase := eocAlign, answer := .done })

/-- R147, R148, R193: all that CLASSIFY can do, and its frame. R146, R194: it is Blocked exactly where
the data line has no next transition captured, or it has one at `me` and the clock's transitions run
out after `j` of them, fewer than three, all before `me`. -/
def Obligations.ClassifyOutcomes : Prop :=
  (∀ s t : State, exec .classify s = .next t →
    t = { s with answer := .blocked } ∨
    (t = { s with curA := t.curA, lastErr := .endAmbig, phase := eocAlign, answer := .done }) ∨
    (∃ me, t.curA.pos = me ∧ t.curB.pos = me ∧ t = { s with
      curA := t.curA
      curB := t.curB
      out := s.out ++ [.marker .stop .a me, .marker .stop .b me]
      phase := eocAlign
      answer := .done })) ∧
  (∀ s : State, s.CaptureInv →
    (exec .classify s = .next { s with answer := .blocked } ↔
      s.traceB.trans[s.curB.idx.toNat]? = none ∨
      ∃ me j, s.traceB.trans[s.curB.idx.toNat]? = some me ∧ j < 3 ∧
        s.traceA.trans[s.curA.idx.toNat + j]? = none ∧
        ∀ m, m < j → ∃ a, s.traceA.trans[s.curA.idx.toNat + m]? = some a ∧ a < me))

/-- R150: from a BIT 0 entered with both cursors at one sample, with the clock's falling edge at `f`,
the steps BIT 0 and CLASSIFY find the end of the packet, with both cursors and both Stop markers at
the data line's third transition, exactly when its second comes at or before `f` and its third after,
the clock's next three all before it, and the clock's fourth, if captured, after it. -/
def Obligations.EndPatternCharacterized : Prop :=
  ∀ (s : State) (j : Nat) (f c1 c2 c3 b1 b2 b3 : Sample), s.CaptureInv →
    s.curA.pos = s.curB.pos →
    j = s.curA.idx.toNat + (if s.level .a = true then 0 else 1) →
    s.traceA.trans[j]? = some f →
    s.traceA.trans[j + 1]? = some c1 → s.traceA.trans[j + 2]? = some c2 →
    s.traceA.trans[j + 3]? = some c3 →
    s.traceB.trans[s.curB.idx.toNat]? = some b1 →
    s.traceB.trans[s.curB.idx.toNat + 1]? = some b2 →
    s.traceB.trans[s.curB.idx.toNat + 2]? = some b3 →
    ((b2 ≤ f ∧ f < b3 ∧ c3 < b3 ∧ (∀ c4, s.traceA.trans[j + 4]? = some c4 → b3 < c4)) ↔
      ∃ u t, exec (.bit 0) s = .next u ∧ u.phase = eocClassify ∧ exec .classify u = .next t ∧
        t.phase = eocAlign ∧ t.curA.pos = b3 ∧ t.curB.pos = b3 ∧
        t.out = s.out ++ [.marker .stop .a b3, .marker .stop .b b3])

/-! ## ASSEMBLE -/

/-- R161 to R168, R171: ASSEMBLE at byte number `n` of a packet with header byte `h`. The packet
state, the one unit or none that the mode materializes, and the return to BIT 0. -/
def Obligations.AssembleFoldsTheByte : Prop :=
  ∀ (s : State) (h : Byte) (n : Nat), n = s.ps.byteCount.toNat + 1 → n < 2 ^ 32 →
    (s.ps = PacketState.init ∧ h = s.shift ∨ s.ps.byteCount ≠ 0 ∧ s.ps.InPacket h) →
    let acc : BusWord := (s.ps.wordAcc >>> 8) ||| (s.shift.setWidth 32 <<< 24)
    let ws := if n % 4 = 1 then some s.byteStart else s.ps.wordStart
    let left : Count := BitVec.ofNat 32 (4 * h.toNat + 5 - n)
    let byteCls : Cls :=
      if n ≤ 4 then .frameHeader else if 4 * h.toNat + 5 ≤ n then .crc else .payload
    let units : List Event :=
      if s.modeReg = .byte then
        [.unit .byte (s.shift.setWidth 32) byteCls left s.byteStart s.byteEnd]
      else if n % 4 = 0 then
        [.unit .word acc (if n = 4 then .frameHeader else .payload)
          (BitVec.ofNat 32 (h.toNat + 1 - n / 4)) (ws.getD 0) s.byteEnd]
      else if n = 4 * h.toNat + 5 then
        [.unit .byte (s.shift.setWidth 32) .crc 0 s.byteStart s.byteEnd]
      else []
    exec .assemble s = .next { s with
      ps := {
        byteCount := BitVec.ofNat 32 n
        wordAcc := if n % 4 = 0 then 0 else acc
        wordStart := ws
        bytesTotal := some (BitVec.ofNat 32 (4 * h.toNat + 5))
        bytesRem := some left
        wordsTotal := some (BitVec.ofNat 32 (h.toNat + 1))
        wordsRem := some (BitVec.ofNat 32 (h.toNat + 1 - n / 4)) }
      out := s.out ++ units
      k := 0
      shift := 0
      phase := eocBit
      answer := .done }

/-- R161, R196: COUNTER_OVERFLOW is tested before anything else; a byte after the first whose
`bytesRem` is unknown raises READ_UNKNOWN. -/
def Obligations.AssembleFaults : Prop :=
  ∀ s : State,
    (s.ps.byteCount.toNat = 2 ^ 32 - 1 → exec .assemble s = .fault .counterOverflow) ∧
    (s.ps.byteCount.toNat ≠ 2 ^ 32 - 1 → s.ps.byteCount ≠ 0 → s.ps.bytesRem = none →
      exec .assemble s = .fault .readUnknown)

/-- R161, R168, 90_conflicts.md C9: whatever `ps` holds, ASSEMBLE writes nothing beyond `ps`, `out`,
`k`, `shift` and `phase`, and emits at most one event, a unit. -/
def Obligations.AssembleFrame : Prop :=
  ∀ s t : State, exec .assemble s = .next t →
    t = { s with ps := t.ps, out := t.out, k := 0, shift := 0, phase := eocBit, answer := .done } ∧
    (t.out = s.out ∨ ∃ g v cls r x y, t.out = s.out ++ [.unit g v cls r x y])

/-- R169: no engine step depends on the mode but in the units it emits: every register, both cursors
and the markers come out the same. -/
def Obligations.DecodingIsModeIndependent : Prop :=
  ∀ (i : Instr) (m n : Mode) (s t u : State), i.isEngine = true →
    exec i { s with modeReg := m } = .next t → exec i { s with modeReg := n } = .next u →
    { t with modeReg := .byte, out := [] } = { u with modeReg := .byte, out := [] } ∧
    markerEvents t.out = markerEvents u.out

/-! ## Host operations -/

/-- R210, R211: RESET. Where both positions are captured it writes every register and leaves the trace
(the levels being those of the trace at the positions); else it is refused and changes nothing. -/
def Obligations.ResetInitialState : Prop :=
  ∀ (mode : Mode) (pA pB : Sample) (s : State),
    (∃ q, encode (.reset mode pA pB) = .eoc 0b101000 q) ∧
    (pA < s.horizon → pB < s.horizon → exec (.reset mode pA pB) s = .next {
      curA := ⟨pA, BitVec.ofNat 64 (s.traceA.trans.filter (· ≤ pA)).length⟩
      curB := ⟨pB, BitVec.ofNat 64 (s.traceB.trans.filter (· ≤ pB)).length⟩
      phase := eocAlign
      k := 0
      shift := 0
      byteStart := 0
      byteEnd := 0
      lastErr := .none
      modeReg := mode
      ps := ⟨0, 0, none, none, none, none, none⟩
      out := []
      traceA := s.traceA
      traceB := s.traceB
      horizon := s.horizon
      final := s.final
      inbox := s.inbox
      command := s.command
      answer := .done }) ∧
    (¬ (pA < s.horizon ∧ pB < s.horizon) →
      exec (.reset mode pA pB) s = .next { s with answer := .refused .badReset }) ∧
    (∀ t, exec (.reset mode pA pB) s = .next t → t.answer = .done →
      t.level .a = s.traceA.levelAt pA ∧ t.level .b = s.traceB.levelAt pB)

/-- R182: EXTEND appends to the trace exactly when its requirements hold, and changes no register of
the core; otherwise it is refused and changes nothing. -/
def Obligations.ExtendGrowsTheTrace : Prop :=
  ∀ (uA uB : List Sample) (h : Sample) (fin : Bool) (s : State),
    let ok := s.final = false ∧ s.horizon ≤ h ∧ uA.Pairwise (· < ·) ∧ uB.Pairwise (· < ·) ∧
      (∀ u ∈ uA, s.horizon ≤ u ∧ u < h) ∧ (∀ u ∈ uB, s.horizon ≤ u ∧ u < h)
    (ok → exec (.extend uA uB h fin) s = .next { s with
      traceA := ⟨s.traceA.init, s.traceA.trans ++ uA⟩
      traceB := ⟨s.traceB.init, s.traceB.trans ++ uB⟩
      horizon := h
      final := fin
      answer := .done }) ∧
    (¬ ok → exec (.extend uA uB h fin) s = .next { s with answer := .refused .badExtend })

/-- R183, R185: CANCEL writes only `phase`; in HALTED it changes nothing. -/
def Obligations.CancelHalts : Prop :=
  ∀ s : State, exec .cancel s = .next { s with phase := 0b111111, answer := .done } ∧
    (s.phase = eocHalted → exec .cancel s = .next { s with answer := .done })

/-- R52: a list of transition records is read exactly when it is a transition sequence of a two-level
line below the horizon, and then the line has each record's new level at its sample. -/
def Obligations.TraceRecordsAreRead : Prop :=
  ∀ (init : Bool) (records : List (Sample × Bool)) (h : Sample),
    ((∃ t, readTrace init records h = .ok t) ↔
      (records.map Prod.fst).Pairwise (· < ·) ∧ (∀ r ∈ records, r.1 < h) ∧
        (init :: records.map Prod.snd).IsChain (· ≠ ·)) ∧
    (∀ t, readTrace init records h = .ok t →
      t.init = init ∧ t.trans = records.map Prod.fst ∧
        ∀ r ∈ records, t.levelAt r.1 = r.2)

/-- R180, R184, R87, R198, R200, I1, I2: the host's offers enter in order; what is no host operation,
and what does not decode, is refused by name, a reserved command word or operation code among them. -/
def Obligations.OfferAcceptsOperations : Prop :=
  ∀ (s : State) (p : Packet),
    (∀ i, decode p = .ok i → i.isHost = true →
      s.offer p = .ok { s with inbox := s.inbox ++ [p] }) ∧
    (∀ i, decode p = .ok i → i.isHost = false → s.offer p = .error .notHostOperation) ∧
    (∀ r, decode p = .error r → s.offer p = .error r)

/-- R182, R52, R184: an EXTEND from transition records is read exactly when, on each channel, the new
levels alternate from the level before the first record on, and it appends the records' samples. The
level before them is the one after all the transitions of the trace `u` that the EXTENDs already
offered leave (notes/assumptions/22.md), and that is the trace the new one meets: taking what is
offered is that many steps, and they leave `u`'s trace. -/
def Obligations.ExtendRecordsAreRead : Prop :=
  ∀ (s : State) (recordsA recordsB : List (Sample × Bool)) (h : Sample) (fin : Bool),
    let u := s.withOfferedExtends
    ((∃ i, extendOfRecords s recordsA recordsB h fin = .ok i) ↔
      ((u.traceA.init ^^ decide (u.traceA.trans.length % 2 = 1)) ::
        recordsA.map Prod.snd).IsChain (· ≠ ·) ∧
      ((u.traceB.init ^^ decide (u.traceB.trans.length % 2 = 1)) ::
        recordsB.map Prod.snd).IsChain (· ≠ ·)) ∧
    (∀ i, extendOfRecords s recordsA recordsB h fin = .ok i →
      i = .extend (recordsA.map Prod.fst) (recordsB.map Prod.fst) h fin) ∧
    (∃ t, Host.Core.run Sys2Proof.core s.inbox.length s = .next t ∧ t.inbox = [] ∧
      t.traceA = u.traceA ∧ t.traceB = u.traceB ∧ t.horizon = u.horizon ∧ t.final = u.final)

/-! ## What is written by what -/

/-- R28, R30, R32, R36, R51, R185: only RESET writes the mode; only START, ASSEMBLE and RESET write
`ps`; only a resync and RESET write `lastErr`; only EXTEND changes a trace, the horizon or FINAL; only
CANCEL halts; no operation writes the inbox or the cursor units' port (the model's own fields,
notes/assumptions/2.md, 7.md). -/
def Obligations.WritersOfEachRegister : Prop :=
  ∀ (i : Instr) (s t : State), exec i s = .next t →
    (t.modeReg = s.modeReg ∨ ∃ m pA pB, i = .reset m pA pB) ∧
    (t.ps = s.ps ∨ i = .start ∨ i = .assemble ∨ ∃ m pA pB, i = .reset m pA pB) ∧
    (t.lastErr = s.lastErr ∨ t.phase = eocAlign ∧
      (i = .start ∨ (∃ k, i = .bit k) ∨ i = .classify ∨ ∃ m pA pB, i = .reset m pA pB)) ∧
    ((t.traceA = s.traceA ∧ t.traceB = s.traceB ∧ t.horizon = s.horizon ∧ t.final = s.final) ∨
      ∃ uA uB h fin, i = .extend uA uB h fin) ∧
    (t.phase = eocHalted → s.phase = eocHalted ∨ i = .cancel) ∧
    t.inbox = s.inbox ∧
    t.command = s.command

/-- R198, R200, R203, R107: the cursor units act only for the core's run loop. From a state with no
command word at their port no step brings one there, whatever is offered, and a step that moves a
cursor is the engine step at `phase`, with nothing offered, or a RESET of the host. -/
def Obligations.CursorsMoveOnlyForTheEngine : Prop :=
  ∀ s t : State, s.command = none → step s = .next t →
    t.command = none ∧
    (∀ c, t.cur c ≠ s.cur c →
      (s.inbox = [] ∧ ∃ i, i.isEngine = true ∧ decodePhase s.phase s.k = some i ∧
        exec i s = .next t) ∨
      (∃ p rest m pA pB, s.inbox = p :: rest ∧ decode p = .ok (.reset m pA pB) ∧
        resetAccepted s pA pB = true))

/-- R36: the log only grows, and no event already in it changes; RESET makes it empty; CANCEL leaves
it as it is. -/
def Obligations.LogOnlyGrows : Prop :=
  ∀ (i : Instr) (s t : State), exec i s = .next t →
    ((∀ m pA pB, i ≠ .reset m pA pB) → s.out <+: t.out) ∧
    ((∃ m pA pB, i = .reset m pA pB) → t.answer = .done → t.out = []) ∧
    (i = .cancel → t.out = s.out)

/-- R192: a unit is emitted only by ASSEMBLE, so none is emitted by a step that detects an error. -/
def Obligations.OnlyAssembleEmitsUnits : Prop :=
  ∀ (i : Instr) (s t : State), i ≠ .assemble → (∀ m pA pB, i ≠ .reset m pA pB) →
    exec i s = .next t → unitEvents t.out = unitEvents s.out

/-- R24: no operation but RESET moves a cursor backward, in position or in count. -/
def Obligations.CursorsOnlyMoveForward : Prop :=
  ∀ (i : Instr) (s t : State) (c : Ch), s.CaptureInv → (∀ m pA pB, i ≠ .reset m pA pB) →
    exec i s = .next t →
    (s.cur c).pos ≤ (t.cur c).pos ∧ (s.cur c).idx.toNat ≤ (t.cur c).idx.toNat

/-- R77: the phases an engine step that is not Blocked can write; only CANCEL writes HALTED. -/
def Obligations.PhaseSuccessors : Prop :=
  ∀ (i : Instr) (s t : State), exec i s = .next t → t.answer ≠ .blocked →
    (i = .align → t.phase = eocAlign ∨ t.phase = eocStart) ∧
    (i = .start → t.phase = eocAlign ∨ (t.phase = eocBit ∧ t.k = 0)) ∧
    (∀ k, i = .bit k → k ≠ 7 → (t.phase = eocBit ∧ t.k = k + 1) ∨
      (t.phase = eocClassify ∧ k = 0) ∨ t.phase = eocAlign) ∧
    (i = .bit 7 → t.phase = eocAssemble ∨ t.phase = eocAlign) ∧
    (i = .classify → t.phase = eocAlign) ∧
    (i = .assemble → t.phase = eocBit ∧ t.k = 0) ∧
    (t.phase = eocHalted → t.phase = s.phase ∨ i = .cancel)

/-! ## Invariants and the whole machine -/

/-- R210, R213: the invariants hold at `State.reset`. The values of the mode, the positions and the
trace there are the model's choice (notes/assumptions/5.md). -/
def Obligations.ResetMeetsTheInvariants : Prop :=
  State.reset.Inv ∧ State.reset.ShiftInv ∧ State.reset.LogInv

/-- R23, R51: every step keeps the traces well formed and the cursors sound, whatever is offered. -/
def Obligations.StepKeepsTheCapture : Prop :=
  ∀ s t : State, s.CaptureInv → step s = .next t → t.CaptureInv

/-- R31 to R33, R164, R171: every step keeps the packet state that of one packet: the totals fixed by
its first byte, and the bytes and words remaining those that its length and byte count give. -/
def Obligations.StepKeepsThePacketState : Prop :=
  ∀ s t : State, s.ps.Consistent → step s = .next t → t.ps.Consistent

/-- R38: every step keeps the invariants of a run from RESET. -/
def Obligations.StepKeepsTheInvariants : Prop :=
  ∀ s t : State, s.Inv → step s = .next t → t.Inv

/-- R26: every step keeps `shift` within the bits gathered so far. -/
def Obligations.StepKeepsTheShiftRegister : Prop :=
  ∀ s t : State, s.ShiftInv → step s = .next t → t.ShiftInv

/-- R61: every step keeps the log in sample order. -/
def Obligations.StepKeepsTheLogSorted : Prop :=
  ∀ s t : State, s.CaptureInv → s.ps.Consistent → s.LogInv → step s = .next t → t.LogInv

/-- R38 (d), R170, R196: from a state of a run, a step faults exactly when it is an ASSEMBLE whose byte
count is exhausted, with COUNTER_OVERFLOW; and no step is refused. -/
def Obligations.OnlyCounterOverflowFaults : Prop :=
  ∀ s : State, s.Inv →
    (∀ r, step s = .fault r ↔ r = .counterOverflow ∧ s.inbox = [] ∧ s.phase = eocAssemble ∧
      s.ps.byteCount.toNat = 2 ^ 32 - 1) ∧
    (∀ r, step s ≠ .refused r)

/-- R53, R182, R188: an extension changes no answer given before it: an engine step or a cursor
command that is not Blocked does after an accepted EXTEND what it did before. -/
def Obligations.ExtensionChangesNoAnswer : Prop :=
  ∀ (i : Instr) (uA uB : List Sample) (h : Sample) (fin : Bool) (s : State),
    s.CaptureInv → extendAccepted s uA uB h = true → i.isHost = false →
    (∀ t, exec i s = .next t → t.answer ≠ .blocked →
      exec i (extendTrace uA uB h fin s) = .next (extendTrace uA uB h fin t)) ∧
    (∀ r, exec i s = .fault r → exec i (extendTrace uA uB h fin s) = .fault r)

/-- R188: incremental capture changes no output. A run that has not blocked after `n` steps does the
same on the extended trace, so the run over the whole trace is the run over the first part, resumed. -/
def Obligations.IncrementalRunIsTheWholeRun : Prop :=
  ∀ (n m : Nat) (uA uB : List Sample) (h : Sample) (fin : Bool) (s t : State),
    s.CaptureInv → s.inbox = [] → extendAccepted s uA uB h = true →
    Host.Core.run Sys2Proof.core n s = .next t → t.answer ≠ .blocked →
    Host.Core.run Sys2Proof.core (n + m) (extendTrace uA uB h fin s) =
      Host.Core.run Sys2Proof.core m (extendTrace uA uB h fin t)

/-- R218: the engine depends only on the order of samples. Renumbering the samples up to the horizon
in order renumbers what an engine step does. -/
def Obligations.OnlyTheOrderOfSamplesMatters : Prop :=
  ∀ (i : Instr) (f : Sample → Sample) (s : State), s.CaptureInv → i.isEngine = true →
    (∀ a b, b ≤ s.horizon → a < b → f a < f b) →
    exec i (s.renumber f) = renumberOutcome f (exec i s)

/-- R220: the engine steps that pass a transition. START and BIT always do, ALIGN does unless it hands
over, and CLASSIFY does at End, the one outcome in which it emits. -/
def Obligations.StepsThatConsume : Prop :=
  ∀ (i : Instr) (s t : State), s.CaptureInv → exec i s = .next t → t.answer ≠ .blocked →
    (i = .align → t.phase = eocStart ∨ s.passed < t.passed) ∧
    (i = .start → s.passed < t.passed) ∧
    (∀ k, i = .bit k → s.passed < t.passed) ∧
    (i = .classify → t.out ≠ s.out → s.passed < t.passed)

/-- R186, R220: a run over a capture ends: within `3 R + 2` engine steps, `R` being the transitions
ahead of the cursors, it blocks, faults or has halted. -/
def Obligations.EveryRunEndsOnACapture : Prop :=
  ∀ s : State, s.Inv → s.inbox = [] →
    ∃ (n : Nat) (t : State), n ≤ 3 * s.remaining + 2 ∧
      Host.Core.run Sys2Proof.core n s = .next t ∧
      (step t = .next { t with answer := .blocked } ∨ step t = .fault .counterOverflow ∨
        t.phase = eocHalted)
end

