-- ==== Sys2Proof/Laws/Samples.lean ====
section
/-! SUPPORT. Lists of transition samples: order, bound, counting and levels. -/

namespace Sys2Proof.Machine

/-! ## The order of samples, in the forms the order on `BitVec` does not provide -/

theorem sample_lt_of_lt_of_le {x y z : Sample} (h : x < y) (h' : y ≤ z) : x < z := by
  rw [BitVec.lt_def] at *; rw [BitVec.le_def] at *; omega

theorem sample_lt_of_le_of_lt {x y z : Sample} (h : x ≤ y) (h' : y < z) : x < z := by
  rw [BitVec.lt_def] at *; rw [BitVec.le_def] at *; omega

theorem sample_le_of_lt {x y : Sample} (h : x < y) : x ≤ y := by
  rw [BitVec.lt_def] at *; rw [BitVec.le_def]; omega

theorem sample_eq_of_le_of_not_lt {x y : Sample} (h : x ≤ y) (h' : ¬ x < y) : x = y :=
  BitVec.le_antisymm h (BitVec.not_lt.1 h')

/-! ## Order, bound and counting -/

theorem strictlyIncreasing_iff (l : List Sample) :
    strictlyIncreasing l = true ↔ l.Pairwise (· < ·) := by
  induction l with
  | nil => simp [strictlyIncreasing]
  | cons x l ih =>
    cases l with
    | nil => simp [strictlyIncreasing]
    | cons y rest =>
      simp only [strictlyIncreasing, Bool.and_eq_true, decide_eq_true_eq, ih]
      constructor
      · rintro ⟨hxy, h⟩
        refine List.pairwise_cons.2 ⟨fun z hz => ?_, h⟩
        rcases List.mem_cons.1 hz with rfl | hz
        · exact hxy
        · exact BitVec.lt_trans hxy ((List.pairwise_cons.1 h).1 z hz)
      · intro h
        exact ⟨(List.pairwise_cons.1 h).1 y (by simp), (List.pairwise_cons.1 h).2⟩

theorem allBelow_iff (h : Sample) (l : List Sample) : allBelow h l = true ↔ ∀ u ∈ l, u < h := by
  simp [allBelow]

theorem allFrom_iff (h : Sample) (l : List Sample) : allFrom h l = true ↔ ∀ u ∈ l, h ≤ u := by
  simp [allFrom]

@[simp] theorem countUpTo_nil (x : Sample) : countUpTo [] x = 0 := rfl

theorem countUpTo_cons (t x : Sample) (l : List Sample) :
    countUpTo (t :: l) x = countUpTo l x + if t ≤ x then 1 else 0 := by
  simp [countUpTo, List.countP_cons]

@[simp] theorem countUpTo_append (l m : List Sample) (x : Sample) :
    countUpTo (l ++ m) x = countUpTo l x + countUpTo m x := by
  simp [countUpTo]

theorem countUpTo_le_length (l : List Sample) (x : Sample) : countUpTo l x ≤ l.length :=
  List.countP_le_length

theorem countUpTo_mono (l : List Sample) {x y : Sample} (h : x ≤ y) :
    countUpTo l x ≤ countUpTo l y := by
  refine List.countP_mono_left fun t _ ht => ?_
  simp only [decide_eq_true_eq] at ht ⊢
  exact BitVec.le_trans ht h

theorem countUpTo_eq_zero {l : List Sample} {x : Sample} (h : ∀ u ∈ l, x < u) :
    countUpTo l x = 0 := by
  refine List.countP_eq_zero.2 fun t ht => ?_
  simpa using h t ht

/-- In an increasing list the transitions at or before a sample are the first ones. -/
theorem le_iff_lt_countUpTo {l : List Sample} (hl : l.Pairwise (· < ·)) {i : Nat} {t : Sample}
    (ht : l[i]? = some t) (x : Sample) : t ≤ x ↔ i < countUpTo l x := by
  induction l generalizing i with
  | nil => simp at ht
  | cons y l ih =>
    obtain ⟨hy, hl⟩ := List.pairwise_cons.1 hl
    rw [countUpTo_cons]
    cases i with
    | zero =>
      simp only [List.getElem?_cons_zero, Option.some.injEq] at ht
      subst ht
      by_cases h : y ≤ x
      · simp [h]
      · have hz : countUpTo l x = 0 := countUpTo_eq_zero fun u hu =>
          BitVec.lt_trans (by simpa using h) (hy u hu)
        simp [h, hz]
    | succ i =>
      simp only [List.getElem?_cons_succ] at ht
      rw [ih hl ht]
      have hyt : y < t := hy t (List.mem_of_getElem? ht)
      by_cases h : y ≤ x
      · simp [h]
      · have hz : countUpTo l x = 0 := countUpTo_eq_zero fun u hu =>
          BitVec.lt_trans (by simpa using h) (hy u hu)
        simp [h, hz]

/-- The transition that a sample's count points at is the first one after the sample. -/
theorem lt_of_getElem?_countUpTo {l : List Sample} (hl : l.Pairwise (· < ·)) {x t : Sample}
    (ht : l[countUpTo l x]? = some t) : x < t := by
  have h := le_iff_lt_countUpTo hl ht x
  simpa using h

/-- A transition passes itself and everything before it. -/
theorem countUpTo_getElem? {l : List Sample} (hl : l.Pairwise (· < ·)) {i : Nat} {t : Sample}
    (ht : l[i]? = some t) : countUpTo l t = i + 1 := by
  have h1 : i < countUpTo l t := (le_iff_lt_countUpTo hl ht t).1 (BitVec.le_refl t)
  by_contra hne
  have hlt : i + 1 < countUpTo l t := by omega
  have hlen : i + 1 < l.length := Nat.lt_of_lt_of_le hlt (countUpTo_le_length l t)
  have hu : l[i + 1]? = some l[i + 1] := List.getElem?_eq_getElem hlen
  have hle := (le_iff_lt_countUpTo hl hu t).2 hlt
  have hi : i < l.length := by omega
  have hti : t = l[i] := by rw [List.getElem?_eq_getElem hi] at ht; exact (Option.some.inj ht).symm
  have hlt' : l[i] < l[i + 1] := List.pairwise_iff_getElem.1 hl i (i + 1) hi hlen (by omega)
  rw [← hti] at hlt'
  exact absurd hle (by simpa using hlt')

/-- What lies ahead of a passed count is counted apart. -/
theorem countUpTo_drop {l : List Sample} (hl : l.Pairwise (· < ·)) {p x : Sample} (h : p ≤ x) :
    countUpTo l p + countUpTo (l.drop (countUpTo l p)) x = countUpTo l x := by
  conv_rhs => rw [← List.take_append_drop (countUpTo l p) l]
  rw [countUpTo_append]
  congr 1
  have hall : ∀ t ∈ l.take (countUpTo l p), t ≤ x := by
    intro t ht
    obtain ⟨i, hi, rfl⟩ := List.mem_iff_getElem.1 ht
    rw [List.length_take] at hi
    have hg : l[i]? = some (l.take (countUpTo l p))[i] := by
      rw [List.getElem_take, List.getElem?_eq_getElem]
    exact BitVec.le_trans ((le_iff_lt_countUpTo hl hg p).2 (by omega)) h
  have : countUpTo (l.take (countUpTo l p)) x = (l.take (countUpTo l p)).length :=
    List.countP_eq_length.2 fun t ht => by simpa using hall t ht
  rw [this, List.length_take]
  have := countUpTo_le_length l p
  omega

/-- An increasing list below `h` is no longer than `h`. -/
theorem length_le_of_increasing {l : List Sample} (hl : l.Pairwise (· < ·)) {h : Sample}
    (hb : ∀ u ∈ l, u < h) : l.length ≤ h.toNat := by
  induction l generalizing h with
  | nil => simp
  | cons x l ih =>
    obtain ⟨hx, hl⟩ := List.pairwise_cons.1 hl
    have hi : ∀ (i : Nat) (hi : i < l.length), i + 1 ≤ l[i].toNat := by
      intro i
      induction i with
      | zero =>
        intro hi
        have := hx l[0] (List.getElem_mem hi)
        have := BitVec.lt_def.1 this
        omega
      | succ i ihi =>
        intro hi
        have h1 := ihi (by omega)
        have h2 : l[i] < l[i + 1] := List.pairwise_iff_getElem.1 hl i (i + 1) (by omega) hi (by omega)
        have := BitVec.lt_def.1 h2
        omega
    rcases Nat.eq_zero_or_pos l.length with h0 | hp
    · have := BitVec.lt_def.1 (hb x (by simp))
      simp [h0]; omega
    · have h1 := hi (l.length - 1) (by omega)
      have h2 := BitVec.lt_def.1 (hb l[l.length - 1] (List.mem_cons_of_mem _ (List.getElem_mem _)))
      simp only [List.length_cons]
      omega

@[simp] theorem levelAfter_zero (b : Bool) : levelAfter b 0 = b := by simp [levelAfter]

@[simp] theorem levelAfter_succ (b : Bool) (n : Nat) :
    levelAfter b (n + 1) = !levelAfter b n := by
  unfold levelAfter
  rcases Nat.mod_two_eq_zero_or_one n with h | h <;> cases b <;>
    simp [h, Nat.add_mod]

end Sys2Proof.Machine
end

