-- ==== Sys2Proof/Laws/State.lean ====
section
/-! SUPPORT. One lemma per field per named update of the state, so that no later proof unfolds a
record update. -/

namespace Sys2Proof.Machine

variable (s : State)


/-! ## `State.answered` -/

@[simp] theorem State.answered_curA (a : Answer) : (s.answered a).curA = s.curA := rfl
@[simp] theorem State.answered_curB (a : Answer) : (s.answered a).curB = s.curB := rfl
@[simp] theorem State.answered_phase (a : Answer) : (s.answered a).phase = s.phase := rfl
@[simp] theorem State.answered_k (a : Answer) : (s.answered a).k = s.k := rfl
@[simp] theorem State.answered_shift (a : Answer) : (s.answered a).shift = s.shift := rfl
@[simp] theorem State.answered_byteStart (a : Answer) : (s.answered a).byteStart = s.byteStart := rfl
@[simp] theorem State.answered_byteEnd (a : Answer) : (s.answered a).byteEnd = s.byteEnd := rfl
@[simp] theorem State.answered_lastErr (a : Answer) : (s.answered a).lastErr = s.lastErr := rfl
@[simp] theorem State.answered_modeReg (a : Answer) : (s.answered a).modeReg = s.modeReg := rfl
@[simp] theorem State.answered_ps (a : Answer) : (s.answered a).ps = s.ps := rfl
@[simp] theorem State.answered_out (a : Answer) : (s.answered a).out = s.out := rfl
@[simp] theorem State.answered_traceA (a : Answer) : (s.answered a).traceA = s.traceA := rfl
@[simp] theorem State.answered_traceB (a : Answer) : (s.answered a).traceB = s.traceB := rfl
@[simp] theorem State.answered_horizon (a : Answer) : (s.answered a).horizon = s.horizon := rfl
@[simp] theorem State.answered_final (a : Answer) : (s.answered a).final = s.final := rfl
@[simp] theorem State.answered_inbox (a : Answer) : (s.answered a).inbox = s.inbox := rfl
@[simp] theorem State.answered_command (a : Answer) : (s.answered a).command = s.command := rfl
@[simp] theorem State.answered_answer (a : Answer) : (s.answered a).answer = a := rfl
@[simp] theorem State.answered_cur (a : Answer) (c : Ch) : (s.answered a).cur c = s.cur c := by cases c <;> rfl
@[simp] theorem State.answered_trace (a : Answer) (c : Ch) : (s.answered a).trace c = s.trace c := by cases c <;> rfl
@[simp] theorem State.answered_level (a : Answer) (c : Ch) : (s.answered a).level c = s.level c := by cases c <;> rfl
@[simp] theorem State.answered_position (a : Answer) (c : Ch) : (s.answered a).position c = s.position c := by cases c <;> rfl
@[simp] theorem State.answered_upcoming (a : Answer) (c : Ch) : (s.answered a).upcoming c = s.upcoming c := by cases c <;> rfl
@[simp] theorem State.answered_crossings (a : Answer) (c : Ch) (x : Sample) :
    (s.answered a).crossings c x = s.crossings c x := by cases c <;> rfl

/-! ## `State.setPhase` -/

@[simp] theorem State.setPhase_curA (p : Eoc) : (s.setPhase p).curA = s.curA := rfl
@[simp] theorem State.setPhase_curB (p : Eoc) : (s.setPhase p).curB = s.curB := rfl
@[simp] theorem State.setPhase_phase (p : Eoc) : (s.setPhase p).phase = p := rfl
@[simp] theorem State.setPhase_k (p : Eoc) : (s.setPhase p).k = s.k := rfl
@[simp] theorem State.setPhase_shift (p : Eoc) : (s.setPhase p).shift = s.shift := rfl
@[simp] theorem State.setPhase_byteStart (p : Eoc) : (s.setPhase p).byteStart = s.byteStart := rfl
@[simp] theorem State.setPhase_byteEnd (p : Eoc) : (s.setPhase p).byteEnd = s.byteEnd := rfl
@[simp] theorem State.setPhase_lastErr (p : Eoc) : (s.setPhase p).lastErr = s.lastErr := rfl
@[simp] theorem State.setPhase_modeReg (p : Eoc) : (s.setPhase p).modeReg = s.modeReg := rfl
@[simp] theorem State.setPhase_ps (p : Eoc) : (s.setPhase p).ps = s.ps := rfl
@[simp] theorem State.setPhase_out (p : Eoc) : (s.setPhase p).out = s.out := rfl
@[simp] theorem State.setPhase_traceA (p : Eoc) : (s.setPhase p).traceA = s.traceA := rfl
@[simp] theorem State.setPhase_traceB (p : Eoc) : (s.setPhase p).traceB = s.traceB := rfl
@[simp] theorem State.setPhase_horizon (p : Eoc) : (s.setPhase p).horizon = s.horizon := rfl
@[simp] theorem State.setPhase_final (p : Eoc) : (s.setPhase p).final = s.final := rfl
@[simp] theorem State.setPhase_inbox (p : Eoc) : (s.setPhase p).inbox = s.inbox := rfl
@[simp] theorem State.setPhase_command (p : Eoc) : (s.setPhase p).command = s.command := rfl
@[simp] theorem State.setPhase_answer (p : Eoc) : (s.setPhase p).answer = s.answer := rfl
@[simp] theorem State.setPhase_cur (p : Eoc) (c : Ch) : (s.setPhase p).cur c = s.cur c := by cases c <;> rfl
@[simp] theorem State.setPhase_trace (p : Eoc) (c : Ch) : (s.setPhase p).trace c = s.trace c := by cases c <;> rfl
@[simp] theorem State.setPhase_level (p : Eoc) (c : Ch) : (s.setPhase p).level c = s.level c := by cases c <;> rfl
@[simp] theorem State.setPhase_position (p : Eoc) (c : Ch) : (s.setPhase p).position c = s.position c := by cases c <;> rfl
@[simp] theorem State.setPhase_upcoming (p : Eoc) (c : Ch) : (s.setPhase p).upcoming c = s.upcoming c := by cases c <;> rfl
@[simp] theorem State.setPhase_crossings (p : Eoc) (c : Ch) (x : Sample) :
    (s.setPhase p).crossings c x = s.crossings c x := by cases c <;> rfl

/-! ## `State.emit` -/

@[simp] theorem State.emit_curA (e : Event) : (s.emit e).curA = s.curA := rfl
@[simp] theorem State.emit_curB (e : Event) : (s.emit e).curB = s.curB := rfl
@[simp] theorem State.emit_phase (e : Event) : (s.emit e).phase = s.phase := rfl
@[simp] theorem State.emit_k (e : Event) : (s.emit e).k = s.k := rfl
@[simp] theorem State.emit_shift (e : Event) : (s.emit e).shift = s.shift := rfl
@[simp] theorem State.emit_byteStart (e : Event) : (s.emit e).byteStart = s.byteStart := rfl
@[simp] theorem State.emit_byteEnd (e : Event) : (s.emit e).byteEnd = s.byteEnd := rfl
@[simp] theorem State.emit_lastErr (e : Event) : (s.emit e).lastErr = s.lastErr := rfl
@[simp] theorem State.emit_modeReg (e : Event) : (s.emit e).modeReg = s.modeReg := rfl
@[simp] theorem State.emit_ps (e : Event) : (s.emit e).ps = s.ps := rfl
@[simp] theorem State.emit_out (e : Event) : (s.emit e).out = s.out ++ [e] := rfl
@[simp] theorem State.emit_traceA (e : Event) : (s.emit e).traceA = s.traceA := rfl
@[simp] theorem State.emit_traceB (e : Event) : (s.emit e).traceB = s.traceB := rfl
@[simp] theorem State.emit_horizon (e : Event) : (s.emit e).horizon = s.horizon := rfl
@[simp] theorem State.emit_final (e : Event) : (s.emit e).final = s.final := rfl
@[simp] theorem State.emit_inbox (e : Event) : (s.emit e).inbox = s.inbox := rfl
@[simp] theorem State.emit_command (e : Event) : (s.emit e).command = s.command := rfl
@[simp] theorem State.emit_answer (e : Event) : (s.emit e).answer = s.answer := rfl
@[simp] theorem State.emit_cur (e : Event) (c : Ch) : (s.emit e).cur c = s.cur c := by cases c <;> rfl
@[simp] theorem State.emit_trace (e : Event) (c : Ch) : (s.emit e).trace c = s.trace c := by cases c <;> rfl
@[simp] theorem State.emit_level (e : Event) (c : Ch) : (s.emit e).level c = s.level c := by cases c <;> rfl
@[simp] theorem State.emit_position (e : Event) (c : Ch) : (s.emit e).position c = s.position c := by cases c <;> rfl
@[simp] theorem State.emit_upcoming (e : Event) (c : Ch) : (s.emit e).upcoming c = s.upcoming c := by cases c <;> rfl
@[simp] theorem State.emit_crossings (e : Event) (c : Ch) (x : Sample) :
    (s.emit e).crossings c x = s.crossings c x := by cases c <;> rfl

/-! ## `State.resync` -/

@[simp] theorem State.resync_curA (err : ErrCode) : (s.resync err).curA = s.curA := rfl
@[simp] theorem State.resync_curB (err : ErrCode) : (s.resync err).curB = s.curB := rfl
@[simp] theorem State.resync_phase (err : ErrCode) : (s.resync err).phase = eocAlign := rfl
@[simp] theorem State.resync_k (err : ErrCode) : (s.resync err).k = s.k := rfl
@[simp] theorem State.resync_shift (err : ErrCode) : (s.resync err).shift = s.shift := rfl
@[simp] theorem State.resync_byteStart (err : ErrCode) : (s.resync err).byteStart = s.byteStart := rfl
@[simp] theorem State.resync_byteEnd (err : ErrCode) : (s.resync err).byteEnd = s.byteEnd := rfl
@[simp] theorem State.resync_lastErr (err : ErrCode) : (s.resync err).lastErr = err := rfl
@[simp] theorem State.resync_modeReg (err : ErrCode) : (s.resync err).modeReg = s.modeReg := rfl
@[simp] theorem State.resync_ps (err : ErrCode) : (s.resync err).ps = s.ps := rfl
@[simp] theorem State.resync_out (err : ErrCode) : (s.resync err).out = s.out := rfl
@[simp] theorem State.resync_traceA (err : ErrCode) : (s.resync err).traceA = s.traceA := rfl
@[simp] theorem State.resync_traceB (err : ErrCode) : (s.resync err).traceB = s.traceB := rfl
@[simp] theorem State.resync_horizon (err : ErrCode) : (s.resync err).horizon = s.horizon := rfl
@[simp] theorem State.resync_final (err : ErrCode) : (s.resync err).final = s.final := rfl
@[simp] theorem State.resync_inbox (err : ErrCode) : (s.resync err).inbox = s.inbox := rfl
@[simp] theorem State.resync_command (err : ErrCode) : (s.resync err).command = s.command := rfl
@[simp] theorem State.resync_answer (err : ErrCode) : (s.resync err).answer = s.answer := rfl
@[simp] theorem State.resync_cur (err : ErrCode) (c : Ch) : (s.resync err).cur c = s.cur c := by cases c <;> rfl
@[simp] theorem State.resync_trace (err : ErrCode) (c : Ch) : (s.resync err).trace c = s.trace c := by cases c <;> rfl
@[simp] theorem State.resync_level (err : ErrCode) (c : Ch) : (s.resync err).level c = s.level c := by cases c <;> rfl
@[simp] theorem State.resync_position (err : ErrCode) (c : Ch) : (s.resync err).position c = s.position c := by cases c <;> rfl
@[simp] theorem State.resync_upcoming (err : ErrCode) (c : Ch) : (s.resync err).upcoming c = s.upcoming c := by cases c <;> rfl
@[simp] theorem State.resync_crossings (err : ErrCode) (c : Ch) (x : Sample) :
    (s.resync err).crossings c x = s.crossings c x := by cases c <;> rfl

/-! ## `State.setCur` -/

@[simp] theorem State.setCur_phase (c : Ch) (v : Cursor) : (s.setCur c v).phase = s.phase := by
  cases c <;> rfl
@[simp] theorem State.setCur_k (c : Ch) (v : Cursor) : (s.setCur c v).k = s.k := by
  cases c <;> rfl
@[simp] theorem State.setCur_shift (c : Ch) (v : Cursor) : (s.setCur c v).shift = s.shift := by
  cases c <;> rfl
@[simp] theorem State.setCur_byteStart (c : Ch) (v : Cursor) : (s.setCur c v).byteStart = s.byteStart := by
  cases c <;> rfl
@[simp] theorem State.setCur_byteEnd (c : Ch) (v : Cursor) : (s.setCur c v).byteEnd = s.byteEnd := by
  cases c <;> rfl
@[simp] theorem State.setCur_lastErr (c : Ch) (v : Cursor) : (s.setCur c v).lastErr = s.lastErr := by
  cases c <;> rfl
@[simp] theorem State.setCur_modeReg (c : Ch) (v : Cursor) : (s.setCur c v).modeReg = s.modeReg := by
  cases c <;> rfl
@[simp] theorem State.setCur_ps (c : Ch) (v : Cursor) : (s.setCur c v).ps = s.ps := by
  cases c <;> rfl
@[simp] theorem State.setCur_out (c : Ch) (v : Cursor) : (s.setCur c v).out = s.out := by
  cases c <;> rfl
@[simp] theorem State.setCur_traceA (c : Ch) (v : Cursor) : (s.setCur c v).traceA = s.traceA := by
  cases c <;> rfl
@[simp] theorem State.setCur_traceB (c : Ch) (v : Cursor) : (s.setCur c v).traceB = s.traceB := by
  cases c <;> rfl
@[simp] theorem State.setCur_horizon (c : Ch) (v : Cursor) : (s.setCur c v).horizon = s.horizon := by
  cases c <;> rfl
@[simp] theorem State.setCur_final (c : Ch) (v : Cursor) : (s.setCur c v).final = s.final := by
  cases c <;> rfl
@[simp] theorem State.setCur_inbox (c : Ch) (v : Cursor) : (s.setCur c v).inbox = s.inbox := by
  cases c <;> rfl
@[simp] theorem State.setCur_command (c : Ch) (v : Cursor) : (s.setCur c v).command = s.command := by
  cases c <;> rfl
@[simp] theorem State.setCur_answer (c : Ch) (v : Cursor) : (s.setCur c v).answer = s.answer := by
  cases c <;> rfl
@[simp] theorem State.setCur_a_curA (v : Cursor) : (s.setCur .a v).curA = v := rfl
@[simp] theorem State.setCur_a_curB (v : Cursor) : (s.setCur .a v).curB = s.curB := rfl
@[simp] theorem State.setCur_b_curA (v : Cursor) : (s.setCur .b v).curA = s.curA := rfl
@[simp] theorem State.setCur_b_curB (v : Cursor) : (s.setCur .b v).curB = v := rfl
@[simp] theorem State.setCur_trace (c d : Ch) (v : Cursor) : (s.setCur c v).trace d = s.trace d := by
  cases c <;> cases d <;> rfl
@[simp] theorem State.setCur_cur (c : Ch) (v : Cursor) : (s.setCur c v).cur c = v := by
  cases c <;> rfl
theorem State.setCur_cur_ne (c d : Ch) (v : Cursor) (h : d ≠ c) :
    (s.setCur c v).cur d = s.cur d := by
  cases c <;> cases d <;> first | rfl | exact absurd rfl h
@[simp] theorem State.setCur_cur_other (c : Ch) (v : Cursor) :
    (s.setCur c v).cur (other c) = s.cur (other c) := by cases c <;> rfl
@[simp] theorem State.setCur_self (c : Ch) : s.setCur c (s.cur c) = s := by cases c <;> rfl
@[simp] theorem State.setCur_setCur (c : Ch) (v w : Cursor) :
    (s.setCur c v).setCur c w = s.setCur c w := by cases c <;> rfl
@[simp] theorem State.cur_a : s.cur .a = s.curA := rfl
@[simp] theorem State.cur_b : s.cur .b = s.curB := rfl
@[simp] theorem State.trace_a : s.trace .a = s.traceA := rfl
@[simp] theorem State.trace_b : s.trace .b = s.traceB := rfl
@[simp] theorem State.answered_answered (a b : Answer) : (s.answered a).answered b = s.answered b := rfl
@[simp] theorem other_other (c : Ch) : other (other c) = c := by cases c <;> rfl
theorem other_ne (c : Ch) : other c ≠ c := by cases c <;> decide


/-! ## `beginPacket` -/

@[simp] theorem beginPacket_curA (x : Sample) : (beginPacket x s).curA = s.curA := rfl
@[simp] theorem beginPacket_curB (x : Sample) : (beginPacket x s).curB = s.curB := rfl
@[simp] theorem beginPacket_phase (x : Sample) : (beginPacket x s).phase = eocBit := rfl
@[simp] theorem beginPacket_k (x : Sample) : (beginPacket x s).k = 0 := rfl
@[simp] theorem beginPacket_shift (x : Sample) : (beginPacket x s).shift = 0 := rfl
@[simp] theorem beginPacket_byteStart (x : Sample) :
    (beginPacket x s).byteStart = s.byteStart := rfl
@[simp] theorem beginPacket_byteEnd (x : Sample) : (beginPacket x s).byteEnd = s.byteEnd := rfl
@[simp] theorem beginPacket_lastErr (x : Sample) : (beginPacket x s).lastErr = s.lastErr := rfl
@[simp] theorem beginPacket_modeReg (x : Sample) : (beginPacket x s).modeReg = s.modeReg := rfl
@[simp] theorem beginPacket_ps (x : Sample) : (beginPacket x s).ps = PacketState.init := rfl
@[simp] theorem beginPacket_out (x : Sample) :
    (beginPacket x s).out = s.out ++ [.marker .start .a x, .marker .start .b x] := by
  simp [beginPacket]
@[simp] theorem beginPacket_traceA (x : Sample) : (beginPacket x s).traceA = s.traceA := rfl
@[simp] theorem beginPacket_traceB (x : Sample) : (beginPacket x s).traceB = s.traceB := rfl
@[simp] theorem beginPacket_horizon (x : Sample) : (beginPacket x s).horizon = s.horizon := rfl
@[simp] theorem beginPacket_final (x : Sample) : (beginPacket x s).final = s.final := rfl
@[simp] theorem beginPacket_inbox (x : Sample) : (beginPacket x s).inbox = s.inbox := rfl
@[simp] theorem beginPacket_command (x : Sample) : (beginPacket x s).command = s.command := rfl
@[simp] theorem beginPacket_answer (x : Sample) : (beginPacket x s).answer = s.answer := rfl

/-! ## `extendTrace` -/

@[simp] theorem extendTrace_curA (uA uB : List Sample) (h : Sample) (fin : Bool) :
    (extendTrace uA uB h fin s).curA = s.curA := rfl
@[simp] theorem extendTrace_curB (uA uB : List Sample) (h : Sample) (fin : Bool) :
    (extendTrace uA uB h fin s).curB = s.curB := rfl
@[simp] theorem extendTrace_phase (uA uB : List Sample) (h : Sample) (fin : Bool) :
    (extendTrace uA uB h fin s).phase = s.phase := rfl
@[simp] theorem extendTrace_k (uA uB : List Sample) (h : Sample) (fin : Bool) :
    (extendTrace uA uB h fin s).k = s.k := rfl
@[simp] theorem extendTrace_shift (uA uB : List Sample) (h : Sample) (fin : Bool) :
    (extendTrace uA uB h fin s).shift = s.shift := rfl
@[simp] theorem extendTrace_byteStart (uA uB : List Sample) (h : Sample) (fin : Bool) :
    (extendTrace uA uB h fin s).byteStart = s.byteStart := rfl
@[simp] theorem extendTrace_byteEnd (uA uB : List Sample) (h : Sample) (fin : Bool) :
    (extendTrace uA uB h fin s).byteEnd = s.byteEnd := rfl
@[simp] theorem extendTrace_lastErr (uA uB : List Sample) (h : Sample) (fin : Bool) :
    (extendTrace uA uB h fin s).lastErr = s.lastErr := rfl
@[simp] theorem extendTrace_modeReg (uA uB : List Sample) (h : Sample) (fin : Bool) :
    (extendTrace uA uB h fin s).modeReg = s.modeReg := rfl
@[simp] theorem extendTrace_ps (uA uB : List Sample) (h : Sample) (fin : Bool) :
    (extendTrace uA uB h fin s).ps = s.ps := rfl
@[simp] theorem extendTrace_out (uA uB : List Sample) (h : Sample) (fin : Bool) :
    (extendTrace uA uB h fin s).out = s.out := rfl
@[simp] theorem extendTrace_traceA (uA uB : List Sample) (h : Sample) (fin : Bool) :
    (extendTrace uA uB h fin s).traceA = { s.traceA with trans := s.traceA.trans ++ uA } := rfl
@[simp] theorem extendTrace_traceB (uA uB : List Sample) (h : Sample) (fin : Bool) :
    (extendTrace uA uB h fin s).traceB = { s.traceB with trans := s.traceB.trans ++ uB } := rfl
@[simp] theorem extendTrace_horizon (uA uB : List Sample) (h : Sample) (fin : Bool) :
    (extendTrace uA uB h fin s).horizon = h := rfl
@[simp] theorem extendTrace_final (uA uB : List Sample) (h : Sample) (fin : Bool) :
    (extendTrace uA uB h fin s).final = fin := rfl
@[simp] theorem extendTrace_inbox (uA uB : List Sample) (h : Sample) (fin : Bool) :
    (extendTrace uA uB h fin s).inbox = s.inbox := rfl
@[simp] theorem extendTrace_command (uA uB : List Sample) (h : Sample) (fin : Bool) :
    (extendTrace uA uB h fin s).command = s.command := rfl
@[simp] theorem extendTrace_answer (uA uB : List Sample) (h : Sample) (fin : Bool) :
    (extendTrace uA uB h fin s).answer = s.answer := rfl

/-! ## `resetCore` -/

@[simp] theorem resetCore_curA (mode : Mode) (pA pB : Sample) :
    (resetCore mode pA pB s).curA = cursorAt s.traceA pA := rfl
@[simp] theorem resetCore_curB (mode : Mode) (pA pB : Sample) :
    (resetCore mode pA pB s).curB = cursorAt s.traceB pB := rfl
@[simp] theorem resetCore_phase (mode : Mode) (pA pB : Sample) :
    (resetCore mode pA pB s).phase = eocAlign := rfl
@[simp] theorem resetCore_k (mode : Mode) (pA pB : Sample) : (resetCore mode pA pB s).k = 0 := rfl
@[simp] theorem resetCore_shift (mode : Mode) (pA pB : Sample) :
    (resetCore mode pA pB s).shift = 0 := rfl
@[simp] theorem resetCore_byteStart (mode : Mode) (pA pB : Sample) :
    (resetCore mode pA pB s).byteStart = 0 := rfl
@[simp] theorem resetCore_byteEnd (mode : Mode) (pA pB : Sample) :
    (resetCore mode pA pB s).byteEnd = 0 := rfl
@[simp] theorem resetCore_lastErr (mode : Mode) (pA pB : Sample) :
    (resetCore mode pA pB s).lastErr = .none := rfl
@[simp] theorem resetCore_modeReg (mode : Mode) (pA pB : Sample) :
    (resetCore mode pA pB s).modeReg = mode := rfl
@[simp] theorem resetCore_ps (mode : Mode) (pA pB : Sample) :
    (resetCore mode pA pB s).ps = PacketState.init := rfl
@[simp] theorem resetCore_out (mode : Mode) (pA pB : Sample) :
    (resetCore mode pA pB s).out = [] := rfl
@[simp] theorem resetCore_traceA (mode : Mode) (pA pB : Sample) :
    (resetCore mode pA pB s).traceA = s.traceA := rfl
@[simp] theorem resetCore_traceB (mode : Mode) (pA pB : Sample) :
    (resetCore mode pA pB s).traceB = s.traceB := rfl
@[simp] theorem resetCore_horizon (mode : Mode) (pA pB : Sample) :
    (resetCore mode pA pB s).horizon = s.horizon := rfl
@[simp] theorem resetCore_final (mode : Mode) (pA pB : Sample) :
    (resetCore mode pA pB s).final = s.final := rfl
@[simp] theorem resetCore_inbox (mode : Mode) (pA pB : Sample) :
    (resetCore mode pA pB s).inbox = s.inbox := rfl
@[simp] theorem resetCore_command (mode : Mode) (pA pB : Sample) :
    (resetCore mode pA pB s).command = s.command := rfl
@[simp] theorem resetCore_answer (mode : Mode) (pA pB : Sample) :
    (resetCore mode pA pB s).answer = s.answer := rfl

/-! ## `sampleBit` -/

@[simp] theorem sampleBit_curA (k : BitVec 3) (x y : Sample) :
    (sampleBit k x y s).curA = s.curA := by unfold sampleBit; split <;> split <;> rfl
@[simp] theorem sampleBit_curB (k : BitVec 3) (x y : Sample) :
    (sampleBit k x y s).curB = s.curB := by unfold sampleBit; split <;> split <;> rfl
@[simp] theorem sampleBit_lastErr (k : BitVec 3) (x y : Sample) :
    (sampleBit k x y s).lastErr = s.lastErr := by unfold sampleBit; split <;> split <;> rfl
@[simp] theorem sampleBit_modeReg (k : BitVec 3) (x y : Sample) :
    (sampleBit k x y s).modeReg = s.modeReg := by unfold sampleBit; split <;> split <;> rfl
@[simp] theorem sampleBit_ps (k : BitVec 3) (x y : Sample) :
    (sampleBit k x y s).ps = s.ps := by unfold sampleBit; split <;> split <;> rfl
@[simp] theorem sampleBit_traceA (k : BitVec 3) (x y : Sample) :
    (sampleBit k x y s).traceA = s.traceA := by unfold sampleBit; split <;> split <;> rfl
@[simp] theorem sampleBit_traceB (k : BitVec 3) (x y : Sample) :
    (sampleBit k x y s).traceB = s.traceB := by unfold sampleBit; split <;> split <;> rfl
@[simp] theorem sampleBit_horizon (k : BitVec 3) (x y : Sample) :
    (sampleBit k x y s).horizon = s.horizon := by unfold sampleBit; split <;> split <;> rfl
@[simp] theorem sampleBit_final (k : BitVec 3) (x y : Sample) :
    (sampleBit k x y s).final = s.final := by unfold sampleBit; split <;> split <;> rfl
@[simp] theorem sampleBit_inbox (k : BitVec 3) (x y : Sample) :
    (sampleBit k x y s).inbox = s.inbox := by unfold sampleBit; split <;> split <;> rfl
@[simp] theorem sampleBit_command (k : BitVec 3) (x y : Sample) :
    (sampleBit k x y s).command = s.command := by unfold sampleBit; split <;> split <;> rfl
@[simp] theorem sampleBit_answer (k : BitVec 3) (x y : Sample) :
    (sampleBit k x y s).answer = s.answer := by unfold sampleBit; split <;> split <;> rfl
@[simp] theorem sampleBit_out (k : BitVec 3) (x y : Sample) :
    (sampleBit k x y s).out = s.out ++ [.marker .bit (clockOf k) y] := by
  unfold sampleBit Config.lastBit; split <;> split <;> simp_all
@[simp] theorem sampleBit_shift (k : BitVec 3) (x y : Sample) :
    (sampleBit k x y s).shift = shiftIn s.shift (s.level (dataOf k)) := by
  unfold sampleBit Config.lastBit; split <;> split <;> simp_all
@[simp] theorem sampleBit_byteStart (k : BitVec 3) (x y : Sample) :
    (sampleBit k x y s).byteStart = if k = 0 then x else s.byteStart := by
  unfold sampleBit Config.lastBit; split <;> split <;> simp_all
@[simp] theorem sampleBit_byteEnd (k : BitVec 3) (x y : Sample) :
    (sampleBit k x y s).byteEnd = if k = 7 then y else s.byteEnd := by
  unfold sampleBit Config.lastBit; split <;> split <;> simp_all
@[simp] theorem sampleBit_phase (k : BitVec 3) (x y : Sample) :
    (sampleBit k x y s).phase = if k = 7 then eocAssemble else eocBit := by
  unfold sampleBit Config.lastBit; split <;> split <;> simp_all
@[simp] theorem sampleBit_k (k : BitVec 3) (x y : Sample) :
    (sampleBit k x y s).k = if k = 7 then s.k else k + 1 := by
  unfold sampleBit Config.lastBit; split <;> split <;> simp_all

end Sys2Proof.Machine
end

