-- ==== Sys2Proof/Laws/Ops.lean ====
section
/-! SUPPORT. For each shared operation, once, everything it can do. -/

namespace Sys2Proof.Machine

/-! ## Sequencing -/

section
variable {α β : Type}

@[simp] theorem Flow.andThen_ok_left (a : α) (s : State) (f : α → State → Flow β) :
    (Flow.ok a s).andThen f = f a s := rfl
@[simp] theorem Flow.andThen_ended_left (s : State) (f : α → State → Flow β) :
    (Flow.ended s : Flow α).andThen f = .ended s := rfl
@[simp] theorem Flow.andThen_blocked_left (f : α → State → Flow β) :
    (Flow.blocked : Flow α).andThen f = .blocked := rfl
@[simp] theorem Flow.andThen_fault_left (r : Fault) (f : α → State → Flow β) :
    (Flow.fault r : Flow α).andThen f = .fault r := rfl

theorem Flow.andThen_eq_ok {x : Flow α} {f : α → State → Flow β} {b : β} {t : State} :
    x.andThen f = .ok b t ↔ ∃ a u, x = .ok a u ∧ f a u = .ok b t := by
  cases x <;> simp [Flow.andThen]

theorem Flow.andThen_eq_ended {x : Flow α} {f : α → State → Flow β} {t : State} :
    x.andThen f = .ended t ↔ x = .ended t ∨ ∃ a u, x = .ok a u ∧ f a u = .ended t := by
  cases x <;> simp [Flow.andThen]

theorem Flow.andThen_eq_blocked {x : Flow α} {f : α → State → Flow β} :
    x.andThen f = .blocked ↔ x = .blocked ∨ ∃ a u, x = .ok a u ∧ f a u = .blocked := by
  cases x <;> simp [Flow.andThen]

theorem Flow.andThen_eq_fault {x : Flow α} {f : α → State → Flow β} {r : Fault} :
    x.andThen f = .fault r ↔ x = .fault r ∨ ∃ a u, x = .ok a u ∧ f a u = .fault r := by
  cases x <;> simp [Flow.andThen]
end

/-- A step goes on from what its rule left, or has no effect. -/
theorem settle_eq_next {s t : State} {x : Flow Answer} :
    settle s x = .next t ↔
      (∃ a u, x = .ok a u ∧ t = u.answered a) ∨ (∃ u, x = .ended u ∧ t = u.answered .done) ∨
        (x = .blocked ∧ t = s.answered .blocked) := by
  cases x <;> simp [settle, eq_comm]

theorem settle_eq_fault {s : State} {x : Flow Answer} {r : Fault} :
    settle s x = .fault r ↔ x = .fault r := by
  cases x <;> simp [settle]

theorem settle_ne_refused {s : State} {x : Flow Answer} {r : Refusal} :
    settle s x ≠ .refused r := by
  cases x <;> simp [settle]

/-! ## Cursor commands -/

variable {s t : State} {c d : Ch} {x y : Sample}

theorem peekNext_eq_ok : peekNext c s = .ok y t ↔ s.upcoming c = some y ∧ t = s := by
  unfold peekNext
  cases s.upcoming c <;> simp [eq_comm]

theorem peekNext_eq_blocked : peekNext c s = .blocked ↔ s.upcoming c = none := by
  unfold peekNext
  split <;> simp_all

theorem peekNext_ne_ended : peekNext c s ≠ .ended t := by
  unfold peekNext
  split <;> simp

theorem peekNext_ne_fault {r : Fault} : peekNext c s ≠ .fault r := by
  unfold peekNext
  split <;> simp

theorem goNext_eq_ok {a : Unit} : goNext c s = .ok a t ↔
    ∃ y, s.upcoming c = some y ∧ t = s.setCur c ⟨y, (s.cur c).idx + 1⟩ := by
  unfold goNext
  cases s.upcoming c <;> simp [eq_comm]

theorem goNext_eq_blocked : goNext c s = .blocked ↔ s.upcoming c = none := by
  unfold goNext
  split <;> simp_all

theorem goNext_ne_ended : goNext c s ≠ .ended t := by
  unfold goNext
  split <;> simp

theorem goNext_ne_fault {r : Fault} : goNext c s ≠ .fault r := by
  unfold goNext
  split <;> simp

theorem advanceTo_eq_ok {n : Count} : advanceTo c x s = .ok n t ↔
    s.position c ≤ x ∧ x < s.horizon ∧ n = saturate (s.crossings c x) ∧
      t = s.setCur c ⟨x, (s.cur c).idx + BitVec.ofNat 64 (s.crossings c x)⟩ := by
  unfold advanceTo
  split
  · rename_i h
    simp [BitVec.not_le.2 h]
  · rename_i h
    split
    · rename_i h'
      simp [BitVec.not_lt.2 h']
    · rename_i h'
      simp [BitVec.not_lt.1 h, BitVec.not_le.1 h', eq_comm]

theorem advanceTo_eq_fault {r : Fault} :
    advanceTo c x s = .fault r ↔ x < s.position c ∧ r = .cursorBackward := by
  unfold advanceTo
  by_cases h : x < s.position c
  · rw [if_pos h]
    exact ⟨fun e => ⟨h, (Flow.fault.inj e).symm⟩, fun e => e.2 ▸ rfl⟩
  · rw [if_neg h]
    split <;> simp [h]

theorem advanceTo_eq_blocked :
    advanceTo c x s = .blocked ↔ s.position c ≤ x ∧ s.horizon ≤ x := by
  unfold advanceTo
  by_cases h : x < s.position c
  · simp [h, BitVec.not_le.2 h]
  · by_cases h' : s.horizon ≤ x
    · simp [h, h', BitVec.not_lt.1 h]
    · simp [h, h']

theorem advanceTo_ne_ended : advanceTo c x s ≠ .ended t := by
  unfold advanceTo
  split
  · simp
  · split <;> simp

theorem wouldCross_eq_ok {b : Bool} : wouldCross c x s = .ok b t ↔
    t = s ∧ ((b = true ∧ ∃ y, s.upcoming c = some y ∧ y ≤ x) ∨
      (b = false ∧ (∀ y, s.upcoming c = some y → x < y) ∧ x < s.horizon)) := by
  unfold wouldCross
  cases hu : s.upcoming c with
  | none =>
    by_cases h : x < s.horizon
    · simp only [if_pos h]
      exact ⟨fun e => by cases e; simp [h],
        by rintro ⟨rfl, ⟨rfl, y, hy, -⟩ | ⟨rfl, -, -⟩⟩ <;> simp_all⟩
    · simp [h]
  | some y =>
    by_cases h : y ≤ x
    · simp only [if_pos h]
      exact ⟨fun e => by cases e; simp [h],
        by rintro ⟨rfl, ⟨rfl, -⟩ | ⟨rfl, h1, -⟩⟩
           · rfl
           · exact absurd h (BitVec.not_le.2 (h1 y rfl))⟩
    · by_cases h' : x < s.horizon
      · simp only [if_neg h, if_pos h']
        exact ⟨fun e => by cases e; simpa [h'] using h,
          by rintro ⟨rfl, ⟨rfl, z, hz, hzx⟩ | ⟨rfl, -, -⟩⟩
             · cases hz; exact absurd hzx h
             · rfl⟩
      · simp [h, h']

theorem wouldCross_eq_blocked : wouldCross c x s = .blocked ↔
    (∀ y, s.upcoming c = some y → x < y) ∧ s.horizon ≤ x := by
  unfold wouldCross
  cases s.upcoming c with
  | none =>
    by_cases h : x < s.horizon
    · simp [h, BitVec.not_le.2 h]
    · simp [h, BitVec.not_lt.1 h]
  | some y =>
    simp only [Option.some.injEq, forall_eq']
    by_cases h : y ≤ x
    · simp [h, BitVec.not_lt.2 h]
    · by_cases h' : x < s.horizon
      · simp [h, h', BitVec.not_le.2 h']
      · simp [h, h', BitVec.not_le.1 h, BitVec.not_lt.1 h']

theorem wouldCross_ne_ended : wouldCross c x s ≠ .ended t := by
  unfold wouldCross
  split
  · split
    · simp
    · split <;> simp
  · split <;> simp

theorem wouldCross_ne_fault {r : Fault} : wouldCross c x s ≠ .fault r := by
  unfold wouldCross
  split
  · split
    · simp
    · split <;> simp
  · split <;> simp

theorem alignTo_eq_ok {a : Unit} : alignTo c d s = .ok a t ↔
    s.position c ≤ s.position d ∧ s.position d < s.horizon ∧
      t = s.setCur c ⟨s.position d, (s.cur c).idx + BitVec.ofNat 64 (s.crossings c (s.position d))⟩ := by
  simp only [alignTo, Flow.andThen_eq_ok, advanceTo_eq_ok, Flow.ok.injEq, true_and]
  constructor
  · rintro ⟨n, u, ⟨h1, h2, -, rfl⟩, rfl⟩
    exact ⟨h1, h2, rfl⟩
  · rintro ⟨h1, h2, rfl⟩
    exact ⟨_, _, ⟨h1, h2, rfl, rfl⟩, rfl⟩

theorem alignTo_ne_ended : alignTo c d s ≠ .ended t := by
  simp [alignTo, Flow.andThen_eq_ended, advanceTo_ne_ended]

theorem alignTo_eq_fault {r : Fault} :
    alignTo c d s = .fault r ↔ s.position d < s.position c ∧ r = .cursorBackward := by
  simp [alignTo, Flow.andThen_eq_fault, advanceTo_eq_fault]

/-! ## Codes of `phase` -/

@[simp] theorem decodePhase_align (k : BitVec 3) : decodePhase eocAlign k = some .align := rfl
@[simp] theorem decodePhase_start (k : BitVec 3) : decodePhase eocStart k = some .start := rfl
@[simp] theorem decodePhase_bit (k : BitVec 3) : decodePhase eocBit k = some (.bit k) := rfl
@[simp] theorem decodePhase_classify (k : BitVec 3) : decodePhase eocClassify k = some .classify := rfl
@[simp] theorem decodePhase_assemble (k : BitVec 3) : decodePhase eocAssemble k = some .assemble := rfl

@[simp] theorem decodePhase_halted (k : BitVec 3) : decodePhase eocHalted k = none := rfl

end Sys2Proof.Machine
end

