-- ==== Sys2Proof/Laws/Capture.lean ====
section
/-! SUPPORT. Under the capture invariant a cursor is the one that stands at its position, and every
operation on the trace or a cursor keeps the invariant. -/

namespace Sys2Proof.Machine

variable {s : State} {c : Ch} {x t : Sample}

@[simp] theorem cursorAt_pos (tr : Trace) (p : Sample) : (cursorAt tr p).pos = p := rfl

theorem Trace.Wf.increasing {tr : Trace} {h : Sample} (w : tr.Wf h) : tr.trans.Pairwise (· < ·) :=
  (strictlyIncreasing_iff _).1 w.1

theorem Trace.Wf.below {tr : Trace} {h : Sample} (w : tr.Wf h) : ∀ u ∈ tr.trans, u < h :=
  (allBelow_iff _ _).1 w.2

theorem Trace.Wf.length_lt {tr : Trace} {h : Sample} (w : tr.Wf h) : tr.trans.length < 2 ^ 64 :=
  Nat.lt_of_le_of_lt (length_le_of_increasing w.increasing w.below) h.isLt

theorem Trace.Wf.idx_toNat {tr : Trace} {h : Sample} (w : tr.Wf h) (p : Sample) :
    (cursorAt tr p).idx.toNat = countUpTo tr.trans p := by
  have := w.length_lt
  have := countUpTo_le_length tr.trans p
  simp only [cursorAt, BitVec.toNat_ofNat]
  exact Nat.mod_eq_of_lt (by omega)

theorem State.CaptureInv.wf (i : s.CaptureInv) (c : Ch) : (s.trace c).Wf s.horizon := by
  cases c
  · exact i.1.1
  · exact i.1.2

theorem State.CaptureInv.cursorOk (i : s.CaptureInv) (c : Ch) : s.CursorOk c := by
  cases c
  · exact i.2.1
  · exact i.2.2

theorem State.CaptureInv.idx_eq (i : s.CaptureInv) (c : Ch) :
    (s.cur c).idx.toNat = countUpTo (s.trace c).trans (s.position c) := (i.cursorOk c).1

theorem State.CaptureInv.position_lt (i : s.CaptureInv) (c : Ch) : s.position c < s.horizon :=
  (i.cursorOk c).2

/-- A sound cursor is determined by its position. -/
theorem State.CaptureInv.cur_eq (i : s.CaptureInv) (c : Ch) :
    s.cur c = cursorAt (s.trace c) (s.position c) := by
  have h : (s.cur c).idx = (cursorAt (s.trace c) (s.position c)).idx :=
    BitVec.eq_of_toNat_eq (by rw [(i.wf c).idx_toNat, i.idx_eq])
  show (⟨(s.cur c).pos, (s.cur c).idx⟩ : Cursor) = _
  rw [h]
  rfl

theorem State.CaptureInv.level_eq (i : s.CaptureInv) (c : Ch) :
    s.level c = (s.trace c).levelAt (s.position c) := by
  simp only [State.level, Trace.levelAt, i.idx_eq]

theorem State.CaptureInv.upcoming_eq (i : s.CaptureInv) (c : Ch) :
    s.upcoming c = (s.trace c).trans[countUpTo (s.trace c).trans (s.position c)]? := by
  simp only [State.upcoming, i.idx_eq]

/-- The next transition lies strictly after the cursor and is captured (R23, R102). -/
theorem State.CaptureInv.lt_upcoming (i : s.CaptureInv) (h : s.upcoming c = some t) :
    s.position c < t ∧ t < s.horizon := by
  rw [i.upcoming_eq] at h
  exact ⟨lt_of_getElem?_countUpTo (i.wf c).increasing h,
    (i.wf c).below t (List.mem_of_getElem? h)⟩

theorem State.CaptureInv.count_upcoming (i : s.CaptureInv) (h : s.upcoming c = some t) :
    countUpTo (s.trace c).trans t = countUpTo (s.trace c).trans (s.position c) + 1 := by
  rw [i.upcoming_eq] at h
  exact countUpTo_getElem? (i.wf c).increasing h

/-- NEXT leaves the cursor that stands at the transition (R103). -/
theorem State.CaptureInv.next_cursor (i : s.CaptureInv) (h : s.upcoming c = some t) :
    (⟨t, (s.cur c).idx + 1⟩ : Cursor) = cursorAt (s.trace c) t := by
  have h1 := i.count_upcoming h
  have h2 := (i.wf c).idx_toNat t
  have h3 := i.idx_eq c
  have : (s.cur c).idx + 1 = (cursorAt (s.trace c) t).idx := by
    refine BitVec.eq_of_toNat_eq ?_
    have := (cursorAt (s.trace c) t).idx.isLt
    rw [BitVec.toNat_add, h3, h2, h1]
    rw [h2, h1] at this
    exact Nat.mod_eq_of_lt (by simpa using this)
  rw [this]
  rfl

/-- The crossings of a forward move (R104). -/
theorem State.CaptureInv.crossings_eq (i : s.CaptureInv) (h : s.position c ≤ x) :
    s.crossings c x =
      countUpTo (s.trace c).trans x - countUpTo (s.trace c).trans (s.position c) := by
  have := countUpTo_drop (i.wf c).increasing h
  simp only [State.crossings, i.idx_eq]
  omega

/-- ADV leaves the cursor that stands at its target (R104). -/
theorem State.CaptureInv.advance_cursor (i : s.CaptureInv) (h : s.position c ≤ x) :
    (⟨x, (s.cur c).idx + BitVec.ofNat 64 (s.crossings c x)⟩ : Cursor) =
      cursorAt (s.trace c) x := by
  have h2 := (i.wf c).idx_toNat x
  have h3 := i.idx_eq c
  have h4 := i.crossings_eq h
  have h5 := countUpTo_mono (s.trace c).trans h
  have : (s.cur c).idx + BitVec.ofNat 64 (s.crossings c x) = (cursorAt (s.trace c) x).idx := by
    refine BitVec.eq_of_toNat_eq ?_
    have := (cursorAt (s.trace c) x).idx.isLt
    rw [h2] at this
    rw [BitVec.toNat_add, BitVec.toNat_ofNat, h3, h2, h4, Nat.add_mod_mod]
    rw [Nat.mod_eq_of_lt] <;> omega
  rw [this]
  rfl

/-- A cursor placed at a captured sample keeps the invariant. -/
theorem State.CaptureInv.setCur (i : s.CaptureInv) (hx : x < s.horizon) :
    (s.setCur c (cursorAt (s.trace c) x)).CaptureInv := by
  obtain ⟨⟨wA, wB⟩, oA, oB⟩ := i
  cases c
  · exact ⟨⟨wA, wB⟩, ⟨wA.idx_toNat x, hx⟩, oB⟩
  · exact ⟨⟨wA, wB⟩, oA, ⟨wB.idx_toNat x, hx⟩⟩

theorem State.CaptureInv.setCur_next (i : s.CaptureInv) (h : s.upcoming c = some t) :
    (s.setCur c ⟨t, (s.cur c).idx + 1⟩).CaptureInv := by
  rw [i.next_cursor h]
  exact i.setCur (i.lt_upcoming h).2

/-- The invariant speaks only of the cursors, the traces and the horizon. -/
theorem State.CaptureInv.congr {s u : State} (i : s.CaptureInv) (hA : u.curA = s.curA)
    (hB : u.curB = s.curB) (tA : u.traceA = s.traceA) (tB : u.traceB = s.traceB)
    (hh : u.horizon = s.horizon) : u.CaptureInv := by
  simp only [State.CaptureInv, State.TracesWf, State.CursorOk, State.cur, State.trace, hA, hB, tA,
    tB, hh] at i ⊢
  exact i

/-- An accepted extension keeps a trace well formed (R51, R182). -/
theorem Trace.Wf.extend {tr : Trace} {u : List Sample} {h : Sample} (w : tr.Wf s.horizon)
    (hh : s.horizon ≤ h) (ok : extensionOk s h u = true) :
    ({ tr with trans := tr.trans ++ u } : Trace).Wf h := by
  simp only [extensionOk, Bool.and_eq_true, strictlyIncreasing_iff, allFrom_iff, allBelow_iff] at ok
  obtain ⟨⟨hu, hf⟩, hb⟩ := ok
  refine ⟨(strictlyIncreasing_iff _).2 (List.pairwise_append.2 ⟨w.increasing, hu, ?_⟩),
    (allBelow_iff _ _).2 ?_⟩
  · intro a ha b hb
    exact sample_lt_of_lt_of_le (w.below a ha) (hf b hb)
  · intro a ha
    rcases List.mem_append.1 ha with ha | ha
    · exact sample_lt_of_lt_of_le (w.below a ha) hh
    · exact hb a ha

/-- An extension leaves every captured count as it is (R53). -/
theorem countUpTo_extend {l u : List Sample} {h : Sample} (hu : ∀ y ∈ u, h ≤ y) (hx : x < h) :
    countUpTo (l ++ u) x = countUpTo l x := by
  rw [countUpTo_append, countUpTo_eq_zero fun y hy => sample_lt_of_lt_of_le hx (hu y hy)]
  rfl

/-- RESET at captured positions leaves sound cursors (R210). -/
theorem State.CaptureInv.resetCore {m : Mode} {pA pB : Sample} (i : s.CaptureInv)
    (ok : resetAccepted s pA pB = true) : (resetCore m pA pB s).CaptureInv := by
  simp only [resetAccepted, Bool.and_eq_true, decide_eq_true_eq] at ok
  exact ⟨i.1, ⟨i.1.1.idx_toNat _, ok.1⟩, ⟨i.1.2.idx_toNat _, ok.2⟩⟩

/-- What an accepted EXTEND requires of one channel's list (R182). -/
theorem extensionOk_iff {h : Sample} {u : List Sample} : extensionOk s h u = true ↔
    u.Pairwise (· < ·) ∧ ∀ y ∈ u, s.horizon ≤ y ∧ y < h := by
  simp only [extensionOk, Bool.and_eq_true, strictlyIncreasing_iff, allFrom_iff, allBelow_iff]
  exact ⟨fun ⟨⟨a, b⟩, d⟩ => ⟨a, fun y hy => ⟨b y hy, d y hy⟩⟩,
    fun ⟨a, b⟩ => ⟨⟨a, fun y hy => (b y hy).1⟩, fun y hy => (b y hy).2⟩⟩

theorem extendAccepted_iff {uA uB : List Sample} {h : Sample} :
    extendAccepted s uA uB h = true ↔ s.final = false ∧ s.horizon ≤ h ∧
      extensionOk s h uA = true ∧ extensionOk s h uB = true := by
  simp [extendAccepted, and_assoc]

/-- An accepted EXTEND leaves the cursors sound on the longer traces (R53, R182). -/
theorem State.CaptureInv.extendTrace {uA uB : List Sample} {h : Sample} {fin : Bool}
    (i : s.CaptureInv) (ok : extendAccepted s uA uB h = true) :
    (extendTrace uA uB h fin s).CaptureInv := by
  obtain ⟨-, hh, hA, hB⟩ := extendAccepted_iff.1 ok
  refine ⟨⟨i.1.1.extend hh hA, i.1.2.extend hh hB⟩,
    ⟨?_, sample_lt_of_lt_of_le i.2.1.2 hh⟩, ⟨?_, sample_lt_of_lt_of_le i.2.2.2 hh⟩⟩
  · show (s.cur .a).idx.toNat = countUpTo (s.traceA.trans ++ uA) (s.cur .a).pos
    rw [countUpTo_extend (fun y hy => ((extensionOk_iff.1 hA).2 y hy).1) i.2.1.2]
    exact i.2.1.1
  · show (s.cur .b).idx.toNat = countUpTo (s.traceB.trans ++ uB) (s.cur .b).pos
    rw [countUpTo_extend (fun y hy => ((extensionOk_iff.1 hB).2 y hy).1) i.2.2.2]
    exact i.2.2.1

/-- A trace that the input boundary accepts is well formed (R51, R52). -/
theorem readTrace_wf {init : Bool} {records : List (Sample × Bool)} {h : Sample} {tr : Trace}
    (e : readTrace init records h = .ok tr) : tr.Wf h := by
  unfold readTrace at e
  split at e
  · cases e
  · split at e
    · rename_i ok
      cases e
      exact Bool.and_eq_true_iff.1 ok
    · cases e

end Sys2Proof.Machine
end

