-- ==== Sys2Proof/Laws/Rules.lean ====
section
/-! SUPPORT. For each engine rule, once, everything it can do: which cursor moves it makes, and what it
writes after them. -/

namespace Sys2Proof.Machine

/-- `t` is `s` with the cursors possibly moved; under the capture invariant they moved forward and the
invariant still holds. -/
def Forward (s t : State) : Prop :=
  (∃ v w, t = { s with curA := v, curB := w }) ∧
  (s.CaptureInv → t.CaptureInv ∧
    ∀ c, s.position c ≤ t.position c ∧ (s.cur c).idx.toNat ≤ (t.cur c).idx.toNat)

theorem Forward.refl (s : State) : Forward s s :=
  ⟨⟨s.curA, s.curB, rfl⟩, fun i => ⟨i, fun _ => ⟨BitVec.le_refl _, Nat.le_refl _⟩⟩⟩

theorem Forward.trans {s t u : State} (h : Forward s t) (h' : Forward t u) : Forward s u := by
  obtain ⟨⟨v, w, rfl⟩, f⟩ := h
  obtain ⟨⟨v', w', rfl⟩, f'⟩ := h'
  refine ⟨⟨v', w', rfl⟩, fun i => ⟨(f' (f i).1).1, fun c => ?_⟩⟩
  exact ⟨BitVec.le_trans ((f i).2 c).1 ((f' (f i).1).2 c).1,
    Nat.le_trans ((f i).2 c).2 ((f' (f i).1).2 c).2⟩

/-- Everything but the cursors is as it was. -/
theorem Forward.eq {s t : State} (h : Forward s t) :
    t = { s with curA := t.curA, curB := t.curB } := by
  obtain ⟨⟨v, w, rfl⟩, -⟩ := h
  rfl

theorem Forward.trace {s t : State} (h : Forward s t) (c : Ch) : t.trace c = s.trace c := by
  obtain ⟨⟨v, w, rfl⟩, -⟩ := h
  cases c <;> rfl

theorem Forward.horizon {s t : State} (h : Forward s t) : t.horizon = s.horizon := by
  obtain ⟨⟨v, w, rfl⟩, -⟩ := h
  rfl

theorem Forward.inv {s t : State} (h : Forward s t) (i : s.CaptureInv) : t.CaptureInv := (h.2 i).1

theorem Forward.le {s t : State} (h : Forward s t) (i : s.CaptureInv) (c : Ch) :
    s.position c ≤ t.position c := ((h.2 i).2 c).1

theorem Forward.idx_le {s t : State} (h : Forward s t) (i : s.CaptureInv) (c : Ch) :
    (s.cur c).idx.toNat ≤ (t.cur c).idx.toNat := ((h.2 i).2 c).2

theorem setCur_eq (s : State) (c : Ch) (v : Cursor) :
    ∃ x y, s.setCur c v = { s with curA := x, curB := y } := by
  cases c
  · exact ⟨v, s.curB, rfl⟩
  · exact ⟨s.curA, v, rfl⟩

/-- A cursor moved to a captured sample at or after its position. -/
theorem Forward.setCur {s : State} {c : Ch} {v : Cursor}
    (h : s.CaptureInv → ∃ x, v = cursorAt (s.trace c) x ∧ s.position c ≤ x ∧ x < s.horizon) :
    Forward s (s.setCur c v) := by
  refine ⟨setCur_eq s c v, fun i => ?_⟩
  obtain ⟨x, rfl, hp, hx⟩ := h i
  refine ⟨i.setCur hx, fun d => ?_⟩
  by_cases hd : d = c
  · subst hd
    refine ⟨by simpa [State.position] using hp, ?_⟩
    rw [State.setCur_cur, (i.wf d).idx_toNat, i.idx_eq]
    exact countUpTo_mono _ hp
  · rw [State.setCur_cur_ne _ _ _ _ hd]
    refine ⟨?_, Nat.le_refl _⟩
    simp only [State.position, State.setCur_cur_ne _ _ _ _ hd]
    exact BitVec.le_refl _

variable {s t : State} {c d : Ch} {x y : Sample}

theorem forward_next {a : Unit} (h : goNext c s = .ok a t) : Forward s t := by
  obtain ⟨y, hy, rfl⟩ := goNext_eq_ok.1 h
  exact .setCur fun i => ⟨y, i.next_cursor hy, sample_le_of_lt (i.lt_upcoming hy).1,
    (i.lt_upcoming hy).2⟩

theorem forward_advance {n : Count} (h : advanceTo c x s = .ok n t) : Forward s t := by
  obtain ⟨hp, hx, -, rfl⟩ := advanceTo_eq_ok.1 h
  exact .setCur fun i => ⟨x, i.advance_cursor hp, hp, hx⟩

theorem position_advance {n : Count} (h : advanceTo c x s = .ok n t) :
    t.position c = x ∧ t.cur (other c) = s.cur (other c) := by
  obtain ⟨-, -, -, rfl⟩ := advanceTo_eq_ok.1 h
  simp [State.position]

theorem position_next {a : Unit} (h : goNext c s = .ok a t) :
    s.upcoming c = some (t.position c) ∧ t.cur (other c) = s.cur (other c) := by
  obtain ⟨y, hy, rfl⟩ := goNext_eq_ok.1 h
  simp [State.position, hy]

/-- NEXT passes a transition. -/
theorem idx_next {a : Unit} (i : s.CaptureInv) (h : goNext c s = .ok a t) :
    (t.cur c).idx.toNat = (s.cur c).idx.toNat + 1 := by
  have f := forward_next h
  obtain ⟨y, hy, rfl⟩ := goNext_eq_ok.1 h
  have h1 := (f.inv i).idx_eq c
  have h2 := i.count_upcoming hy
  have h3 := i.idx_eq c
  simp only [State.position, State.setCur_cur, State.setCur_trace] at h1 h2 h3 ⊢
  omega

/-- NEXT flips the level of its line and leaves the other's (R103). -/
theorem level_next {a : Unit} (h : goNext c s = .ok a t) :
    t.level c = !s.level c ∧ t.level (other c) = s.level (other c) := by
  obtain ⟨y, hy, rfl⟩ := goNext_eq_ok.1 h
  refine ⟨?_, by simp [State.level]⟩
  simp only [State.level, State.setCur_cur, State.setCur_trace]
  rw [← levelAfter_succ]
  simp only [levelAfter, BitVec.toNat_add]
  congr 2
  simp only [BitVec.reduceToNat, eq_iff_iff]
  omega

theorem level_advance {n : Count} (h : advanceTo c x s = .ok n t) :
    t.level (other c) = s.level (other c) := by
  obtain ⟨-, -, -, rfl⟩ := advanceTo_eq_ok.1 h
  simp [State.level]

theorem alignTo_advance {a : Unit} (h : alignTo c d s = .ok a t) :
    ∃ n, advanceTo c (s.position d) s = .ok n t := by
  obtain ⟨n, u, hn, hu⟩ := Flow.andThen_eq_ok.1 h
  cases hu
  exact ⟨n, hn⟩

/-! ## ALIGN -/

theorem alignPositions_ok {a : Unit} (h : alignPositions s = .ok a t) :
    Forward s t ∧ t.position .a = t.position .b := by
  unfold alignPositions at h
  split at h
  · obtain ⟨n, hn⟩ := alignTo_advance h
    refine ⟨forward_advance hn, ?_⟩
    obtain ⟨h1, h2⟩ := position_advance hn
    simp only [other] at h2
    simp only [State.position] at h1 ⊢
    rw [h1, h2]
  · rename_i h1
    split at h
    · obtain ⟨n, hn⟩ := alignTo_advance h
      refine ⟨forward_advance hn, ?_⟩
      obtain ⟨h1, h2⟩ := position_advance hn
      simp only [other] at h2
      simp only [State.position] at h1 ⊢
      rw [h1, h2]
    · rename_i h2
      cases h
      exact ⟨.refl s, BitVec.le_antisymm (BitVec.not_lt.1 h2) (BitVec.not_lt.1 h1)⟩

/-- A branch of (b) moves nothing where its line is high; else it passes a transition and leaves its
line high and the positions equal. -/
theorem raiseLow_ok {a : Unit} (h : raiseLow c s = .ok a t) :
    Forward s t ∧
      ((s.level c = true ∧ t = s) ∨
        (s.level c = false ∧ t.position .a = t.position .b ∧ t.level c = true ∧
          (s.CaptureInv → (s.cur c).idx.toNat < (t.cur c).idx.toNat))) := by
  unfold raiseLow at h
  split at h
  · rename_i hl
    obtain ⟨b, u, hn, hu⟩ := Flow.andThen_eq_ok.1 h
    obtain ⟨n, ha⟩ := alignTo_advance hu
    have f := forward_next hn
    have g := forward_advance ha
    refine ⟨f.trans g, .inr ⟨hl, ?_, ?_, ?_⟩⟩
    · obtain ⟨h1, h2⟩ := position_advance ha
      rw [other_other] at h2
      have h3 : t.position c = u.position c := by simp only [State.position, h2]
      rw [← h3] at h1
      cases c
      · exact h1.symm
      · exact h1
    · have := level_advance ha
      rw [other_other] at this
      rw [this, (level_next hn).1, hl]
      rfl
    · intro i
      have h1 := idx_next i hn
      have h2 := g.idx_le (f.inv i) c
      omega
  · rename_i hl
    cases h
    exact ⟨.refl s, .inl ⟨by simpa using hl, rfl⟩⟩

theorem alignPositions_ne_ended : alignPositions s ≠ .ended t := by
  unfold alignPositions
  split
  · exact alignTo_ne_ended
  · split
    · exact alignTo_ne_ended
    · simp

theorem raiseLow_ne_ended : raiseLow c s ≠ .ended t := by
  unfold raiseLow
  split
  · simp [Flow.andThen_eq_ended, goNext_ne_ended, alignTo_ne_ended]
  · simp

theorem alignRule_ne_ended : alignRule s ≠ .ended t := by
  simp [alignRule, Flow.andThen_eq_ended, alignPositions_ne_ended, raiseLow_ne_ended]

/-- All that ALIGN can do (R120 to R122): it moves the cursors forward, leaves them at one sample, and
writes `phase` by the termination test; where a line is low at the end, it has passed a transition. -/
theorem alignRule_ok {a : Answer} (h : alignRule s = .ok a t) :
    a = .done ∧ ∃ u, Forward s u ∧ u.position .a = u.position .b ∧ t = neutralTest u ∧
      (s.CaptureInv → ¬ (u.level .a = true ∧ u.level .b = true) → s.passed < u.passed) := by
  simp only [alignRule, Flow.andThen_eq_ok, Flow.ok.injEq] at h
  obtain ⟨_, s1, h1, _, s2, h2, _, s3, h3, rfl, rfl⟩ := h
  obtain ⟨f1, e1⟩ := alignPositions_ok h1
  obtain ⟨f2, e2⟩ := raiseLow_ok h2
  obtain ⟨f3, e3⟩ := raiseLow_ok h3
  refine ⟨rfl, s3, (f1.trans f2).trans f3, ?_, rfl, ?_⟩
  · rcases e3 with ⟨-, rfl⟩ | ⟨-, e, -, -⟩
    · rcases e2 with ⟨-, rfl⟩ | ⟨-, e, -, -⟩
      · exact e1
      · exact e
    · exact e
  · intro i hl
    have i1 := f1.inv i
    have i2 := f2.inv i1
    have a1 := f1.idx_le i .a
    have b1 := f1.idx_le i .b
    have a2 := f2.idx_le i1 .a
    have b2 := f2.idx_le i1 .b
    have a3 := f3.idx_le i2 .a
    have b3 := f3.idx_le i2 .b
    simp only [State.cur_a, State.cur_b] at a1 b1 a2 b2 a3 b3
    unfold State.passed
    rcases e3 with ⟨l3, rfl⟩ | ⟨-, -, -, h3⟩
    · rcases e2 with ⟨l2, rfl⟩ | ⟨-, -, -, h2⟩
      · exact absurd ⟨l2, l3⟩ hl
      · have := h2 i1
        simp only [State.cur_a] at this
        omega
    · have := h3 i2
      simp only [State.cur_b] at this
      omega

/-! ## START -/

theorem startWindow_ok {w : Sample × Sample} (h : startWindow s = .ok w t) :
    Forward s t ∧ w.1 = t.position .a ∧ t.upcoming .a = some w.2 ∧
      goNext .a s = .ok () t := by
  simp only [startWindow, Flow.andThen_eq_ok, Flow.ok.injEq, peekNext_eq_ok] at h
  obtain ⟨_, s1, h1, e, _, ⟨he, rfl⟩, rfl, rfl⟩ := h
  exact ⟨forward_next h1, rfl, he, h1⟩

theorem burstToggle_ok {first : Bool} {a : Unit} (h : burstToggle x y first s = .ok a t) :
    Forward s t ∧ t.cur .a = s.cur .a := by
  simp only [burstToggle, Flow.andThen_eq_ok, peekNext_eq_ok] at h
  obtain ⟨z, _, ⟨hz, rfl⟩, h⟩ := h
  split at h
  · cases h
  · split at h
    · cases h
    · exact ⟨forward_next h, (position_next h).2⟩

theorem burstToggle_ended {first : Bool} (h : burstToggle x y first s = .ended t) :
    ∃ err, (err = .startEarly ∨ err = .startShort) ∧ t = s.resync err := by
  simp only [burstToggle, Flow.andThen_eq_ended, peekNext_eq_ok, peekNext_ne_ended, false_or] at h
  obtain ⟨z, _, ⟨hz, rfl⟩, h⟩ := h
  split at h
  · cases h
    exact ⟨_, .inl rfl, rfl⟩
  · split at h
    · cases h
      exact ⟨_, .inr rfl, rfl⟩
    · exact absurd h goNext_ne_ended

theorem startBurst_ok {n : Nat} {first : Bool} {a : Unit} (h : startBurst x y n first s = .ok a t) :
    Forward s t ∧ t.cur .a = s.cur .a := by
  induction n generalizing s first with
  | zero =>
    cases h
    exact ⟨.refl _, rfl⟩
  | succ n ih =>
    obtain ⟨_, u, h1, h2⟩ := Flow.andThen_eq_ok.1 h
    obtain ⟨f1, e1⟩ := burstToggle_ok h1
    obtain ⟨f2, e2⟩ := ih h2
    exact ⟨f1.trans f2, e2.trans e1⟩

theorem startBurst_ended {n : Nat} {first : Bool} (h : startBurst x y n first s = .ended t) :
    ∃ u err, Forward s u ∧ u.cur .a = s.cur .a ∧ (err = .startEarly ∨ err = .startShort) ∧
      t = u.resync err := by
  induction n generalizing s first with
  | zero => cases h
  | succ n ih =>
    rcases Flow.andThen_eq_ended.1 h with h | ⟨_, u, h1, h2⟩
    · obtain ⟨err, he, ht⟩ := burstToggle_ended h
      exact ⟨s, err, .refl s, rfl, he, ht⟩
    · obtain ⟨f1, e1⟩ := burstToggle_ok h1
      obtain ⟨v, err, f2, e2, he, rfl⟩ := ih h2
      exact ⟨v, err, f1.trans f2, e2.trans e1, he, rfl⟩

theorem noFifthToggle_ok {a : Unit} (h : noFifthToggle x s = .ok a t) :
    t = s ∧ (∀ y, s.upcoming .b = some y → x < y) ∧ x < s.horizon := by
  simp only [noFifthToggle, Flow.andThen_eq_ok, wouldCross_eq_ok] at h
  obtain ⟨b, _, ⟨rfl, ⟨rfl, -⟩ | ⟨rfl, hq, hx⟩⟩, h⟩ := h
  · cases h
  · cases h
    exact ⟨rfl, hq, hx⟩

theorem noFifthToggle_ended (h : noFifthToggle x s = .ended t) : t = s.resync .startLong := by
  simp only [noFifthToggle, Flow.andThen_eq_ended, wouldCross_eq_ok, wouldCross_ne_ended,
    false_or] at h
  obtain ⟨b, _, ⟨rfl, -⟩, h⟩ := h
  split at h <;> cases h
  rfl

theorem refinedEnd_ok {z : Sample} (h : refinedEnd s = .ok z t) :
    goNext .b s = .ok () t ∧ z = t.position .b := by
  simp only [refinedEnd, Flow.andThen_eq_ok, Flow.ok.injEq] at h
  obtain ⟨_, u, h1, rfl, rfl⟩ := h
  exact ⟨h1, rfl⟩

theorem refinedEnd_ne_ended : refinedEnd s ≠ .ended t := by
  simp [refinedEnd, Flow.andThen_eq_ended, goNext_ne_ended]

theorem quietUntil_ok {a : Unit} (h : quietUntil x s = .ok a t) :
    goNext .a s = .ok () t ∧ (∀ y, t.upcoming .a = some y → x < y) ∧ x < t.horizon := by
  simp only [quietUntil, Flow.andThen_eq_ok, wouldCross_eq_ok] at h
  obtain ⟨_, u, h1, b, _, ⟨rfl, ⟨rfl, -⟩ | ⟨rfl, hq, hx⟩⟩, h⟩ := h
  · cases h
  · cases h
    exact ⟨h1, hq, hx⟩

theorem quietUntil_ended (h : quietUntil x s = .ended t) :
    ∃ u, goNext .a s = .ok () u ∧ t = u.resync .startTrail := by
  simp only [quietUntil, Flow.andThen_eq_ended, goNext_ne_ended, wouldCross_eq_ok,
    wouldCross_ne_ended, false_or] at h
  obtain ⟨_, u, h1, b, _, ⟨rfl, -⟩, h⟩ := h
  split at h <;> cases h
  exact ⟨_, h1, rfl⟩

/-- A validated START (R124 to R129): the cursors have moved forward to one sample, after A's first
falling edge, which is the start marker's sample. -/
theorem startRule_ok {a : Answer} (h : startRule s = .ok a t) :
    a = .done ∧ ∃ u v, goNext .a s = .ok () u ∧ Forward u v ∧ v.position .a = v.position .b ∧
      t = beginPacket (u.position .a) v := by
  simp only [startRule, Flow.andThen_eq_ok, Flow.ok.injEq] at h
  obtain ⟨w, s1, h1, _, s2, h2, _, s3, h3, z, s4, h4, _, s5, h5, n, s6, h6, rfl, rfl⟩ := h
  obtain ⟨f1, e1, -, g1⟩ := startWindow_ok h1
  obtain ⟨f2, -⟩ := startBurst_ok h2
  obtain ⟨rfl, -⟩ := noFifthToggle_ok h3
  obtain ⟨g4, e4⟩ := refinedEnd_ok h4
  obtain ⟨g5, -⟩ := quietUntil_ok h5
  refine ⟨rfl, s1, s6, g1, ((f2.trans (forward_next g4)).trans (forward_next g5)).trans
    (forward_advance h6), ?_, by rw [e1]⟩
  obtain ⟨p6, q6⟩ := position_advance h6
  have q5 := (position_next g5).2
  simp only [other] at q5 q6
  rw [p6, e4]
  simp only [State.position, q6, q5]

/-- A failed START (R130): the cursors have moved forward, A past its first falling edge, and nothing
is written but by the resync. -/
theorem startRule_ended (h : startRule s = .ended t) :
    ∃ u v err, goNext .a s = .ok () u ∧ Forward u v ∧
      (err = .startEarly ∨ err = .startShort ∨ err = .startLong ∨ err = .startTrail) ∧
      t = v.resync err := by
  simp only [startRule, Flow.andThen_eq_ended, reduceCtorEq, and_false,
    exists_false, or_false] at h
  rcases h with h | ⟨w, s1, h1, h⟩
  · simp [startWindow, Flow.andThen_eq_ended, goNext_ne_ended, peekNext_ne_ended] at h
  obtain ⟨f1, e1, -, g1⟩ := startWindow_ok h1
  rcases h with h | ⟨_, s2, h2, h⟩
  · obtain ⟨u, err, f, -, he, rfl⟩ := startBurst_ended h
    exact ⟨s1, u, err, g1, f, by tauto, rfl⟩
  obtain ⟨f2, -⟩ := startBurst_ok h2
  rcases h with h | ⟨_, s3, h3, h⟩
  · exact ⟨s1, s2, _, g1, f2, by tauto, noFifthToggle_ended h⟩
  obtain ⟨rfl, -⟩ := noFifthToggle_ok h3
  rcases h with h | ⟨z, s4, h4, h⟩
  · exact absurd h refinedEnd_ne_ended
  obtain ⟨g4, -⟩ := refinedEnd_ok h4
  rcases h with h | ⟨_, s5, h5, h⟩
  · obtain ⟨u, gu, rfl⟩ := quietUntil_ended h
    exact ⟨s1, u, _, g1, (f2.trans (forward_next g4)).trans (forward_next gu), by tauto, rfl⟩
  · exact absurd h advanceTo_ne_ended

/-! ## BIT -/

theorem clockEdge_ok {k : BitVec 3} {z : Sample} (h : clockEdge k s = .ok z t) :
    ∃ u, Forward s u ∧ u.cur (dataOf k) = s.cur (dataOf k) ∧
      goNext (clockOf k) u = .ok () t ∧ z = t.position (clockOf k) ∧
      u.level (clockOf k) = true := by
  simp only [clockEdge, Flow.andThen_eq_ok, Flow.ok.injEq] at h
  obtain ⟨_, u, h1, _, v, h2, rfl, rfl⟩ := h
  unfold skipLow at h1
  split at h1
  · rename_i hl
    exact ⟨u, forward_next h1, (position_next h1).2, h2, rfl, by rw [(level_next h1).1, hl]; rfl⟩
  · rename_i hl
    cases h1
    exact ⟨s, .refl s, rfl, h2, rfl, by simpa using hl⟩

theorem clockEdge_ne_ended {k : BitVec 3} : clockEdge k s ≠ .ended t := by
  unfold clockEdge skipLow
  split <;> simp [Flow.andThen_eq_ended, goNext_ne_ended]

/-- The moves of BIT k (R140): both cursors end at the clock's falling edge, which passes a
transition; the clock line is low there. -/
theorem bitRule_moves {k : BitVec 3} {z : Sample} {n : Count} {u v : State}
    (h1 : clockEdge k s = .ok z u) (h2 : advanceTo (dataOf k) z u = .ok n v) :
    Forward s v ∧ v.position .a = z ∧ v.position .b = z ∧ v.level (clockOf k) = false ∧
      (s.CaptureInv → s.position (clockOf k) < z ∧ s.passed < v.passed) := by
  obtain ⟨w, f, e, g, rfl, l⟩ := clockEdge_ok h1
  have f2 := forward_next g
  have f3 := forward_advance h2
  obtain ⟨p3, q3⟩ := position_advance h2
  have hother : other (dataOf k) = clockOf k := by simp [dataOf]
  rw [hother] at q3
  have pk : v.position (clockOf k) = u.position (clockOf k) := by simp only [State.position, q3]
  have hl : v.level (clockOf k) = false := by
    have := level_advance h2
    rw [hother] at this
    rw [this, (level_next g).1, l]
    rfl
  have hboth : v.position .a = u.position (clockOf k) ∧ v.position .b = u.position (clockOf k) := by
    unfold dataOf at p3
    generalize clockOf k = c at *
    cases c
    · exact ⟨pk, p3⟩
    · exact ⟨p3, pk⟩
  refine ⟨(f.trans f2).trans f3, hboth.1, hboth.2, hl, fun i => ?_⟩
  have i1 := f.inv i
  have i2 := f2.inv i1
  have hup := (i1.lt_upcoming (position_next g).1).1
  refine ⟨sample_lt_of_le_of_lt (f.le i _) hup, ?_⟩
  have hn := idx_next i1 g
  have a1 := f.idx_le i .a
  have b1 := f.idx_le i .b
  have a2 := f2.idx_le i1 .a
  have b2 := f2.idx_le i1 .b
  have a3 := f3.idx_le i2 .a
  have b3 := f3.idx_le i2 .b
  unfold State.passed
  generalize clockOf k = c at *
  cases c <;> simp only [State.cur_a, State.cur_b] at * <;> omega

/-- What BIT k writes after its moves (R140 to R144). -/
theorem judgeBit_cases (k : BitVec 3) (entry z : Sample) (n : Count) (v : State) :
    judgeBit k entry z n v = .ok .done (sampleBit k entry z v) ∨
    (k = 0 ∧ judgeBit k entry z n v = .ok .done (v.setPhase eocClassify)) ∨
    judgeBit k entry z n v =
      .ended (v.resync (if k = 0 then .endTooMany else .bitTiming)) := by
  unfold judgeBit classifyCount
  by_cases hk : k = 0
  · rw [if_pos hk, if_pos hk]
    by_cases h1 : n ≤ 1
    · rw [if_pos h1]
      exact .inl rfl
    · rw [if_neg h1]
      by_cases h2 : n = 2
      · rw [if_pos h2]
        exact .inr (.inl ⟨hk, rfl⟩)
      · rw [if_neg h2]
        exact .inr (.inr rfl)
  · rw [if_neg hk, if_neg hk]
    by_cases h1 : 1 < n
    · rw [if_pos h1]
      exact .inr (.inr rfl)
    · rw [if_neg h1]
      exact .inl rfl

/-- All that BIT k can do. -/
theorem bitRule_ok {k : BitVec 3} {a : Answer} (h : bitRule k s = .ok a t) :
    a = .done ∧ ∃ z n u v, clockEdge k s = .ok z u ∧ advanceTo (dataOf k) z u = .ok n v ∧
      (t = sampleBit k (s.position .a) z v ∨ (k = 0 ∧ t = v.setPhase eocClassify)) := by
  simp only [bitRule, Flow.andThen_eq_ok] at h
  obtain ⟨z, u, h1, n, v, h2, h3⟩ := h
  rcases judgeBit_cases k (s.position .a) z n v with e | ⟨hk, e⟩ | e
  · rw [e] at h3
    cases h3
    exact ⟨rfl, z, n, u, v, h1, h2, .inl rfl⟩
  · rw [e] at h3
    cases h3
    exact ⟨rfl, z, n, u, v, h1, h2, .inr ⟨hk, rfl⟩⟩
  · rw [e] at h3
    cases h3

theorem bitRule_ended {k : BitVec 3} (h : bitRule k s = .ended t) :
    ∃ z n u v, clockEdge k s = .ok z u ∧ advanceTo (dataOf k) z u = .ok n v ∧
      t = v.resync (if k = 0 then .endTooMany else .bitTiming) := by
  simp only [bitRule, Flow.andThen_eq_ended, clockEdge_ne_ended, advanceTo_ne_ended,
    false_or] at h
  obtain ⟨z, u, h1, n, v, h2, h3⟩ := h
  rcases judgeBit_cases k (s.position .a) z n v with e | ⟨hk, e⟩ | e
  · rw [e] at h3
    cases h3
  · rw [e] at h3
    cases h3
  · rw [e] at h3
    cases h3
    exact ⟨z, n, u, v, h1, h2, rfl⟩

/-! ## CLASSIFY -/

theorem countClock_ok {left cnt m : Nat} (h : countClock x left cnt s = .ok m t) :
    Forward s t ∧ t.cur .b = s.cur .b ∧ (t = s ∨ t.position .a < x) := by
  induction left generalizing s cnt with
  | zero =>
    cases h
    exact ⟨.refl _, rfl, .inl rfl⟩
  | succ left ih =>
    simp only [countClock, Flow.andThen_eq_ok, peekNext_eq_ok] at h
    obtain ⟨z, _, ⟨hz, rfl⟩, h⟩ := h
    split at h
    · rename_i hlt
      obtain ⟨_, u, h1, h2⟩ := Flow.andThen_eq_ok.1 h
      obtain ⟨f2, e2, o2⟩ := ih h2
      obtain ⟨p1, q1⟩ := position_next h1
      refine ⟨(forward_next h1).trans f2, e2.trans q1, .inr ?_⟩
      rcases o2 with rfl | o2
      · rw [hz] at p1
        rw [← Option.some.inj p1]
        exact hlt
      · exact o2
    · cases h
      exact ⟨.refl _, rfl, .inl rfl⟩

theorem countClock_ne_ended {left cnt : Nat} : countClock x left cnt s ≠ .ended t := by
  induction left generalizing s cnt with
  | zero => simp [countClock]
  | succ left ih =>
    simp only [countClock, ne_eq, Flow.andThen_eq_ended, peekNext_ne_ended, peekNext_eq_ok, false_or]
    rintro ⟨z, _, ⟨hz, rfl⟩, h⟩
    split at h
    · rcases Flow.andThen_eq_ended.1 h with h | ⟨_, u, -, h⟩
      · exact goNext_ne_ended h
      · exact ih h
    · cases h

theorem fourthClock_ok {m : Nat} {b : Bool} (h : fourthClock m x s = .ok b t) : t = s := by
  unfold fourthClock at h
  split at h
  · exact (wouldCross_eq_ok.1 h).1
  · cases h
    rfl

theorem fourthClock_ne_ended {m : Nat} : fourthClock m x s ≠ .ended t := by
  unfold fourthClock
  split
  · exact wouldCross_ne_ended
  · simp

theorem endPacket_ok {a : Answer} (h : endPacket x s = .ok a t) :
    a = .done ∧ ∃ n m u v, advanceTo .a x s = .ok n u ∧ advanceTo .b x u = .ok m v ∧
      t = { v with out := s.out ++ [.marker .stop .a x, .marker .stop .b x], phase := eocAlign } := by
  simp only [endPacket, Flow.andThen_eq_ok, advanceTo_eq_ok, Flow.ok.injEq] at h
  obtain ⟨n, u, ⟨h1, h2, rfl, rfl⟩, m, v, ⟨h3, h4, rfl, rfl⟩, rfl, rfl⟩ := h
  refine ⟨rfl, _, _, _, _, advanceTo_eq_ok.2 ⟨?_, ?_, rfl, rfl⟩, advanceTo_eq_ok.2 ⟨?_, ?_, rfl, rfl⟩, ?_⟩
  · simpa using h1
  · simpa using h2
  · simpa [State.position] using h3
  · simpa using h4
  · simp [State.setCur, State.emit, State.setPhase, State.crossings, State.cur, State.trace]

theorem endPacket_ne_ended : endPacket x s ≠ .ended t := by
  simp [endPacket, Flow.andThen_eq_ended, advanceTo_ne_ended]

/-- CLASSIFY at End (R146, R147). -/
theorem classifyRule_ok {a : Answer} (h : classifyRule s = .ok a t) :
    a = .done ∧ ∃ me v, s.upcoming .b = some me ∧ Forward s v ∧ v.position .a = me ∧
      v.position .b = me ∧
      t = { v with out := s.out ++ [.marker .stop .a me, .marker .stop .b me],
                   phase := eocAlign } := by
  simp only [classifyRule, Flow.andThen_eq_ok, peekNext_eq_ok] at h
  obtain ⟨me, _, ⟨hme, rfl⟩, m, s1, h1, b, s2, h2, h3⟩ := h
  obtain ⟨f1, -, -⟩ := countClock_ok h1
  obtain rfl := fourthClock_ok h2
  split at h3
  · obtain ⟨rfl, n, n', u, v, g1, g2, rfl⟩ := endPacket_ok h3
    refine ⟨rfl, me, v, hme, (f1.trans (forward_advance g1)).trans (forward_advance g2), ?_,
      (position_advance g2).1, ?_⟩
    · have := (position_advance g2).2
      simp only [other] at this
      rw [← (position_advance g1).1]
      simp only [State.position, this]
    · rw [f1.eq]
  · cases h3
  · cases h3

/-- CLASSIFY at Error (R148): A's counted transitions stay consumed, B has not moved. -/
theorem classifyRule_ended (h : classifyRule s = .ended t) :
    ∃ v, Forward s v ∧ v.cur .b = s.cur .b ∧ t = v.resync .endAmbig := by
  simp only [classifyRule, Flow.andThen_eq_ended, peekNext_eq_ok, peekNext_ne_ended,
    countClock_ne_ended, fourthClock_ne_ended, false_or] at h
  obtain ⟨me, _, ⟨hme, rfl⟩, m, s1, h1, b, s2, h2, h3⟩ := h
  obtain ⟨f1, e1, -⟩ := countClock_ok h1
  obtain rfl := fourthClock_ok h2
  split at h3
  · exact absurd h3 endPacket_ne_ended
  · cases h3
    exact ⟨s2, f1, e1, rfl⟩
  · cases h3
    exact ⟨s2, f1, e1, rfl⟩

/-! ## ASSEMBLE -/

/-- All that ASSEMBLE can do (R161, R168). -/
theorem assembleRule_ok {a : Answer} (h : assembleRule s = .ok a t) :
    a = .done ∧ ∃ ps events,
      assembleByte s.modeReg s.shift s.byteStart s.byteEnd s.ps = .ok (ps, events) ∧
      t = { s with ps := ps, out := s.out ++ events, k := 0, shift := 0, phase := eocBit } := by
  unfold assembleRule at h
  split at h
  · cases h
  · rename_i ps events e
    cases h
    exact ⟨rfl, ps, events, e, rfl⟩

theorem assembleRule_ne_ended : assembleRule s ≠ .ended t := by
  unfold assembleRule
  split <;> simp

theorem assembleRule_ne_blocked : assembleRule s ≠ .blocked := by
  unfold assembleRule
  split <;> simp

end Sys2Proof.Machine
end

