-- ==== Sys2Proof/Laws/Blocked.lean ====
section
/-! SUPPORT. When the parts of the engine's rules are Blocked (spec/20_memory.md R53,
spec/60_exceptions.md R194), and the transitions that lie ahead of a sound cursor. -/

namespace Sys2Proof.Machine

variable {s t : State} {c : Ch} {x y : Sample}

/-! ## Transitions ahead -/

/-- The first transition after a sample is the one past those at or before it (R102). -/
theorem nextAfter_eq {tr : Trace} {h : Sample} (w : tr.Wf h) (x : Sample) :
    tr.nextAfter x = tr.trans[countUpTo tr.trans x]? := by
  have hl := w.increasing
  unfold Trace.nextAfter
  generalize tr.trans = l at hl
  induction l with
  | nil => rfl
  | cons z l ih =>
    rw [List.pairwise_cons] at hl
    rw [List.find?_cons, countUpTo_cons]
    by_cases hz : x < z
    · have h0 := countUpTo_eq_zero fun u hu => BitVec.lt_trans hz (hl.1 u hu)
      simp [hz, h0, BitVec.not_le.2 hz]
    · simp only [hz, decide_false, ih hl.2, BitVec.not_lt.1 hz, if_true]
      rw [List.getElem?_cons_succ]

theorem State.CaptureInv.nextAfter_position (i : s.CaptureInv) (c : Ch) :
    (s.trace c).nextAfter (s.position c) = s.upcoming c := by
  rw [nextAfter_eq (i.wf c), i.upcoming_eq]

/-- After NEXT, the transitions ahead are those ahead before but the first (R103). -/
theorem ahead_next {a : Unit} (i : s.CaptureInv) (h : goNext c s = .ok a t) (j : Nat) :
    (t.trace c).trans[(t.cur c).idx.toNat + j]? =
      (s.trace c).trans[(s.cur c).idx.toNat + (j + 1)]? := by
  rw [idx_next i h, (forward_next h).trace, Nat.add_assoc, Nat.add_comm 1 j]

/-! ## ALIGN -/

/-- Bringing a cursor to the other's captured sample never blocks (R104). -/
theorem alignTo_ne_blocked {d : Ch} (i : s.CaptureInv) : alignTo c d s ≠ .blocked := by
  have := i.position_lt d
  simp [alignTo, Flow.andThen_eq_blocked, advanceTo_eq_blocked, this]

theorem alignPositions_ne_blocked (i : s.CaptureInv) : alignPositions s ≠ .blocked := by
  unfold alignPositions
  split
  · exact alignTo_ne_blocked i
  · split
    · exact alignTo_ne_blocked i
    · simp

/-- A branch of (b) blocks exactly for a low line with no next transition (R120). -/
theorem raiseLow_eq_blocked (i : s.CaptureInv) :
    raiseLow c s = .blocked ↔ s.level c = false ∧ s.upcoming c = none := by
  unfold raiseLow
  by_cases h : s.level c = false
  · rw [if_pos h, Flow.andThen_eq_blocked, goNext_eq_blocked]
    simp only [h, true_and, or_iff_left_iff_imp]
    rintro ⟨_, u, h1, h2⟩
    exact absurd h2 (alignTo_ne_blocked ((forward_next h1).inv i))
  · simp [h]

/-! ## START -/

theorem startWindow_eq_blocked (i : s.CaptureInv) : startWindow s = .blocked ↔
    s.traceA.trans[s.curA.idx.toNat]? = none ∨ s.traceA.trans[s.curA.idx.toNat + 1]? = none := by
  simp only [startWindow, Flow.andThen_eq_blocked, goNext_eq_blocked, peekNext_eq_blocked,
    peekNext_eq_ok, reduceCtorEq, and_false, exists_false, or_false]
  refine or_congr_right' fun hn => ?_
  obtain ⟨z, hz⟩ := Option.ne_none_iff_exists'.1 hn
  have hg := (goNext_eq_ok (a := ())).2 ⟨z, hz, rfl⟩
  constructor
  · rintro ⟨_, u, h1, h2⟩
    have := ahead_next i h1 0
    exact this.symm.trans h2
  · intro h
    exact ⟨(), _, hg, (ahead_next i hg 0).trans h⟩

theorem burstToggle_eq_blocked {first : Bool} :
    burstToggle x y first s = .blocked ↔ s.upcoming .b = none := by
  simp only [burstToggle, Flow.andThen_eq_blocked, peekNext_eq_blocked, peekNext_eq_ok,
    or_iff_left_iff_imp]
  rintro ⟨z, _, ⟨hz, rfl⟩, h⟩
  split at h
  · cases h
  · split at h
    · cases h
    · exact goNext_eq_blocked.1 h

/-- A toggle that is taken lies in the window, the first one not before its start (R125). -/
theorem burstToggle_eq_ok {first : Bool} {a : Unit} : burstToggle x y first s = .ok a t ↔
    ∃ b, s.upcoming .b = some b ∧ (first = true → x ≤ b) ∧ b < y ∧ goNext .b s = .ok a t := by
  simp only [burstToggle, Flow.andThen_eq_ok, peekNext_eq_ok]
  constructor
  · rintro ⟨b, _, ⟨hb, rfl⟩, h⟩
    split at h
    · cases h
    · rename_i h1
      split at h
      · cases h
      · rename_i h2
        exact ⟨b, hb, fun hf => BitVec.not_lt.1 fun hl => h1 ⟨hf, hl⟩, BitVec.not_le.1 h2, h⟩
  · rintro ⟨b, hb, h1, h2, h⟩
    refine ⟨b, s, ⟨hb, rfl⟩, ?_⟩
    rw [if_neg fun h' => BitVec.not_lt.2 (h1 h'.1) h'.2, if_neg (BitVec.not_le.2 h2), h]

/-- The burst blocks exactly where B's transitions run out before it is over, all of them in the
window (R125, D26). -/
theorem startBurst_eq_blocked {n : Nat} {first : Bool} (i : s.CaptureInv) :
    startBurst x y n first s = .blocked ↔
      ∃ j, j < n ∧ s.traceB.trans[s.curB.idx.toNat + j]? = none ∧
        ∀ m, m < j → ∃ b, s.traceB.trans[s.curB.idx.toNat + m]? = some b ∧
          (first = true → m = 0 → x ≤ b) ∧ b < y := by
  induction n generalizing s first with
  | zero => simp [startBurst]
  | succ n ih =>
    simp only [startBurst, Flow.andThen_eq_blocked, burstToggle_eq_blocked, burstToggle_eq_ok]
    constructor
    · rintro (h | ⟨_, u, ⟨b, hb, h1, h2, hg⟩, h⟩)
      · exact ⟨0, Nat.succ_pos n, h, fun m hm => absurd hm (Nat.not_lt_zero m)⟩
      · obtain ⟨j, hj, hn, hw⟩ := (ih ((forward_next hg).inv i)).1 h
        refine ⟨j + 1, Nat.succ_lt_succ hj, (ahead_next i hg j).symm.trans hn, fun m hm => ?_⟩
        cases m with
        | zero => exact ⟨b, hb, fun hf _ => h1 hf, h2⟩
        | succ m =>
          obtain ⟨b', hb', -, h2'⟩ := hw m (Nat.lt_of_succ_lt_succ hm)
          exact ⟨b', (ahead_next i hg m).symm.trans hb', fun _ h0 => (by cases h0), h2'⟩
    · rintro ⟨j, hj, hn, hw⟩
      cases j with
      | zero => exact .inl hn
      | succ j =>
        obtain ⟨b, hb, h1, h2⟩ := hw 0 (Nat.succ_pos j)
        have hb : s.upcoming .b = some b := hb
        have hg := (goNext_eq_ok (a := ())).2 ⟨b, hb, rfl⟩
        refine .inr ⟨(), _, ⟨b, hb, fun hf => h1 hf rfl, h2, hg⟩,
          (ih ((forward_next hg).inv i)).2 ⟨j, Nat.lt_of_succ_lt_succ hj,
            (ahead_next i hg j).trans hn, fun m hm => ?_⟩⟩
        obtain ⟨b', hb', -, h2'⟩ := hw (m + 1) (Nat.succ_lt_succ hm)
        exact ⟨b', (ahead_next i hg m).trans hb', fun hf => (by cases hf), h2'⟩

/-- The test for a fifth toggle blocks only at an uncaptured window's end (R126). -/
theorem noFifthToggle_ne_blocked (h : x < s.horizon) : noFifthToggle x s ≠ .blocked := by
  simp only [noFifthToggle, ne_eq, Flow.andThen_eq_blocked, wouldCross_eq_blocked, not_or]
  refine ⟨fun h' => BitVec.not_le.2 h h'.2, ?_⟩
  rintro ⟨b, u, -, h'⟩
  split at h' <;> cases h'

theorem refinedEnd_eq_blocked : refinedEnd s = .blocked ↔ s.upcoming .b = none := by
  simp [refinedEnd, Flow.andThen_eq_blocked, goNext_eq_blocked]

/-- A's rise being captured and the refined end too, the last check never blocks (R128). -/
theorem quietUntil_eq_blocked (h : x < s.horizon) :
    quietUntil x s = .blocked ↔ s.upcoming .a = none := by
  simp only [quietUntil, Flow.andThen_eq_blocked, goNext_eq_blocked, wouldCross_eq_blocked,
    or_iff_left_iff_imp]
  rintro ⟨_, u, h1, h' | ⟨b, v, -, h'⟩⟩
  · exact absurd h'.2 (BitVec.not_le.2 ((forward_next h1).horizon ▸ h))
  · split at h' <;> cases h'

/-! ## BIT -/

/-- The clock's edge blocks exactly where the falling edge is not captured (R140). -/
theorem clockEdge_eq_blocked {k : BitVec 3} (i : s.CaptureInv) : clockEdge k s = .blocked ↔
    (s.trace (clockOf k)).trans[(s.cur (clockOf k)).idx.toNat +
      (if s.level (clockOf k) = true then 0 else 1)]? = none := by
  simp only [clockEdge, skipLow, Flow.andThen_eq_blocked, goNext_eq_blocked, reduceCtorEq, and_false,
    exists_false, or_false]
  generalize clockOf k = c
  cases hl : s.level c with
  | true =>
    simp only [Bool.true_eq_false, if_false, if_true, reduceCtorEq, false_or, Flow.ok.injEq]
    exact ⟨by rintro ⟨_, _, ⟨-, rfl⟩, h⟩; exact h, fun h => ⟨(), s, ⟨trivial, rfl⟩, h⟩⟩
  | false =>
    simp only [if_true, Bool.false_eq_true, if_false, goNext_eq_blocked]
    constructor
    · rintro (h | ⟨_, u, h1, h2⟩)
      · rw [State.upcoming, List.getElem?_eq_none_iff] at h
        rw [List.getElem?_eq_none_iff]
        exact Nat.le_succ_of_le h
      · exact (ahead_next i h1 0).symm.trans h2
    · intro h
      rcases hu : s.upcoming c with _ | z
      · exact .inl rfl
      · have hg := (goNext_eq_ok (a := ())).2 ⟨z, hu, rfl⟩
        exact .inr ⟨(), _, hg, (ahead_next i hg 0).trans h⟩

theorem judgeBit_ne_blocked {k : BitVec 3} {n : Count} : judgeBit k x y n s ≠ .blocked := by
  unfold judgeBit
  repeat' split
  all_goals simp

/-! ## CLASSIFY -/

/-- The counting loop blocks exactly where the clock's transitions run out, all before `me` (R146). -/
theorem countClock_eq_blocked {left cnt : Nat} (i : s.CaptureInv) :
    countClock x left cnt s = .blocked ↔
      ∃ j, j < left ∧ s.traceA.trans[s.curA.idx.toNat + j]? = none ∧
        ∀ m, m < j → ∃ a, s.traceA.trans[s.curA.idx.toNat + m]? = some a ∧ a < x := by
  induction left generalizing s cnt with
  | zero => simp [countClock]
  | succ left ih =>
    simp only [countClock, Flow.andThen_eq_blocked, peekNext_eq_blocked, peekNext_eq_ok]
    constructor
    · rintro (h | ⟨z, _, ⟨hz, rfl⟩, h⟩)
      · exact ⟨0, Nat.succ_pos left, h, fun m hm => absurd hm (Nat.not_lt_zero m)⟩
      · split at h
        · rename_i hlt
          rcases Flow.andThen_eq_blocked.1 h with h | ⟨_, u, hg, h⟩
          · exact absurd (goNext_eq_blocked.1 h) (by simp [hz])
          · obtain ⟨j, hj, hn, hw⟩ := (ih ((forward_next hg).inv i)).1 h
            refine ⟨j + 1, Nat.succ_lt_succ hj, (ahead_next i hg j).symm.trans hn, fun m hm => ?_⟩
            cases m with
            | zero => exact ⟨z, hz, hlt⟩
            | succ m =>
              obtain ⟨a, ha, hl⟩ := hw m (Nat.lt_of_succ_lt_succ hm)
              exact ⟨a, (ahead_next i hg m).symm.trans ha, hl⟩
        · cases h
    · rintro ⟨j, hj, hn, hw⟩
      cases j with
      | zero => exact .inl hn
      | succ j =>
        obtain ⟨z, hz, hlt⟩ := hw 0 (Nat.succ_pos j)
        have hz : s.upcoming .a = some z := hz
        have hg := (goNext_eq_ok (a := ())).2 ⟨z, hz, rfl⟩
        refine .inr ⟨z, s, ⟨hz, rfl⟩, ?_⟩
        rw [if_pos hlt, Flow.andThen_eq_blocked]
        refine .inr ⟨(), _, hg, (ih ((forward_next hg).inv i)).2 ⟨j, Nat.lt_of_succ_lt_succ hj,
          (ahead_next i hg j).trans hn, fun m hm => ?_⟩⟩
        obtain ⟨a, ha, hl⟩ := hw (m + 1) (Nat.succ_lt_succ hm)
        exact ⟨a, (ahead_next i hg m).trans ha, hl⟩

/-- Whether a fourth clock transition comes is always known at a captured sample (R146). -/
theorem fourthClock_ne_blocked {n : Nat} (h : x < s.horizon) : fourthClock n x s ≠ .blocked := by
  unfold fourthClock
  split
  · exact fun h' => BitVec.not_le.2 h (wouldCross_eq_blocked.1 h').2
  · simp

end Sys2Proof.Machine
end

