-- ==== Sys2Proof/Laws/Exec.lean ====
section
/-! SUPPORT. What `exec` and `step` can answer: one lemma for each group of operations and one for the
run loop, and the small facts about `phase` codes that the proofs over them need. -/

namespace Sys2Proof.Machine

variable {i : Instr} {s t : State}

/-! ## What the rules write -/

/-- The registers that a sampled bit writes, as one update (R140, R143, R144). -/
theorem sampleBit_eq (k : BitVec 3) (entry ce : Sample) (s : State) :
    sampleBit k entry ce s = { s with
      shift := shiftIn s.shift (s.level (dataOf k))
      out := s.out ++ [.marker .bit (clockOf k) ce]
      byteStart := if k = 0 then entry else s.byteStart
      byteEnd := if k = Config.lastBit then ce else s.byteEnd
      k := if k = Config.lastBit then s.k else k + 1
      phase := if k = Config.lastBit then eocAssemble else eocBit } := by
  unfold sampleBit
  dsimp only [State.emit]
  by_cases h0 : k = 0
  · rw [if_pos h0, if_pos h0]
    split <;> rfl
  · rw [if_neg h0, if_neg h0]
    split <;> rfl

/-- The termination test writes only `phase` (R120). -/
theorem neutralTest_eq (s : State) : neutralTest s =
    s.setPhase (if s.level .a = true ∧ s.level .b = true then eocStart else eocAlign) := by
  unfold neutralTest State.resumeAtNeutral
  split <;> rfl

/-- The codes of `phase` differ. -/
theorem phase_codes_differ :
    eocAlign ≠ eocStart ∧ eocAlign ≠ eocBit ∧ eocAlign ≠ eocClassify ∧ eocAlign ≠ eocAssemble ∧
      eocStart ≠ eocBit ∧ eocStart ≠ eocClassify ∧ eocStart ≠ eocAssemble ∧
      eocBit ≠ eocClassify ∧ eocBit ≠ eocAssemble ∧ eocClassify ≠ eocAssemble ∧
      eocHalted ≠ eocAlign ∧ eocHalted ≠ eocStart ∧ eocHalted ≠ eocBit ∧
      eocHalted ≠ eocClassify ∧ eocHalted ≠ eocAssemble := by
  decide

/-- What `phase` names is an engine operation (R181). -/
theorem decodePhase_isEngine {p : Eoc} {k : BitVec 3} (h : decodePhase p k = some i) :
    i.isEngine = true := by
  unfold decodePhase at h
  repeat' split at h
  all_goals first
    | (cases h; rfl)
    | cases h

/-- What `phase` must hold for the run loop to name an operation (R75, R76, R181). -/
theorem decodePhase_eq_some {p : Eoc} {k : BitVec 3} : decodePhase p k = some i ↔
    (p = eocAlign ∧ i = .align) ∨ (p = eocStart ∧ i = .start) ∨
    (eocMajor p = eocMajor eocBit ∧ i = .bit k) ∨ (p = eocClassify ∧ i = .classify) ∨
    (p = eocAssemble ∧ i = .assemble) := by
  have h1 : eocMajor eocAlign ≠ eocMajor eocBit := by decide
  have h2 : eocMajor eocStart ≠ eocMajor eocBit := by decide
  have h3 : eocMajor eocClassify ≠ eocMajor eocBit := by decide
  have h4 : eocMajor eocAssemble ≠ eocMajor eocBit := by decide
  have d := phase_codes_differ
  unfold decodePhase
  constructor
  · intro h
    repeat' split at h
    all_goals first
      | (cases h; tauto)
      | cases h
  · rintro (⟨rfl, rfl⟩ | ⟨rfl, rfl⟩ | ⟨h, rfl⟩ | ⟨rfl, rfl⟩ | ⟨rfl, rfl⟩)
    · rfl
    · rfl
    · have n1 : p ≠ eocAlign := by
        rintro rfl
        exact h1 h
      have n2 : p ≠ eocStart := by
        rintro rfl
        exact h2 h
      rw [if_neg n1, if_neg n2, if_pos h]
    · rfl
    · rfl

/-! ## Engine steps -/

/-- An engine step is Blocked with no effect, or does what its rule leaves, and answers done. -/
theorem exec_engine_next (he : i.isEngine = true) (h : exec i s = .next t) :
    t = s.answered .blocked ∨
    ∃ u, t = u.answered .done ∧
      ((i = .align ∧ alignRule s = .ok .done u) ∨
        (i = .start ∧ (startRule s = .ok .done u ∨ startRule s = .ended u)) ∨
        (∃ k, i = .bit k ∧ (bitRule k s = .ok .done u ∨ bitRule k s = .ended u)) ∨
        (i = .classify ∧ (classifyRule s = .ok .done u ∨ classifyRule s = .ended u)) ∨
        (i = .assemble ∧ assembleRule s = .ok .done u)) := by
  cases i with
  | align =>
    rcases settle_eq_next.1 h with ⟨a, u, e, rfl⟩ | ⟨u, e, -⟩ | ⟨-, rfl⟩
    · obtain ⟨rfl, -⟩ := alignRule_ok e
      exact .inr ⟨u, rfl, by simp [e]⟩
    · exact absurd e alignRule_ne_ended
    · exact .inl rfl
  | start =>
    rcases settle_eq_next.1 h with ⟨a, u, e, rfl⟩ | ⟨u, e, rfl⟩ | ⟨-, rfl⟩
    · obtain ⟨rfl, -⟩ := startRule_ok e
      exact .inr ⟨u, rfl, by simp [e]⟩
    · exact .inr ⟨u, rfl, by simp [e]⟩
    · exact .inl rfl
  | bit k =>
    rcases settle_eq_next.1 h with ⟨a, u, e, rfl⟩ | ⟨u, e, rfl⟩ | ⟨-, rfl⟩
    · obtain ⟨rfl, -⟩ := bitRule_ok e
      exact .inr ⟨u, rfl, by simp [e]⟩
    · exact .inr ⟨u, rfl, by simp [e]⟩
    · exact .inl rfl
  | classify =>
    rcases settle_eq_next.1 h with ⟨a, u, e, rfl⟩ | ⟨u, e, rfl⟩ | ⟨-, rfl⟩
    · obtain ⟨rfl, -⟩ := classifyRule_ok e
      exact .inr ⟨u, rfl, by simp [e]⟩
    · exact .inr ⟨u, rfl, by simp [e]⟩
    · exact .inl rfl
  | assemble =>
    rcases settle_eq_next.1 h with ⟨a, u, e, rfl⟩ | ⟨u, e, -⟩ | ⟨-, rfl⟩
    · obtain ⟨rfl, -⟩ := assembleRule_ok e
      exact .inr ⟨u, rfl, by simp [e]⟩
    · exact absurd e assembleRule_ne_ended
    · exact .inl rfl
  | _ => cases he

/-- An engine step moves the cursors forward and leaves the trace, the mode, the offered
operations and the command word as they are (R24, R28, R51). -/
theorem exec_engine_forward (he : i.isEngine = true) (h : exec i s = .next t) :
    ∃ v, Forward s v ∧ t.curA = v.curA ∧ t.curB = v.curB ∧ t.traceA = s.traceA ∧
      t.traceB = s.traceB ∧ t.horizon = s.horizon ∧ t.final = s.final ∧ t.modeReg = s.modeReg ∧
      t.inbox = s.inbox ∧ t.command = s.command := by
  rcases exec_engine_next he h with e | ⟨u, e, h'⟩
  · subst e
    exact ⟨s, .refl s, rfl, rfl, rfl, rfl, rfl, rfl, rfl, rfl, rfl⟩
  rcases h' with ⟨-, h'⟩ | ⟨-, h' | h'⟩ | ⟨k, -, h' | h'⟩ | ⟨-, h' | h'⟩ | ⟨-, h'⟩
  · obtain ⟨-, v, f, -, w, -⟩ := alignRule_ok h'
    rw [neutralTest_eq] at w
    subst w e
    refine ⟨v, f, rfl, rfl, ?_⟩
    rw [f.eq]
    exact ⟨rfl, rfl, rfl, rfl, rfl, rfl, rfl⟩
  · obtain ⟨-, w, v, h1, f, -, w'⟩ := startRule_ok h'
    subst w' e
    have f' := (forward_next h1).trans f
    refine ⟨v, f', rfl, rfl, ?_⟩
    rw [f'.eq]
    exact ⟨rfl, rfl, rfl, rfl, rfl, rfl, rfl⟩
  · obtain ⟨w, v, err, h1, f, -, w'⟩ := startRule_ended h'
    subst w' e
    have f' := (forward_next h1).trans f
    refine ⟨v, f', rfl, rfl, ?_⟩
    rw [f'.eq]
    exact ⟨rfl, rfl, rfl, rfl, rfl, rfl, rfl⟩
  · obtain ⟨-, z, n, w, v, h1, h2, h3⟩ := bitRule_ok h'
    obtain ⟨f, -⟩ := bitRule_moves h1 h2
    rw [sampleBit_eq] at h3
    rcases h3 with w' | ⟨-, w'⟩ <;>
    · subst w' e
      refine ⟨v, f, rfl, rfl, ?_⟩
      rw [f.eq]
      exact ⟨rfl, rfl, rfl, rfl, rfl, rfl, rfl⟩
  · obtain ⟨z, n, w, v, h1, h2, w'⟩ := bitRule_ended h'
    obtain ⟨f, -⟩ := bitRule_moves h1 h2
    subst w' e
    refine ⟨v, f, rfl, rfl, ?_⟩
    rw [f.eq]
    exact ⟨rfl, rfl, rfl, rfl, rfl, rfl, rfl⟩
  · obtain ⟨-, me, v, -, f, -, -, w'⟩ := classifyRule_ok h'
    subst w' e
    refine ⟨v, f, rfl, rfl, ?_⟩
    rw [f.eq]
    exact ⟨rfl, rfl, rfl, rfl, rfl, rfl, rfl⟩
  · obtain ⟨v, f, -, w'⟩ := classifyRule_ended h'
    subst w' e
    refine ⟨v, f, rfl, rfl, ?_⟩
    rw [f.eq]
    exact ⟨rfl, rfl, rfl, rfl, rfl, rfl, rfl⟩
  · obtain ⟨-, ps, ev, -, w'⟩ := assembleRule_ok h'
    subst w' e
    exact ⟨s, .refl s, rfl, rfl, rfl, rfl, rfl, rfl, rfl, rfl, rfl⟩

/-! ## Cursor commands and host operations -/

/-- A cursor command moves a cursor forward or nothing, and answers. -/
theorem exec_cursor_next (he : i.isCursor = true) (h : exec i s = .next t) :
    ∃ v a, Forward s v ∧ t = v.answered a := by
  cases i with
  | level c =>
    cases h
    exact ⟨s, _, .refl s, rfl⟩
  | pos c =>
    cases h
    exact ⟨s, _, .refl s, rfl⟩
  | peek c =>
    rcases settle_eq_next.1 h with ⟨a, u, e, rfl⟩ | ⟨u, e, -⟩ | ⟨-, rfl⟩
    · obtain ⟨_, v, h1, h2⟩ := Flow.andThen_eq_ok.1 e
      cases h2
      obtain ⟨-, rfl⟩ := peekNext_eq_ok.1 h1
      exact ⟨_, _, .refl _, rfl⟩
    · simp [Flow.andThen_eq_ended, peekNext_ne_ended] at e
    · exact ⟨s, _, .refl s, rfl⟩
  | next c =>
    rcases settle_eq_next.1 h with ⟨a, u, e, rfl⟩ | ⟨u, e, -⟩ | ⟨-, rfl⟩
    · obtain ⟨_, v, h1, h2⟩ := Flow.andThen_eq_ok.1 e
      cases h2
      exact ⟨_, _, forward_next h1, rfl⟩
    · simp [Flow.andThen_eq_ended, goNext_ne_ended] at e
    · exact ⟨s, _, .refl s, rfl⟩
  | adv c x =>
    rcases settle_eq_next.1 h with ⟨a, u, e, rfl⟩ | ⟨u, e, -⟩ | ⟨-, rfl⟩
    · obtain ⟨_, v, h1, h2⟩ := Flow.andThen_eq_ok.1 e
      cases h2
      exact ⟨_, _, forward_advance h1, rfl⟩
    · simp [Flow.andThen_eq_ended, advanceTo_ne_ended] at e
    · exact ⟨s, _, .refl s, rfl⟩
  | wcross c x =>
    rcases settle_eq_next.1 h with ⟨a, u, e, rfl⟩ | ⟨u, e, -⟩ | ⟨-, rfl⟩
    · obtain ⟨_, v, h1, h2⟩ := Flow.andThen_eq_ok.1 e
      cases h2
      obtain ⟨rfl, -⟩ := wouldCross_eq_ok.1 h1
      exact ⟨_, _, .refl _, rfl⟩
    · simp [Flow.andThen_eq_ended, wouldCross_ne_ended] at e
    · exact ⟨s, _, .refl s, rfl⟩
  | _ => cases he

/-- A host operation is refused by name, or does its effect (R182, R183, R210). -/
theorem exec_host_next (he : i.isHost = true) (h : exec i s = .next t) :
    (∃ r, t = s.refuse r) ∨
    (∃ m pA pB, i = .reset m pA pB ∧ resetAccepted s pA pB = true ∧
      t = (resetCore m pA pB s).answered .done) ∨
    (∃ uA uB x fin, i = .extend uA uB x fin ∧ extendAccepted s uA uB x = true ∧
      t = (extendTrace uA uB x fin s).answered .done) ∨
    (i = .cancel ∧ t = (s.setPhase eocHalted).answered .done) := by
  cases i with
  | reset m pA pB =>
    simp only [exec, execReset] at h
    split at h
    · rename_i ok
      cases h
      exact .inr (.inl ⟨m, pA, pB, rfl, ok, rfl⟩)
    · cases h
      exact .inl ⟨_, rfl⟩
  | extend uA uB x fin =>
    simp only [exec, execExtend] at h
    split at h
    · rename_i ok
      cases h
      exact .inr (.inr (.inl ⟨uA, uB, x, fin, rfl, ok, rfl⟩))
    · cases h
      exact .inl ⟨_, rfl⟩
  | cancel =>
    cases h
    exact .inr (.inr (.inr ⟨rfl, rfl⟩))
  | _ => cases he

/-- Every operation is of one of the three groups (R70, R75). -/
theorem isEngine_or_isCursor_or_isHost (i : Instr) :
    i.isEngine = true ∨ i.isCursor = true ∨ i.isHost = true := by
  cases i <;> simp [Instr.isEngine, Instr.isCursor, Instr.isHost]

/-- No operation is refused as not modelled. -/
theorem exec_ne_refused {r : Refusal} : exec i s ≠ .refused r := by
  cases i with
  | reset m pA pB =>
    simp only [exec, execReset]
    split
    · exact settle_ne_refused
    · simp
  | extend uA uB x fin =>
    simp only [exec, execExtend]
    split
    · exact settle_ne_refused
    · simp
  | level c => simp [exec, execLevel, settle]
  | pos c => simp [exec, execPos, settle]
  | cancel => simp [exec, execCancel, settle]
  | _ => exact settle_ne_refused

/-! ## The run loop -/

/-- A command word decodes to a cursor command (R70, R72). -/
theorem decodeCcw_isCursor {w : Ccw} {o : Option Sample} (h : decodeCcw w o = .ok i) :
    i.isCursor = true := by
  unfold decodeCcw at h
  cases o <;> simp only [withoutOperand, withOperand] at h <;> repeat' split at h
  all_goals first
    | (cases h; rfl)
    | cases h

/-- A host operation is no engine operation and no cursor command (R70, R75). -/
theorem not_isEngine_of_isHost (h : i.isHost = true) : i.isEngine = false ∧ i.isCursor = false := by
  cases i <;> first | exact ⟨rfl, rfl⟩ | cases h

/-- What releasing a command leaves: the command stays exactly where it is Blocked. -/
theorem releaseCommand_eq_next {o : Host.Outcome State Fault Refusal} : releaseCommand o = .next t ↔
    ∃ u, o = .next u ∧ t = if u.answer = .blocked then u else { u with command := none } := by
  cases o <;> simp [releaseCommand, eq_comm]

theorem releaseCommand_eq_fault {o : Host.Outcome State Fault Refusal} {r : Fault} :
    releaseCommand o = .fault r ↔ o = .fault r := by
  cases o <;> simp [releaseCommand]

theorem releaseCommand_eq_refused {o : Host.Outcome State Fault Refusal} {r : Refusal} :
    releaseCommand o = .refused r ↔ o = .refused r := by
  cases o <;> simp [releaseCommand]

/-- What an offered operation leaves of the trace is what `growBy` says (R182, R184, R185). -/
theorem step_offered_trace {p : Packet} {rest : List Packet} (hb : s.inbox = p :: rest)
    (h : step s = .next t) :
    t.inbox = rest ∧ t.traceA = (growBy s p).traceA ∧ t.traceB = (growBy s p).traceB ∧
      t.horizon = (growBy s p).horizon ∧ t.final = (growBy s p).final := by
  simp only [step, fetch, fetchOffered, hb] at h
  unfold growBy
  cases hd : decode p with
  | error r =>
    simp only [hd] at h
    cases h
    exact ⟨rfl, rfl, rfl, rfl, rfl⟩
  | ok i =>
    simp only [hd] at h
    cases i with
    | reset m pA pB =>
      simp only [Instr.isHost, if_true, exec, execReset] at h
      split at h <;> cases h <;> exact ⟨rfl, rfl, rfl, rfl, rfl⟩
    | extend uA uB x fin =>
      have ha : extendAccepted { s with inbox := rest } uA uB x = extendAccepted s uA uB x := rfl
      simp only [Instr.isHost, if_true, exec, execExtend, ha] at h
      dsimp only
      split at h <;> cases h <;> rename_i hx
      · rw [if_pos hx]
        exact ⟨rfl, rfl, rfl, rfl, rfl⟩
      · rw [if_neg hx]
        exact ⟨rfl, rfl, rfl, rfl, rfl⟩
    | _ =>
      cases h
      exact ⟨rfl, rfl, rfl, rfl, rfl⟩

/-- All that a step which goes on can be (R181, R184, R196): none is taken in HALTED; an offered input
is refused by name; an offered host operation is executed; a command at the port is refused by name or
tried; the engine step at `phase` is executed. -/
theorem step_eq_next (h : step s = .next t) :
    (s.inbox = [] ∧ s.phase = eocHalted ∧ t = s) ∨
    (∃ p rest r, s.inbox = p :: rest ∧ t = ({ s with inbox := rest } : State).refuse r) ∨
    (∃ p rest i, s.inbox = p :: rest ∧ decode p = .ok i ∧ i.isHost = true ∧
      exec i { s with inbox := rest } = .next t) ∨
    (∃ w o r, s.inbox = [] ∧ s.phase ≠ eocHalted ∧ s.command = some (w, o) ∧
      decodeCcw w o = .error r ∧ t = ({ s with command := none } : State).refuse r) ∨
    (∃ w o i, s.inbox = [] ∧ s.phase ≠ eocHalted ∧ s.command = some (w, o) ∧
      decodeCcw w o = .ok i ∧ releaseCommand (exec i s) = .next t) ∨
    (∃ i, s.inbox = [] ∧ s.phase ≠ eocHalted ∧ s.command = none ∧
      decodePhase s.phase s.k = some i ∧ exec i s = .next t) := by
  unfold step fetch at h
  obtain hb | ⟨p, rest, hb⟩ : s.inbox = [] ∨ ∃ p rest, s.inbox = p :: rest := by
    cases s.inbox <;> simp
  · simp only [hb, fetchEngine] at h
    by_cases hh : s.phase = eocHalted
    · rw [if_pos hh] at h
      cases h
      exact .inl ⟨hb, hh, rfl⟩
    · rw [if_neg hh] at h
      cases hd : decodePhase s.phase s.k with
      | none => simp [hd] at h
      | some i =>
        simp only [hd] at h
        obtain hc | ⟨w, o, hc⟩ : s.command = none ∨ ∃ w o, s.command = some (w, o) := by
          rcases s.command with _ | ⟨w, o⟩ <;> simp
        · simp only [hc] at h
          exact .inr (.inr (.inr (.inr (.inr ⟨i, hb, hh, hc, rfl, h⟩))))
        · simp only [hc, fetchCommand] at h
          cases he : decodeCcw w o with
          | ok j =>
            simp only [he] at h
            exact .inr (.inr (.inr (.inr (.inl ⟨w, o, j, hb, hh, hc, he, h⟩))))
          | error r =>
            cases r <;> simp only [he, reduceCtorEq] at h <;> cases h <;>
              exact .inr (.inr (.inr (.inl ⟨w, o, _, hb, hh, hc, he, rfl⟩)))
  · simp only [hb, fetchOffered] at h
    cases hd : decode p with
    | ok i =>
      simp only [hd] at h
      cases he : i.isHost with
      | true =>
        simp only [he, if_true] at h
        exact .inr (.inr (.inl ⟨p, rest, i, hb, hd, he, h⟩))
      | false =>
        simp only [he, Bool.false_eq_true, if_false] at h
        cases h
        exact .inr (.inl ⟨p, rest, _, hb, rfl⟩)
    | error r =>
      simp only [hd] at h
      cases h
      exact .inr (.inl ⟨p, rest, _, hb, rfl⟩)

/-- A step with an operation offered goes on (R184, R196). -/
theorem step_offered {p : Packet} {rest : List Packet} (hb : s.inbox = p :: rest) :
    ∃ t, step s = .next t := by
  unfold step fetch fetchOffered
  simp only [hb]
  cases decode p with
  | error r => exact ⟨_, rfl⟩
  | ok i =>
    cases i with
    | reset m pA pB =>
      simp only [Instr.isHost, if_true, exec, execReset]
      split <;> exact ⟨_, rfl⟩
    | extend uA uB x fin =>
      simp only [Instr.isHost, if_true, exec, execExtend]
      split <;> exact ⟨_, rfl⟩
    | _ => exact ⟨_, rfl⟩

end Sys2Proof.Machine
end

