-- ==== Sys2Proof/Laws/PerInstr.lean ====
section
/-! SUPPORT. Statements made per instruction: the format in which each operation is encoded. -/

namespace Sys2Proof.Laws

/-- The format of an operation's packet (R70, R75, R88): a cursor command is a CCW, with an operand
exactly where its `op` is that of ADV or WCROSS; any other operation is an EOC whose `major` is 101
exactly in the host group. -/
def EncodeFormat.Statement (i : Instr) : Prop :=
  (i.isCursor = true →
    ∃ w o, encode i = .ccw w o ∧ (o.isSome = true ↔ w.extractLsb' 1 2 = 0b10)) ∧
  (i.isCursor = false →
    ∃ e p, encode i = .eoc e p ∧ (i.isHost = true ↔ eocMajor e = 0b101))

theorem EncodeFormat.level (c : Ch) : EncodeFormat.Statement (.level c) :=
  ⟨fun _ => ⟨_, _, rfl, by cases c <;> decide⟩, fun h => by cases h⟩

theorem EncodeFormat.pos (c : Ch) : EncodeFormat.Statement (.pos c) :=
  ⟨fun _ => ⟨_, _, rfl, by cases c <;> decide⟩, fun h => by cases h⟩

theorem EncodeFormat.peek (c : Ch) : EncodeFormat.Statement (.peek c) :=
  ⟨fun _ => ⟨_, _, rfl, by cases c <;> decide⟩, fun h => by cases h⟩

theorem EncodeFormat.next (c : Ch) : EncodeFormat.Statement (.next c) :=
  ⟨fun _ => ⟨_, _, rfl, by cases c <;> decide⟩, fun h => by cases h⟩

theorem EncodeFormat.adv (c : Ch) (s : Sample) : EncodeFormat.Statement (.adv c s) :=
  ⟨fun _ => ⟨_, _, rfl, by cases c <;> simp [ccwWord, Ch.code]⟩, fun h => by cases h⟩

theorem EncodeFormat.wcross (c : Ch) (s : Sample) : EncodeFormat.Statement (.wcross c s) :=
  ⟨fun _ => ⟨_, _, rfl, by cases c <;> simp [ccwWord, Ch.code]⟩, fun h => by cases h⟩

theorem EncodeFormat.align : EncodeFormat.Statement .align :=
  ⟨fun h => (by cases h), fun _ => ⟨_, _, rfl, by decide⟩⟩

theorem EncodeFormat.start : EncodeFormat.Statement .start :=
  ⟨fun h => (by cases h), fun _ => ⟨_, _, rfl, by decide⟩⟩

theorem EncodeFormat.bit (k : BitVec 3) : EncodeFormat.Statement (.bit k) :=
  ⟨fun h => (by cases h), fun _ => ⟨_, _, rfl, by revert k; decide⟩⟩

theorem EncodeFormat.classify : EncodeFormat.Statement .classify :=
  ⟨fun h => (by cases h), fun _ => ⟨_, _, rfl, by decide⟩⟩

theorem EncodeFormat.assemble : EncodeFormat.Statement .assemble :=
  ⟨fun h => (by cases h), fun _ => ⟨_, _, rfl, by decide⟩⟩

theorem EncodeFormat.reset (mode : Mode) (pA pB : Sample) :
    EncodeFormat.Statement (.reset mode pA pB) :=
  ⟨fun h => (by cases h), fun _ => ⟨_, _, rfl, by simp [Instr.isHost]; decide⟩⟩

theorem EncodeFormat.extend (uA uB : List Sample) (h : Sample) (fin : Bool) :
    EncodeFormat.Statement (.extend uA uB h fin) :=
  ⟨fun h => (by cases h), fun _ => ⟨_, _, rfl, by simp [Instr.isHost]; decide⟩⟩

theorem EncodeFormat.cancel : EncodeFormat.Statement .cancel :=
  ⟨fun h => (by cases h), fun _ => ⟨_, _, rfl, by decide⟩⟩

end Sys2Proof.Laws
end

