-- ==== Sys2Proof/Tests/Slice0.lean ====
section
/-! SUPPORT. Tests of one step or one definition each, with results from spec/95_test_vectors.md (the
vector's name stands with each) or counted by hand from the named rule; and, for every obligation
with hypotheses, a witness that meets them. -/

namespace Sys2Proof.Machine.Tests

/-! ## Fixtures -/

/-- A line's trace from numerals. -/
def line (init : Bool) (l : List Nat) : Trace := ⟨init, l.map fun n => BitVec.ofNat 64 n⟩

/-- Both cursors placed by R23. -/
def placed (s : State) (pA pB : Sample) : State :=
  { s with curA := cursorAt s.traceA pA, curB := cursorAt s.traceB pB }

/-- A finished capture after RESET BYTE, 0, 0. -/
def capture (a b : Trace) (h : Sample) : State :=
  placed { State.reset with traceA := a, traceB := b, horizon := h, final := true } 0 0

/-- Trace X of section 2.2, with cursor A at `p`; B's line has one transition, at 30. -/
def x2 (p : Sample) : State := placed (capture (line true [10, 15, 17]) (line true [30]) 100) p 0

/-- A START vector of section 2.4. -/
def st (a b : List Nat) : State :=
  { capture (line true a) (line true b) 40 with phase := eocStart }

/-- A BIT vector of section 2.5: after ST-1's start, both cursors at 16. -/
def bt (a b : List Nat) : State :=
  { placed (capture (line true ([10, 15] ++ a)) (line true ([11, 12, 13, 14, 16] ++ b)) 60) 16 16
    with phase := eocBit }

/-- A CLASSIFY vector of section 2.6: after BIT 0, both cursors at 19. -/
def cl (a b : List Nat) : State := { placed (bt a b) 19 19 with phase := eocClassify }

/-- Packet state in the notation of section 2.7, all fields known. -/
def pst (cnt acc ws bt br wt wr : Nat) : PacketState :=
  ⟨BitVec.ofNat 32 cnt, BitVec.ofNat 32 acc, some (BitVec.ofNat 64 ws), some (BitVec.ofNat 32 bt),
    some (BitVec.ofNat 32 br), some (BitVec.ofNat 32 wt), some (BitVec.ofNat 32 wr)⟩

/-- An ASSEMBLE vector of section 2.7. -/
def asm (m : Mode) (sh : Byte) (bs be : Sample) (ps : PacketState) : State :=
  { placed (capture (line true []) (line true []) 200) 120 120 with
    modeReg := m, shift := sh, byteStart := bs, byteEnd := be, ps := ps, phase := eocAssemble,
    k := 7 }

/-- The state an operation goes on to; the state before it where it does not go on. -/
def after (i : Instr) (s : State) : State :=
  match exec i s with
  | .next t => t
  | .fault _ => s
  | .refused _ => s

/-- Whether an operation goes on. -/
def goesOn (i : Instr) (s : State) : Bool :=
  match exec i s with
  | .next _ => true
  | .fault _ => false
  | .refused _ => false

/-- The fault an operation raises, if any. -/
def faultOf (o : Host.Outcome State Fault Refusal) : Option Fault :=
  match o with
  | .next _ => none
  | .fault r => some r
  | .refused _ => none

theorem exec_after {i : Instr} {s : State} (h : goesOn i s = true) :
    exec i s = .next (after i s) := by
  unfold goesOn at h
  unfold after
  split at h
  · rename_i e
    rw [e]
  · cases h
  · cases h

/-- Where a step takes an engine operation and that goes on, the step goes on. -/
theorem step_after {i : Instr} {s : State} (hb : s.inbox = []) (hc : s.command = none)
    (hp : s.phase ≠ eocHalted)
    (hd : decodePhase s.phase s.k = some i) (h : goesOn i s = true) :
    step s = .next (after i s) := by
  rw [← exec_after h]
  simp [step, fetch, fetchEngine, hb, hc, hp, hd]

/-! ## WellFormed: one ill-formed EXTEND for each check (R182) -/

theorem test_wellFormed_extend : (Instr.extend [20, 31] [25] 40 false).wellFormed = true := by decide
theorem test_wellFormed_refuses_unordered_a :
    (Instr.extend [25, 22] [] 40 false).wellFormed = false := by decide
theorem test_wellFormed_refuses_unordered_b :
    (Instr.extend [] [22, 22] 40 false).wellFormed = false := by decide
theorem test_wellFormed_refuses_beyond_a :
    (Instr.extend [20, 40] [] 40 false).wellFormed = false := by decide
theorem test_wellFormed_refuses_beyond_b :
    (Instr.extend [] [41] 40 false).wellFormed = false := by decide

/-! ## Decoding: each word written out from R71, R72 or R75 -/

theorem test_decode_level : decode (.ccw 0b1000 none) = .ok (.level .b) := by decide
theorem test_decode_pos : decode (.ccw 0b1001 none) = .ok (.pos .b) := by decide
theorem test_decode_peek : decode (.ccw 0b0010 none) = .ok (.peek .a) := by decide
theorem test_decode_next : decode (.ccw 0b1011 none) = .ok (.next .b) := by decide
theorem test_decode_adv : decode (.ccw 0b0100 (some 15)) = .ok (.adv .a 15) := by decide
theorem test_decode_wcross : decode (.ccw 0b1101 (some 23)) = .ok (.wcross .b 23) := by decide
theorem test_decode_align : decode (.eoc 0b000000 Ports.idle) = .ok .align := by decide
theorem test_decode_start : decode (.eoc 0b001000 Ports.idle) = .ok .start := by decide
theorem test_decode_bit : decode (.eoc 0b010101 Ports.idle) = .ok (.bit 5) := by decide
theorem test_decode_classify : decode (.eoc 0b011000 Ports.idle) = .ok .classify := by decide
theorem test_decode_assemble : decode (.eoc 0b100000 Ports.idle) = .ok .assemble := by decide
theorem test_decode_reset :
    decode (.eoc 0b101000 { Ports.idle with mode := 0b01, startA := 15 }) =
      .ok (.reset .word 15 0) := by decide
theorem test_decode_extend :
    decode (.eoc 0b101001 { Ports.idle with newA := [20, 31], horizon := 40 }) =
      .ok (.extend [20, 31] [] 40 false) := by decide
theorem test_decode_cancel : decode (.eoc 0b101010 Ports.idle) = .ok .cancel := by decide

/-- EN-7, EN-14. -/
theorem test_decode_reserved :
    decode (.ccw 0b0110 none) = .error .illegalCommand ∧
      decode (.ccw 0b1111 none) = .error .illegalCommand ∧
      decode (.eoc 0b101011 Ports.idle) = .error .illegalOperation ∧
      decode (.eoc 0b111111 Ports.idle) = .error .illegalOperation := by decide

/-- R88: the operand of ADV and WCROSS, and of nothing else. -/
theorem test_decode_operand :
    decode (.ccw 0b0100 none) = .error .missingOperand ∧
      decode (.ccw 0b0000 (some 1)) = .error .strayOperand := by decide

/-- EN-15 to EN-17. -/
theorem test_codes :
    ClassResult.endOfPacket.code = 0b01 ∧ ClassResult.normal.code = 0b00 ∧
      ClassResult.error.code = 0b11 ∧ Mode.wordBytesDescending.code = 0b11 ∧
      ErrCode.startTrail.code = 0b100 := by decide

/-- Words of the opcode table, by their widths. -/
theorem test_table_words :
    decodeTableWord 4 0b1000 = some (.level .b) ∧ decodeTableWord 4 0b0100 = some (.adv .a 0) ∧
      decodeTableWord 6 0b001000 = some .start ∧ decodeTableWord 8 0b010011 = some (.bit 3) ∧
      decodeTableWord 8 0b1011 = some (.next .b) ∧ decodeTableWord 8 0b111111 = none := by decide

/-- R89. -/
theorem test_text :
    (Instr.adv .a 15).text = "ADV A, 15" ∧
      (Instr.reset .byte 0 0).text = "RESET BYTE, 0, 0" := by decide

/-! ## withFetchWord: the next step runs the word's operation, from reset -/

theorem test_fetch_align :
    fetch (State.reset.withFetchWord 6 0b000000) = .run .align State.reset := by decide
theorem test_fetch_bit :
    fetch (State.reset.withFetchWord 6 0b010011) =
      .run (.bit 3) { State.reset with phase := eocBit, k := 3 } := by decide
theorem test_fetch_next : fetch (State.reset.withFetchWord 4 0b1011) =
    .issue (.next .b) { State.reset with command := some (0b1011, none) } := by decide
theorem test_fetch_cancel : fetch (State.reset.withFetchWord 6 0b101010) = .run .cancel State.reset := by
  decide

/-! ## One step of each operation -/

/-- CU-1 at the far edge: the level after all three transitions is 0. -/
theorem test_level : (after (.level .a) (x2 0)).answer = .bit true ∧
    (after (.level .a) (x2 17)).answer = .bit false := by decide
/-- CU-2. -/
theorem test_pos : (after (.pos .a) (x2 0)).answer = .sample 0 ∧
    (after (.pos .a) (x2 15)).answer = .sample 15 := by decide
/-- CU-3. -/
theorem test_peek : (after (.peek .a) (x2 0)).answer = .sample 10 := by decide
/-- CU-16. -/
theorem test_peek_blocked : after (.peek .a) (x2 17) = { x2 17 with answer := .blocked } := by decide
/-- CU-4. -/
theorem test_next : after (.next .a) (x2 0) = { x2 0 with curA := ⟨10, 1⟩ } := by decide
/-- CU-17. -/
theorem test_next_blocked : after (.next .a) (x2 17) = { x2 17 with answer := .blocked } := by decide
/-- CU-5. -/
theorem test_adv : after (.adv .a 15) (x2 0) = { x2 0 with curA := ⟨15, 2⟩, answer := .count 2 } := by
  decide
/-- CU-10. -/
theorem test_adv_backward : faultOf (exec (.adv .a 5) (x2 15)) = some .cursorBackward := by decide
/-- CU-12 and CU-13. -/
theorem test_wcross : (after (.wcross .a 16) (x2 15)).answer = .bit false ∧
    (after (.wcross .a 17) (x2 15)).answer = .bit true := by decide
/-- CU-15 and CU-19. -/
theorem test_wcross_horizon : (after (.wcross .a 150) (x2 15)).answer = .bit true ∧
    (after (.wcross .a 200) (x2 17)).answer = .blocked := by decide

/-- AL-3: A is raised first and B's level is looked at only then. -/
def al3 : State := capture (line false [4]) (line true [2, 6]) 20
theorem test_align : after .align al3 =
    { al3 with curA := ⟨6, 1⟩, curB := ⟨6, 2⟩, phase := eocStart } := by decide
/-- AL-6: the whole step is undone. -/
def al6 : State := placed (capture (line true [5]) (line true []) 20) 12 3
theorem test_align_blocked : after .align al6 = { al6 with answer := .blocked } := by decide

/-- ST-1. -/
theorem test_start : after .start (st [10, 15] [11, 12, 13, 14, 16]) =
    { st [10, 15] [11, 12, 13, 14, 16] with
      curA := ⟨16, 2⟩, curB := ⟨16, 5⟩, phase := eocBit,
      out := [.marker .start .a 10, .marker .start .b 10] } := by decide
/-- ST-5: a fifth toggle at the window's end. -/
theorem test_start_long : after .start (st [10, 15] [11, 12, 13, 14, 15]) =
    { st [10, 15] [11, 12, 13, 14, 15] with
      curA := ⟨10, 1⟩, curB := ⟨14, 4⟩, phase := eocAlign, lastErr := .startLong } := by decide

/-- BT-2: a data edge at the clock edge is taken. -/
theorem test_bit : after (.bit 0) (bt [19] [19]) =
    { bt [19] [19] with
      curA := ⟨19, 3⟩, curB := ⟨19, 6⟩, shift := 1, byteStart := 16, k := 1,
      out := [.marker .bit .a 19] } := by decide
/-- BT-4. -/
theorem test_bit_too_many : after (.bit 0) (bt [20] [17, 18, 19]) =
    { bt [20] [17, 18, 19] with
      curA := ⟨20, 3⟩, curB := ⟨20, 8⟩, lastErr := .endTooMany, phase := eocAlign } := by decide

/-- CL-1. -/
theorem test_classify : after .classify (cl [19, 20, 21, 22] [17, 18, 23]) =
    { cl [19, 20, 21, 22] [17, 18, 23] with
      curA := ⟨23, 6⟩, curB := ⟨23, 8⟩, phase := eocAlign,
      out := [.marker .stop .a 23, .marker .stop .b 23] } := by decide
/-- CL-3: a fourth clock transition at `me`. -/
theorem test_classify_ambiguous : after .classify (cl [19, 20, 21, 22, 23] [17, 18, 23]) =
    { cl [19, 20, 21, 22, 23] [17, 18, 23] with
      curA := ⟨22, 6⟩, lastErr := .endAmbig, phase := eocAlign } := by decide

/-- AS-3. -/
def as3 : State := asm .word 0x56 63 79 (pst 3 0x34120000 16 5 2 1 1)
theorem test_assemble_word : after .assemble as3 =
    { as3 with
      ps := pst 4 0 16 5 1 1 0, shift := 0, k := 0, phase := eocBit,
      out := [.unit .word 0x56341200 .frameHeader 0 16 79] } := by decide
/-- AS-7. -/
def as7 : State := asm .byte 0xFF 16 31 PacketState.init
theorem test_assemble_header : after .assemble as7 =
    { as7 with
      ps := pst 1 0xFF000000 16 1025 1024 256 256, shift := 0, k := 0, phase := eocBit,
      out := [.unit .byte 0xFF .frameHeader 1024 16 31] } := by decide

/-- HS-6, with every register of the core away from its reset value before. -/
theorem test_reset : after (.reset .byte 15 0)
    { x2 17 with k := 3, shift := 9, byteStart := 4, byteEnd := 5, lastErr := .endAmbig,
                 ps := pst 3 1 2 5 2 1 1, out := [.marker .bit .a 1], phase := eocHalted } = x2 15 := by
  decide
/-- HS-8. -/
theorem test_reset_refused :
    after (.reset .byte 100 0) (x2 15) = { x2 15 with answer := .refused .badReset } := by decide

/-- Trace X with `H = 20` and FINAL false. -/
def hs : State := { x2 0 with traceB := line true [], horizon := 20, final := false }
/-- HS-1: a transition at the old horizon. -/
theorem test_extend : after (.extend [20, 31] [] 40 false) hs =
    { hs with traceA := line true [10, 15, 17, 20, 31], horizon := 40 } := by decide
/-- HS-3. -/
theorem test_extend_refused :
    after (.extend [19] [] 40 false) hs = { hs with answer := .refused .badExtend } := by decide

/-- P5b: a started byte and word stay where they are. -/
theorem test_cancel : after .cancel (bt [19] []) = { bt [19] [] with phase := 0b111111 } := by decide

/-! ## Faults, the input boundary and reset -/

/-- FT-1, FT-3, FT-4, FT-5. -/
theorem test_faults :
    faultOf (step { x2 0 with phase := 0b000001 }) = some .illegalPhase ∧
      faultOf (step { x2 0 with command := some (0b0111, none) }) = some .illegalCommand ∧
      faultOf (exec .assemble (asm .byte 1 0 0 { pst 0 0 0 5 0 1 0 with byteCount := 0xFFFFFFFF })) =
        some .counterOverflow ∧
      faultOf (exec .assemble (asm .word 0 0 0 { PacketState.init with byteCount := 1 })) =
        some .readUnknown := by decide

/-- HS-12. -/
theorem test_badTrace :
    readTrace true [(5, false), (5, true)] 20 = .error .badTrace ∧
      readTrace true [(5, false), (7, false)] 20 = .error .badTrace ∧
      readTrace true [(5, false), (7, true)] 20 = .ok (line true [5, 7]) := by decide

/-- The waiting and ended runs of R186 (AL-5, INC-1), and one that halts. -/
theorem test_runState :
    (capture (line false []) (line true []) 20).runState = .endOfData ∧
      { capture (line false []) (line true []) 20 with final := false }.runState = .waiting ∧
      (x2 0).runState = .running ∧ { x2 0 with phase := eocHalted }.runState = .halted ∧
      { x2 0 with phase := 0b000001 }.runState = .faulted .illegalPhase := by decide

/-! ## Witnesses: states and operands that meet an obligation's hypotheses, at the edges of each
clause -/

theorem witness_DecodeAndEncodeAgree :
    decode (.ccw 0b1101 (some 0)) = .ok (.wcross .b 0) ∧
      decode (.eoc 0b010111 { Ports.idle with mode := 3 }) = .ok (.bit 7) := by decide

/-- Cursor A's command at the port, in the phase of a start and with nothing offered. -/
def commanded (w : Ccw) (o : Option Sample) (p : Sample) : State :=
  { x2 p with command := some (w, o) }

/-- R53: a Blocked command is tried again, and answered once EXTEND has brought the transition. -/
theorem test_command_retried :
    step (commanded 0b0011 none 17) = .next { commanded 0b0011 none 17 with answer := .blocked } ∧
      fetch (extendTrace [100] [] 101 false (commanded 0b0011 none 17)) =
        .issue (.next .a) (extendTrace [100] [] 101 false (commanded 0b0011 none 17)) :=
  ⟨rfl, by decide⟩

/-- An offered operation, not last in the inbox; each engine code as a phase, and one that is BIT by
its major field; a command that is answered, one that is Blocked, one that faults. -/
theorem witness_StepRunsDecodedOperation :
    (({ x2 0 with inbox := [encode .cancel, encode (.next .a)] } : State).inbox =
        encode .cancel :: [encode (.next .a)] ∧
      decode (encode .cancel) = .ok .cancel ∧ Instr.cancel.isHost = true) ∧
      ((x2 0).inbox = [] ∧ (x2 0).command = none ∧ (x2 0).phase = 0b000000 ∧
        (st [] []).phase = 0b001000 ∧ (bt [19] []).phase = 0b010000 ∧
        (cl [] []).phase = 0b011000 ∧ as3.phase = 0b100000 ∧
        decodePhase 0b010111 3 = some (.bit 3)) ∧
      ((commanded 0b0011 none 15).inbox = [] ∧
        (decodePhase (commanded 0b0011 none 15).phase 0).isSome = true ∧
        decode (.ccw 0b0011 none) = .ok (.next .a) ∧
        goesOn (.next .a) (commanded 0b0011 none 15) = true ∧
        (after (.next .a) (commanded 0b0011 none 15)).answer = .done ∧
        (after (.next .a) (commanded 0b0011 none 17)).answer = .blocked ∧
        faultOf (exec (.adv .a 5) (commanded 0b0100 (some 5) 15)) = some .cursorBackward) := by
  decide

/-- An engine operation, a cursor command, and what does not decode, as offers; the two reserved words
and a missing operand at the port. -/
theorem witness_BadInputsLeaveTheCore :
    (decode (encode .start) = .ok .start ∧ Instr.start.isHost = false ∧
        (Instr.next .b).isHost = false) ∧
      (decode (.eoc 0b101011 Ports.idle) = .error .illegalOperation ∧
        decode (.ccw 0b0100 none) = .error .missingOperand) ∧
      ((commanded 0b0110 none 0).inbox = [] ∧
        (decodePhase (commanded 0b0110 none 0).phase (commanded 0b0110 none 0).k).isSome = true ∧
        decode (.ccw 0b0110 none) = .error .illegalCommand ∧
        decode (.ccw 0b1111 (some 3)) = .error .illegalCommand) := by decide

theorem witness_HaltedTakesNoStep :
    (after .cancel (x2 0)).inbox = [] ∧ (after .cancel (x2 0)).phase = eocHalted := by decide

/-- The phases next to the legal ones; the two legal ones that are no engine code's exact word. -/
theorem witness_IllegalPhaseFaults :
    ({ x2 0 with phase := 0b000001 } : State).inbox = [] ∧
      faultOf (step { x2 0 with phase := 0b000001 }) = some .illegalPhase ∧
      faultOf (step { x2 0 with phase := 0b111110 }) = some .illegalPhase ∧
      faultOf (step { x2 0 with phase := 0b101000 }) = some .illegalPhase ∧
      faultOf (step { x2 0 with phase := 0b010111 }) = none ∧
      faultOf (step { x2 0 with phase := eocHalted }) = none := by decide

theorem witness_BlockedStepHasNoEffect :
    (exec .align al6 = .next (after .align al6) ∧ (after .align al6).answer = .blocked) ∧
      (al6.inbox = [] ∧ step al6 = .next (after .align al6)) :=
  ⟨⟨exec_after (by decide), by decide⟩, rfl, step_after rfl rfl (by decide) (by decide) (by decide)⟩

theorem witness_EndOfDataIsStuck :
    (st [] []).inbox = [] ∧ (st [] []).runState = .endOfData := by decide

theorem witness_LevelReadsTheLine : (x2 15).CursorOk .a ∧ (x2 15).level .a = true := by decide

/-- The last captured transition, and none after it with FINAL set. -/
theorem witness_PeekReadsTheNextTransition :
    (x2 15).CaptureInv ∧
      ((x2 15).trace .a).trans[((x2 15).cur .a).idx.toNat]? = some 17 ∧
      ((x2 17).trace .a).trans[((x2 17).cur .a).idx.toNat]? = none ∧ (x2 17).final = true := by
  decide

theorem witness_NextCrossesOneTransition :
    (x2 15).CaptureInv ∧
      ((x2 15).trace .a).trans[((x2 15).cur .a).idx.toNat]? = some 17 ∧
      ((x2 17).trace .a).trans[((x2 17).cur .a).idx.toNat]? = none := by decide

/-- Just before the position, at it, the last captured sample, and the horizon. -/
theorem witness_AdvMovesForward :
    (x2 15).CaptureInv ∧ (14 : Sample) < ((x2 15).cur .a).pos ∧
      ((x2 15).cur .a).pos ≤ 15 ∧ (15 : Sample) < (x2 15).horizon ∧
      ((x2 15).cur .a).pos ≤ 99 ∧ (99 : Sample) < (x2 15).horizon ∧
      ((x2 15).cur .a).pos ≤ 100 ∧ (x2 15).horizon ≤ 100 := by decide

/-- A transition at the operand, one just after it, none captured below and at the horizon. -/
theorem witness_WcrossTestsWithoutMoving :
    (x2 15).CaptureInv ∧
      (∃ t, ((x2 15).trace .a).trans[((x2 15).cur .a).idx.toNat]? = some t ∧ t ≤ 17) ∧
      (∀ t, ((x2 15).trace .a).trans[((x2 15).cur .a).idx.toNat]? = some t → 16 < t) ∧
      (16 : Sample) < (x2 15).horizon ∧
      (∀ t, ((x2 17).trace .a).trans[((x2 17).cur .a).idx.toNat]? = some t → 100 < t) ∧
      (x2 17).horizon ≤ 100 ∧ (99 : Sample) < (x2 17).horizon ∧
      15 ≤ ((x2 15).cur .a).pos := by
  refine ⟨by decide, ⟨17, by decide, by decide⟩, ?_, by decide, ?_, by decide, by decide, by decide⟩
  · intro t h
    cases h
    decide
  · intro t h
    cases h

theorem witness_CursorCommandFrame :
    cursorChannel (.adv .a 15) = some .a ∧
      exec (.adv .a 15) (x2 0) = .next (after (.adv .a 15) (x2 0)) :=
  ⟨rfl, exec_after (by decide)⟩

theorem witness_CursorLaws :
    (x2 0).CaptureInv ∧ ((x2 0).cur .a).pos ≤ 12 ∧ (12 : Sample) ≤ 15 ∧
      (15 : Sample) < (x2 0).horizon := by decide

/-- AL-2, and A behind B. -/
theorem witness_AlignHandsOverAtNeutral :
    let s := placed (capture (line true []) (line true []) 20) 3 3
    let u := placed (capture (line true [1, 2]) (line true []) 20) 0 5
    (s.CaptureInv ∧ s.traceA.levelAt 3 = true ∧ s.traceB.levelAt 3 = true) ∧
      (u.CaptureInv ∧ u.curA.pos < u.curB.pos ∧ u.traceA.levelAt 5 = true ∧
        u.traceB.levelAt 5 = true) := by decide

/-- What ALIGN's statement asks: the ahead sample, where A's branch leads and where B's leads. -/
abbrev AlignEntry (s : State) (m x y : Sample) : Prop :=
  s.CaptureInv ∧ m = (if s.curA.pos < s.curB.pos then s.curB.pos else s.curA.pos) ∧
    (if s.traceA.levelAt m = false then s.traceA.nextAfter m = some x else x = m) ∧
    (if s.traceB.levelAt x = false then s.traceB.nextAfter x = some y else y = x)

/-- AL-4's first step. -/
def al4 : State := capture (line true [3, 9]) (line false [5]) 20

/-- Each channel as the low one; AL-1, unequal positions; AL-3, where B is low only after A's branch;
both low; AL-4, whose end is not neutral. -/
theorem witness_AlignWaitsForTheLowLine :
    AlignEntry (placed (capture (line true []) (line false [7]) 20) 5 5) 5 5 7 ∧
      AlignEntry (placed (capture (line false [7]) (line true []) 20) 5 5) 5 7 7 ∧
      AlignEntry (placed (capture (line true []) (line false [7]) 20) 0 5) 5 5 7 ∧
      AlignEntry al3 0 4 6 ∧
      AlignEntry (capture (line false [4]) (line false [8]) 20) 0 4 8 ∧
      AlignEntry al4 0 0 5 ∧ al4.traceA.levelAt 5 = false := by
  refine ⟨?_, ?_, ?_, ?_, ?_, ?_, ?_⟩ <;> decide

/-- AL-6 blocks in B's branch; a low A with no transition blocks in A's. -/
theorem witness_AlignOutcome :
    (exec .align al3 = .next (after .align al3) ∧ (after .align al3).answer ≠ .blocked) ∧
      (al6.CaptureInv ∧
        (capture (line false []) (line true []) 20).CaptureInv ∧
        (capture (line false []) (line true []) 20).traceA.nextAfter 0 = none) :=
  ⟨⟨exec_after (by decide), by decide⟩, by decide⟩

theorem witness_AlignThatStaysConsumes :
    al4.CaptureInv ∧ exec .align al4 = .next (after .align al4) ∧
      (after .align al4).answer ≠ .blocked ∧ (after .align al4).phase = eocAlign :=
  ⟨by decide, exec_after (by decide), by decide, by decide⟩

/-- What START's characterization asks of a state. -/
abbrev StartEntry (s : State) (a1 a2 : Sample) : Prop :=
  s.CaptureInv ∧ s.curA.pos = s.curB.pos ∧ s.level .a = true ∧ s.level .b = true ∧
    s.traceA.trans[s.curA.idx.toNat]? = some a1 ∧ s.traceA.trans[s.curA.idx.toNat + 1]? = some a2

/-- B's transition number `j` from the cursor on. -/
abbrev bAt (s : State) (j : Nat) (b : Sample) : Prop :=
  s.traceB.trans[s.curB.idx.toNat + j]? = some b

/-- ST-7, ST-5, ST-10, a lone early toggle, a first toggle at the window's end, ST-3 and ST-6: each
clause at its boundary. -/
theorem witness_StartCharacterized :
    (let s := st [10, 15] [10, 11, 12, 13, 16];
      StartEntry s 10 15 ∧ bAt s 0 10 ∧ bAt s 3 13 ∧ bAt s 4 16) ∧
      (let s := st [10, 15] [11, 12, 13, 14, 15];
        StartEntry s 10 15 ∧ bAt s 0 11 ∧ bAt s 3 14 ∧ bAt s 4 15) ∧
      (let s := st [10, 15, 18] [11, 12, 13, 14, 18];
        StartEntry s 10 15 ∧ bAt s 0 11 ∧ bAt s 3 14 ∧ bAt s 4 18 ∧
          s.traceA.trans[s.curA.idx.toNat + 2]? = some 18) ∧
      (let s := st [10, 15] [9];
        StartEntry s 10 15 ∧ bAt s 0 9) ∧
      (let s := st [10, 15] [15];
        StartEntry s 10 15 ∧ bAt s 0 15) ∧
      (let s := st [10, 14] [11, 12, 13, 20];
        StartEntry s 10 14 ∧ bAt s 0 11 ∧ bAt s 2 13 ∧ bAt s 3 20) ∧
      (let s := st [10, 14] [11, 12, 13, 14];
        StartEntry s 10 14 ∧ bAt s 0 11 ∧ bAt s 2 13 ∧ bAt s 3 14) := by
  refine ⟨?_, ?_, ?_, ?_, ?_, ?_, ?_⟩ <;> decide

/-- Going on; and Blocked with no rise of A, with three toggles in the window (ST-2, E6), and
with four and no fifth. -/
theorem witness_StartOutcomes :
    exec .start (st [10, 15] [11, 12, 13, 14, 16]) =
        .next (after .start (st [10, 15] [11, 12, 13, 14, 16])) ∧
      ((st [10] []).CaptureInv ∧ (st [10] []).traceA.trans[1]? = none) ∧
      ((st [10, 14] [11, 12, 13]).CaptureInv ∧
        (after .start (st [10, 14] [11, 12, 13])).answer = .blocked) ∧
      ((st [10, 15] [11, 12, 13, 14]).CaptureInv ∧
        (after .start (st [10, 15] [11, 12, 13, 14])).answer = .blocked) :=
  ⟨exec_after (by decide), by decide, by decide, by decide⟩

theorem witness_ValidStartLeavesAHighBLow :
    let s := st [10, 15, 19] [11, 12, 13, 14, 18]
    s.CaptureInv ∧ s.level .a = true ∧ s.level .b = true ∧
      exec .start s = .next (after .start s) ∧ (after .start s).phase = eocBit ∧
      (after .start s).answer = .done :=
  ⟨by decide, by decide, by decide, exec_after (by decide), by decide, by decide⟩

/-- The samples at which BIT k's statement looks: the clock's falling edge and the data crossings. -/
abbrev BitEntry (s : State) (k : BitVec 3) (p f : Sample) (n : Nat) : Prop :=
  let K : Ch := if k.toNat % 2 = 0 then .a else .b
  let D : Ch := if k.toNat % 2 = 0 then .b else .a
  s.CaptureInv ∧ s.curA.pos = p ∧ s.curB.pos = p ∧
    (s.trace K).trans[(s.cur K).idx.toNat + (if s.level K = true then 0 else 1)]? = some f ∧
    n = ((s.trace D).trans.filter fun x => p < x ∧ x ≤ f).length

/-- BT-3, BT-2, CL-7's BIT 0 and BT-4: the counts 0, 1, 2 and 3 at `k = 0`; BT-6's and BT-5's BIT 1:
the counts 1 and 2 at an odd index, the clock low at first; a BIT 7. -/
theorem witness_BitSamplesAtTheClockEdge :
    BitEntry (bt [19] []) 0 16 19 0 ∧ BitEntry (bt [19] [19]) 0 16 19 1 ∧
      BitEntry (bt [19] [17, 19]) 0 16 19 2 ∧ BitEntry (bt [20] [17, 18, 19]) 0 16 20 3 ∧
      BitEntry (placed (bt [19, 21] [20, 22]) 19 19) 1 19 22 1 ∧
      BitEntry (placed (bt [19, 21, 22] [20, 23]) 19 19) 1 19 23 2 ∧
      BitEntry (placed (bt [19, 21] [20, 22]) 19 19) 7 19 22 1 := by
  refine ⟨?_, ?_, ?_, ?_, ?_, ?_, ?_⟩ <;> decide

/-- Going on; and Blocked with a high clock and no fall, and with a low clock and only its rise. -/
theorem witness_BitOutcomes :
    exec (.bit 0) (bt [19] [18]) = .next (after (.bit 0) (bt [19] [18])) ∧
      ((bt [] [18]).CaptureInv ∧ (bt [] [18]).traceA.trans[(bt [] [18]).curA.idx.toNat]? = none) ∧
      (let s := placed (bt [19] [20]) 19 19;
        s.CaptureInv ∧ s.level .b = false ∧ s.traceB.trans[s.curB.idx.toNat + 1]? = none) :=
  ⟨exec_after (by decide), by decide, by decide⟩

/-- What CLASSIFY's statement asks. -/
abbrev ClassifyEntry (s : State) (me a1 a2 a3 : Sample) : Prop :=
  s.CaptureInv ∧ s.upcoming .b = some me ∧
    s.traceA.trans[s.curA.idx.toNat]? = some a1 ∧ s.traceA.trans[s.curA.idx.toNat + 1]? = some a2 ∧
    s.traceA.trans[s.curA.idx.toNat + 2]? = some a3

/-- CL-5, CL-3, CL-4, and `me` at the second and at the first clock transition. -/
theorem witness_ClassifyDecidesTheEnd :
    (ClassifyEntry (cl [19, 20, 21, 22, 24] [17, 18, 23]) 23 20 21 22 ∧
        (cl [19, 20, 21, 22, 24] [17, 18, 23]).traceA.trans[6]? = some 24) ∧
      (ClassifyEntry (cl [19, 20, 21, 22, 23] [17, 18, 23]) 23 20 21 22 ∧
        (cl [19, 20, 21, 22, 23] [17, 18, 23]).traceA.trans[6]? = some 23) ∧
      ClassifyEntry (cl [19, 20, 21, 23] [17, 18, 23]) 23 20 21 23 ∧
      ClassifyEntry (cl [19, 20, 21, 23] [17, 18, 21]) 21 20 21 23 ∧
      ClassifyEntry (cl [19, 20, 21, 23] [17, 18, 20]) 20 20 21 23 := by
  refine ⟨⟨?_, ?_⟩, ⟨?_, ?_⟩, ?_, ?_, ?_⟩ <;> decide

/-- Going on; and Blocked with no data transition (CL-6), and with two clock transitions before it. -/
theorem witness_ClassifyOutcomes :
    exec .classify (cl [19, 20, 21, 22] [17, 18, 23]) =
        .next (after .classify (cl [19, 20, 21, 22] [17, 18, 23])) ∧
      ((cl [19, 20, 21, 22] [17, 18]).CaptureInv ∧
        (after .classify (cl [19, 20, 21, 22] [17, 18])).answer = .blocked) ∧
      ((cl [19, 20, 21] [17, 18, 23]).CaptureInv ∧
        (after .classify (cl [19, 20, 21] [17, 18, 23])).answer = .blocked) :=
  ⟨exec_after (by decide), by decide, by decide⟩

/-- CL-1 and CL-3 from their BIT 0: the clock at once high, `j` the cursor's own index. -/
theorem witness_EndPatternCharacterized :
    let s := bt [19, 20, 21, 22] [17, 18, 23]
    let u := bt [19, 20, 21, 22, 23] [17, 18, 23]
    (s.CaptureInv ∧ s.curA.pos = s.curB.pos ∧
      2 = s.curA.idx.toNat + (if s.level .a = true then 0 else 1) ∧
      s.traceA.trans[2]? = some 19 ∧ s.traceA.trans[3]? = some 20 ∧ s.traceA.trans[4]? = some 21 ∧
      s.traceA.trans[5]? = some 22 ∧ s.traceB.trans[s.curB.idx.toNat]? = some 17 ∧
      s.traceB.trans[s.curB.idx.toNat + 1]? = some 18 ∧
      s.traceB.trans[s.curB.idx.toNat + 2]? = some 23) ∧
      (u.CaptureInv ∧ u.traceA.trans[6]? = some 23) := by decide

/-- The first byte; the last byte before and at the length, in each kind of group; the last count. -/
theorem witness_AssembleFoldsTheByte :
    (1 = as7.ps.byteCount.toNat + 1 ∧ as7.ps = PacketState.init ∧ (0xFF : Byte) = as7.shift) ∧
      (4 = as3.ps.byteCount.toNat + 1 ∧ as3.ps.byteCount ≠ 0 ∧ as3.ps.InPacket 0) ∧
      ((pst 4 0 16 5 1 1 0).byteCount ≠ 0 ∧ (pst 4 0 16 5 1 1 0).InPacket 0) ∧
      (({ pst 0 0 16 5 0 1 0 with byteCount := 0xFFFFFFFE } : PacketState).byteCount ≠ 0 ∧
        0xFFFFFFFF =
          ({ pst 0 0 16 5 0 1 0 with byteCount := 0xFFFFFFFE } : PacketState).byteCount.toNat + 1 ∧
        ({ pst 0 0 16 5 0 1 0 with byteCount := 0xFFFFFFFE } : PacketState).InPacket 0) := by
  decide

theorem witness_AssembleFaults :
    (asm .byte 1 0 0 { pst 0 0 0 5 0 1 0 with byteCount := 0xFFFFFFFF }).ps.byteCount.toNat = 2 ^ 32 - 1 ∧
      (asm .byte 1 0 0 { PacketState.init with byteCount := 0xFFFFFFFE }).ps.byteCount.toNat ≠ 2 ^ 32 - 1 ∧
      (asm .word 0 0 0 { PacketState.init with byteCount := 1 }).ps.byteCount ≠ 0 ∧
      (asm .word 0 0 0 { PacketState.init with byteCount := 1 }).ps.bytesRem = none := by decide

theorem witness_AssembleFrame : exec .assemble as3 = .next (after .assemble as3) :=
  exec_after (by decide)

theorem witness_DecodingIsModeIndependent :
    Instr.assemble.isEngine = true ∧
      exec .assemble { as3 with modeReg := .byte } =
        .next (after .assemble { as3 with modeReg := .byte }) ∧
      exec .assemble { as3 with modeReg := .word } =
        .next (after .assemble { as3 with modeReg := .word }) :=
  ⟨rfl, exec_after (by decide), exec_after (by decide)⟩

/-- The last captured sample, and the horizon. -/
theorem witness_ResetInitialState :
    (99 : Sample) < (x2 0).horizon ∧ (0 : Sample) < (x2 0).horizon ∧
      ¬ ((100 : Sample) < (x2 0).horizon ∧ (0 : Sample) < (x2 0).horizon) := by decide

/-- A transition at the old horizon and one just below the new; one below the old. -/
theorem witness_ExtendGrowsTheTrace :
    (hs.final = false ∧ hs.horizon ≤ 40 ∧ ([20, 39] : List Sample).Pairwise (· < ·) ∧
        ∀ u ∈ ([20, 39] : List Sample), hs.horizon ≤ u ∧ u < 40) ∧
      ¬ (∀ u ∈ ([19] : List Sample), hs.horizon ≤ u ∧ u < 40) := by
  have hh : hs.horizon = 20 := rfl
  rw [hh]
  refine ⟨⟨rfl, by decide, by decide, ?_⟩, ?_⟩ <;> simp

theorem witness_CancelHalts : (after .cancel (x2 0)).phase = eocHalted := by decide

theorem witness_TraceRecordsAreRead :
    readTrace true [(5, false), (19, true)] 20 = .ok (line true [5, 19]) := by decide

theorem witness_OfferAcceptsOperations :
    (decode (encode (.reset .byte 0 0)) = .ok (.reset .byte 0 0) ∧
        (Instr.reset .byte 0 0).isHost = true) ∧
      ((Instr.adv .a 3).isHost = false ∧ (Instr.bit 3).isHost = false) ∧
      (decode (.ccw 0b0110 none) = .error .illegalCommand ∧
        decode (.eoc 0b101011 Ports.idle) = .error .illegalOperation) := by decide

/-- A live capture whose line A is low at the end, with one EXTEND offered that makes it high: a record
of a fall is read behind that EXTEND, and refused without it. -/
def offeredExtend : State := { x2 15 with final := false, inbox := [encode (.extend [100] [] 101 false)] }
theorem test_extendOfRecords :
    extendOfRecords offeredExtend [(101, false)] [] 102 false = .ok (.extend [101] [] 102 false) ∧
      extendOfRecords { offeredExtend with inbox := [] } [(101, false)] [] 102 false =
        .error .badTrace := by decide

theorem witness_ExtendRecordsAreRead :
    extendOfRecords offeredExtend [(101, false)] [(101, true)] 102 false =
        .ok (.extend [101] [101] 102 false) ∧
      offeredExtend.withOfferedExtends.horizon = 101 := by decide

/-- A BIT step, and an offered RESET, that move a cursor. -/
theorem witness_CursorsMoveOnlyForTheEngine :
    ((bt [19] [18]).command = none ∧ step (bt [19] [18]) = .next (after (.bit 0) (bt [19] [18])) ∧
        (after (.bit 0) (bt [19] [18])).cur .a ≠ (bt [19] [18]).cur .a) ∧
      (let s := { x2 0 with inbox := [encode (.reset .byte 15 0)] };
        s.command = none ∧ step s = .next (x2 15) ∧ (x2 15).cur .a ≠ s.cur .a) :=
  ⟨⟨rfl, step_after rfl rfl (by decide) (by decide) (by decide), by decide⟩, rfl, rfl, by decide⟩

theorem witness_WritersOfEachRegister :
    exec (.bit 0) (bt [20] [17, 18, 19]) = .next (after (.bit 0) (bt [20] [17, 18, 19])) :=
  exec_after (by decide)

theorem witness_LogOnlyGrows :
    (goesOn (.reset .word 3 4) (bt [19] []) = true ∧
      (after (.reset .word 3 4) (bt [19] [])).answer = .done) ∧
      (∀ m pA pB, Instr.start ≠ .reset m pA pB) ∧
      exec .start (st [10, 15] [11, 12, 13, 14, 16]) =
        .next (after .start (st [10, 15] [11, 12, 13, 14, 16])) :=
  ⟨by decide, fun _ _ _ h => (by cases h), exec_after (by decide)⟩

theorem witness_OnlyAssembleEmitsUnits :
    Instr.classify ≠ .assemble ∧ (∀ m pA pB, Instr.classify ≠ .reset m pA pB) ∧
      exec .classify (cl [19, 20, 21, 22, 23] [17, 18, 23]) =
        .next (after .classify (cl [19, 20, 21, 22, 23] [17, 18, 23])) :=
  ⟨by decide, fun _ _ _ h => (by cases h), exec_after (by decide)⟩

theorem witness_CursorsOnlyMoveForward :
    al3.CaptureInv ∧ (∀ m pA pB, Instr.align ≠ .reset m pA pB) ∧
      exec .align al3 = .next (after .align al3) :=
  ⟨by decide, fun _ _ _ h => (by cases h), exec_after (by decide)⟩

/-- Each engine operation, BIT at its first and its last index. -/
theorem witness_PhaseSuccessors :
    (goesOn .align al4 = true ∧ (after .align al4).answer ≠ .blocked) ∧
      (goesOn .start (st [10, 15] [9, 11, 12, 13, 16]) = true ∧
        (after .start (st [10, 15] [9, 11, 12, 13, 16])).answer ≠ .blocked) ∧
      (goesOn (.bit 0) (bt [19] [17, 18]) = true ∧
        (after (.bit 0) (bt [19] [17, 18])).answer ≠ .blocked) ∧
      (goesOn (.bit 7) (placed (bt [19, 21] [20, 22]) 19 19) = true ∧
        (after (.bit 7) (placed (bt [19, 21] [20, 22]) 19 19)).answer ≠ .blocked) ∧
      (goesOn .classify (cl [19, 20, 21, 22] [17, 18, 23]) = true ∧
        (after .classify (cl [19, 20, 21, 22] [17, 18, 23])).answer ≠ .blocked) ∧
      (goesOn .assemble as3 = true ∧ (after .assemble as3).answer ≠ .blocked) := by decide

theorem witness_StepKeepsTheCapture :
    (bt [19] [18]).CaptureInv ∧ step (bt [19] [18]) = .next (after (.bit 0) (bt [19] [18])) :=
  ⟨by decide, step_after rfl rfl (by decide) (by decide) (by decide)⟩

theorem as3_consistent : as3.ps.Consistent := .inr ⟨by decide, 0, by decide⟩

theorem witness_StepKeepsThePacketState :
    as3.ps.Consistent ∧ step as3 = .next (after .assemble as3) :=
  ⟨as3_consistent, step_after rfl rfl (by decide) (by decide) (by decide)⟩

theorem bt_inv : (bt [19] [18]).Inv := ⟨by decide, .inl rfl, by decide, by decide⟩

theorem witness_StepKeepsTheInvariants :
    (bt [19] [18]).Inv ∧ step (bt [19] [18]) = .next (after (.bit 0) (bt [19] [18])) :=
  ⟨bt_inv, step_after rfl rfl (by decide) (by decide) (by decide)⟩

/-- BIT 3 with three bits gathered, all ones. -/
def shifted : State := { placed (bt [19, 21] [20, 22]) 19 19 with k := 3, shift := 0b111 }
theorem witness_StepKeepsTheShiftRegister :
    shifted.ShiftInv ∧ step shifted = .next (after (.bit 3) shifted) :=
  ⟨by decide, step_after rfl rfl (by decide) (by decide) (by decide)⟩

/-- The fourth byte of a second word group, begun at 79, after AS-3's and AS-5's units. -/
def as5 : State :=
  { asm .word 0x01 110 120 (pst 7 0xEFCDAB00 79 5 0 1 0) with
    out := [.unit .word 0x56341200 .frameHeader 0 16 79, .unit .byte 0xAB .crc 0 79 96,
      .marker .bit .b 120] }
theorem noneAfter_iff (x : Sample) (l : List Sample) :
    NoneAfter x l ↔ (l.all fun y => decide (y ≤ x)) = true := by simp [NoneAfter]

theorem witness_StepKeepsTheLogSorted :
    as5.CaptureInv ∧ as5.ps.Consistent ∧ as5.LogInv ∧ step as5 = .next (after .assemble as5) := by
  refine ⟨by decide, .inr ⟨by decide, 0, by decide⟩, ?_,
    step_after rfl rfl (by decide) (by decide) (by decide)⟩
  simp only [State.LogInv, noneAfter_iff]
  refine ⟨by decide, fun c => ?_, fun _ => ⟨by decide, fun c => ?_⟩,
    fun _ => ⟨by decide, fun c => ?_⟩, fun _ _ ws h => ?_⟩
  · cases c <;> decide
  · cases c <;> decide
  · cases c <;> decide
  · cases h
    exact ⟨by decide, fun c => by cases c <;> decide⟩

/-- AS-11 in a packet. -/
def as11 : State := asm .byte 1 0 0 { pst 0 0 16 5 0 1 0 with byteCount := 0xFFFFFFFF }
/-- A state of a run, and one whose step does fault. -/
theorem witness_OnlyCounterOverflowFaults :
    (bt [19] [18]).Inv ∧ (as11.Inv ∧ step as11 = .fault .counterOverflow) :=
  ⟨bt_inv, ⟨by decide, .inr ⟨by decide, 0, by decide⟩, by decide, by decide⟩, rfl⟩

/-- WCROSS that answers for the last captured sample, an ADV backward, and an extension right at the
old horizon. -/
theorem witness_ExtensionChangesNoAnswer :
    let s := { x2 17 with final := false }
    s.CaptureInv ∧ extendAccepted s [100] [] 101 = true ∧ (Instr.wcross .a 99).isHost = false ∧
      goesOn (.wcross .a 99) s = true ∧ (after (.wcross .a 99) s).answer ≠ .blocked ∧
      faultOf (exec (.adv .a 16) s) = some .cursorBackward := by decide

/-- One step of a live capture, extended at its horizon. -/
theorem witness_IncrementalRunIsTheWholeRun :
    let s := { bt [19] [18] with final := false }
    s.CaptureInv ∧ s.inbox = [] ∧ extendAccepted s [60, 62] [61] 70 = true ∧
      Host.Core.run Sys2Proof.core 1 s = .next (after (.bit 0) s) ∧
      (after (.bit 0) s).answer ≠ .blocked := by
  refine ⟨by decide, rfl, by decide, ?_, by decide⟩
  show (match step { bt [19] [18] with final := false } with
    | .next u => Host.Core.run Sys2Proof.core 0 u
    | .fault r => .fault r
    | .refused r => .refused r) = _
  rw [step_after (i := .bit 0) rfl rfl (by decide) (by decide) (by decide)]
  rfl

/-- P3's shift by 20. -/
theorem witness_OnlyTheOrderOfSamplesMatters :
    (bt [19] [18]).CaptureInv ∧ (Instr.bit 0).isEngine = true ∧
      ∀ a b : Sample, b ≤ (bt [19] [18]).horizon → a < b → a + 20 < b + 20 := by
  refine ⟨by decide, rfl, fun a b hb h => ?_⟩
  have hh : (bt [19] [18]).horizon = 60 := rfl
  rw [hh] at hb
  simp only [BitVec.le_def, BitVec.lt_def, BitVec.toNat_add] at *
  simp only [BitVec.reduceToNat] at *
  omega

/-- Every operation of the statement, and an End. -/
theorem witness_StepsThatConsume :
    (al4.CaptureInv ∧ goesOn .align al4 = true ∧ (after .align al4).answer ≠ .blocked) ∧
      ((st [10, 15] [9, 11, 12, 13, 16]).CaptureInv ∧
        (after .start (st [10, 15] [9, 11, 12, 13, 16])).answer ≠ .blocked) ∧
      ((bt [19] []).CaptureInv ∧ (after (.bit 0) (bt [19] [])).answer ≠ .blocked) ∧
      ((cl [19, 20, 21, 22] [17, 18, 23]).CaptureInv ∧
        (after .classify (cl [19, 20, 21, 22] [17, 18, 23])).out ≠
          (cl [19, 20, 21, 22] [17, 18, 23]).out) := by decide

theorem witness_EveryRunEndsOnACapture : (bt [19] [18]).Inv ∧ (bt [19] [18]).inbox = [] :=
  ⟨bt_inv, rfl⟩

end Sys2Proof.Machine.Tests
end

section
/-! What an operation that goes on leaves, as one case analysis over all operations, and the induction
principle of the run loop: what the statements about the fields of the state are proved from. -/

namespace Sys2Proof.Machine

/-! ## Moved cursors -/

/-- The state with both cursors replaced. -/
def State.withCursors (s : State) (x y : Cursor) : State := { s with curA := x, curB := y }

section
variable (s : State) (x y : Cursor)

@[simp] theorem State.withCursors_curA : (s.withCursors x y).curA = x := rfl
@[simp] theorem State.withCursors_curB : (s.withCursors x y).curB = y := rfl
@[simp] theorem State.withCursors_phase : (s.withCursors x y).phase = s.phase := rfl
@[simp] theorem State.withCursors_k : (s.withCursors x y).k = s.k := rfl
@[simp] theorem State.withCursors_shift : (s.withCursors x y).shift = s.shift := rfl
@[simp] theorem State.withCursors_lastErr : (s.withCursors x y).lastErr = s.lastErr := rfl
@[simp] theorem State.withCursors_modeReg : (s.withCursors x y).modeReg = s.modeReg := rfl
@[simp] theorem State.withCursors_ps : (s.withCursors x y).ps = s.ps := rfl
@[simp] theorem State.withCursors_out : (s.withCursors x y).out = s.out := rfl
@[simp] theorem State.withCursors_traceA : (s.withCursors x y).traceA = s.traceA := rfl
@[simp] theorem State.withCursors_traceB : (s.withCursors x y).traceB = s.traceB := rfl
@[simp] theorem State.withCursors_horizon : (s.withCursors x y).horizon = s.horizon := rfl
@[simp] theorem State.withCursors_final : (s.withCursors x y).final = s.final := rfl
@[simp] theorem State.withCursors_inbox : (s.withCursors x y).inbox = s.inbox := rfl
@[simp] theorem State.withCursors_command : (s.withCursors x y).command = s.command := rfl

end

theorem Forward.exists_withCursors {s t : State} (f : Forward s t) :
    ∃ x y, t = s.withCursors x y :=
  ⟨t.curA, t.curB, f.eq⟩

/-! ## The effect of an operation -/

/-- What an operation leaves where it goes on: nothing changed but the answer, or the cursors moved
forward and then the registers of its rule written (R11, R12). -/
inductive Effect (s : State) : Instr → State → Prop
  /-- An engine step without effect (R53). -/
  | blocked {i : Instr} (he : i.isEngine = true) : Effect s i (s.answered .blocked)
  /-- A host operation that is refused by name (R196). -/
  | refused {i : Instr} {r : Reject} (hh : i.isHost = true) : Effect s i (s.refuse r)
  /-- A cursor command (R100 to R107). -/
  | commanded {i : Instr} {x y : Cursor} {a : Answer} (hc : i.isCursor = true)
      (f : Forward s (s.withCursors x y)) : Effect s i ((s.withCursors x y).answered a)
  /-- An iteration of ALIGN that does not find both lines high (R120). -/
  | alignStays {x y : Cursor} (f : Forward s (s.withCursors x y)) :
      Effect s .align (((s.withCursors x y).setPhase eocAlign).answered .done)
  /-- ALIGN's hand-over to START (R120, R195). -/
  | alignHandsOver {x y : Cursor} (f : Forward s (s.withCursors x y)) (hp : x.pos = y.pos)
      (hA : (s.withCursors x y).level .a = true) (hB : (s.withCursors x y).level .b = true) :
      Effect s .align (((s.withCursors x y).setPhase eocStart).answered .done)
  /-- A validated START (R129). -/
  | started {x y : Cursor} {z : Sample} (f : Forward s (s.withCursors x y)) (hp : x.pos = y.pos) :
      Effect s .start ((beginPacket z (s.withCursors x y)).answered .done)
  /-- A resync (R130, R193). -/
  | resynced {i : Instr} {x y : Cursor} {err : ErrCode}
      (hi : i = .start ∨ (∃ k, i = .bit k) ∨ i = .classify) (f : Forward s (s.withCursors x y)) :
      Effect s i (((s.withCursors x y).resync err).answered .done)
  /-- A sampled bit (R140, R143, R144). -/
  | sampled {k : BitVec 3} {x y : Cursor} {z : Sample} (f : Forward s (s.withCursors x y))
      (hp : x.pos = y.pos) :
      Effect s (.bit k) ((sampleBit k (s.position .a) z (s.withCursors x y)).answered .done)
  /-- BIT 0's ambiguous arm, which enters CLASSIFY with the clock low (R141, R146). -/
  | ambiguous {x y : Cursor} (f : Forward s (s.withCursors x y)) (hp : x.pos = y.pos)
      (hA : (s.withCursors x y).level .a = false) :
      Effect s (.bit 0) (((s.withCursors x y).setPhase eocClassify).answered .done)
  /-- CLASSIFY at End (R146, R147). -/
  | packetEnds {x y : Cursor} {me : Sample} (f : Forward s (s.withCursors x y)) :
      Effect s .classify (((((s.withCursors x y).emit (.marker .stop .a me)).emit
        (.marker .stop .b me)).setPhase eocAlign).answered .done)
  /-- ASSEMBLE (R161, R168). -/
  | assembled {ps : PacketState} {events : List Event}
      (h : assembleByte s.modeReg s.shift s.byteStart s.byteEnd s.ps = .ok (ps, events)) :
      Effect s .assemble (State.answered
        { s with ps := ps, out := s.out ++ events, k := 0, shift := 0, phase := eocBit } .done)
  /-- An accepted RESET (R210, R211). -/
  | reset {m : Mode} {pA pB : Sample} (ok : resetAccepted s pA pB = true) :
      Effect s (.reset m pA pB) ((resetCore m pA pB s).answered .done)
  /-- An accepted EXTEND (R182). -/
  | extended {uA uB : List Sample} {h : Sample} {fin : Bool} (ok : extendAccepted s uA uB h = true) :
      Effect s (.extend uA uB h fin) ((extendTrace uA uB h fin s).answered .done)
  /-- CANCEL (R183). -/
  | cancelled : Effect s .cancel ((s.setPhase eocHalted).answered .done)

variable {i : Instr} {s t : State}

theorem alignRule_effect (h : alignRule s = .ok .done t) : Effect s .align (t.answered .done) := by
  obtain ⟨-, v, f, hp, rfl, -⟩ := alignRule_ok h
  obtain ⟨x, y, rfl⟩ := f.exists_withCursors
  rw [neutralTest_eq]
  split
  next hl => exact .alignHandsOver f hp hl.1 hl.2
  next => exact .alignStays f

theorem startRule_effect (h : startRule s = .ok .done t ∨ startRule s = .ended t) :
    Effect s .start (t.answered .done) := by
  rcases h with h | h
  · obtain ⟨-, u, v, g, f, hp, rfl⟩ := startRule_ok h
    have f' := (forward_next g).trans f
    obtain ⟨x, y, rfl⟩ := f'.exists_withCursors
    exact .started f' hp
  · obtain ⟨u, v, err, g, f, -, rfl⟩ := startRule_ended h
    have f' := (forward_next g).trans f
    obtain ⟨x, y, rfl⟩ := f'.exists_withCursors
    exact .resynced (.inl rfl) f'

theorem bitRule_effect {k : BitVec 3} (h : bitRule k s = .ok .done t ∨ bitRule k s = .ended t) :
    Effect s (.bit k) (t.answered .done) := by
  rcases h with h | h
  · obtain ⟨-, z, n, u, v, h1, h2, h3⟩ := bitRule_ok h
    obtain ⟨f, hA, hB, hl, -⟩ := bitRule_moves h1 h2
    obtain ⟨x, y, rfl⟩ := f.exists_withCursors
    rcases h3 with rfl | ⟨rfl, rfl⟩
    · exact .sampled f (hA.trans hB.symm)
    · exact .ambiguous f (hA.trans hB.symm) hl
  · obtain ⟨z, n, u, v, h1, h2, rfl⟩ := bitRule_ended h
    obtain ⟨f, -⟩ := bitRule_moves h1 h2
    obtain ⟨x, y, rfl⟩ := f.exists_withCursors
    exact .resynced (.inr (.inl ⟨k, rfl⟩)) f

theorem classifyRule_effect (h : classifyRule s = .ok .done t ∨ classifyRule s = .ended t) :
    Effect s .classify (t.answered .done) := by
  rcases h with h | h
  · obtain ⟨-, me, v, -, f, -, -, rfl⟩ := classifyRule_ok h
    obtain ⟨x, y, rfl⟩ := f.exists_withCursors
    have e := Effect.packetEnds (me := me) f
    simpa [State.withCursors, State.emit, State.setPhase] using e
  · obtain ⟨v, f, -, rfl⟩ := classifyRule_ended h
    obtain ⟨x, y, rfl⟩ := f.exists_withCursors
    exact .resynced (.inr (.inr rfl)) f

theorem assembleRule_effect (h : assembleRule s = .ok .done t) :
    Effect s .assemble (t.answered .done) := by
  obtain ⟨-, ps, events, h1, rfl⟩ := assembleRule_ok h
  exact .assembled h1

/-- All that an operation which goes on can leave. -/
theorem exec_effect (h : exec i s = .next t) : Effect s i t := by
  rcases isEngine_or_isCursor_or_isHost i with he | hc | hh
  · rcases exec_engine_next he h with rfl | ⟨u, rfl, h'⟩
    · exact .blocked he
    · rcases h' with ⟨rfl, h'⟩ | ⟨rfl, h'⟩ | ⟨k, rfl, h'⟩ | ⟨rfl, h'⟩ | ⟨rfl, h'⟩
      · exact alignRule_effect h'
      · exact startRule_effect h'
      · exact bitRule_effect h'
      · exact classifyRule_effect h'
      · exact assembleRule_effect h'
  · obtain ⟨v, a, f, rfl⟩ := exec_cursor_next hc h
    obtain ⟨x, y, rfl⟩ := f.exists_withCursors
    exact .commanded hc f
  · rcases exec_host_next hh h with ⟨r, rfl⟩ | ⟨m, pA, pB, rfl, ok, rfl⟩ |
      ⟨uA, uB, x, fin, rfl, ok, rfl⟩ | ⟨rfl, rfl⟩
    · exact .refused hh
    · exact .reset ok
    · exact .extended ok
    · exact .cancelled

/-! ## The run loop -/

/-- When the run loop executes an operation: the host's where it is offered, a cursor command where a
word stands at the cursor units' port, an engine operation where `phase` names it (R181, R184). -/
def State.Runs (s : State) (i : Instr) : Prop :=
  i.isHost = true ∨ (i.isCursor = true ∧ s.command ≠ none) ∨ decodePhase s.phase s.k = some i

/-- A cursor command is no engine operation (R70, R75). -/
theorem not_isEngine_of_isCursor (h : i.isCursor = true) : i.isEngine = false := by
  cases i with
  | align | start | bit | classify | assemble => cases h
  | _ => rfl

/-- An engine operation is executed only where `phase` names it (R181). -/
theorem State.Runs.decodePhase_eq (r : s.Runs i) (he : i.isEngine = true) :
    decodePhase s.phase s.k = some i := by
  rcases r with hh | ⟨hc, -⟩ | hd
  · simp [(not_isEngine_of_isHost hh).1] at he
  · simp [not_isEngine_of_isCursor hc] at he
  · exact hd

/-- The induction over the run loop: a property that does not look at the inbox and the answer, holds
on when the port is emptied and is kept by every operation where it is executed, is kept by every
step. -/
theorem step_keeps {P : State → Prop} (hin : ∀ s b, P s → P { s with inbox := b })
    (hcom : ∀ s, P s → P { s with command := none }) (hans : ∀ s a, P s → P (s.answered a))
    (hexec : ∀ i s t, P s → s.Runs i → Effect s i t → P t) (hs : P s) (h : step s = .next t) :
    P t := by
  rcases step_eq_next h with ⟨-, -, rfl⟩ | ⟨p, rest, r, -, rfl⟩ | ⟨p, rest, i, -, -, hh, h⟩ |
    ⟨w, o, r, -, -, -, -, rfl⟩ | ⟨w, o, i, -, -, hc, hd, h⟩ | ⟨i, -, -, -, hd, h⟩
  · exact hs
  · exact hans _ _ (hin _ _ hs)
  · exact hexec i _ t (hin _ _ hs) (.inl hh) (exec_effect h)
  · exact hans _ _ (hcom _ hs)
  · obtain ⟨u, hu, rfl⟩ := releaseCommand_eq_next.1 h
    have hPu := hexec i s u hs (.inr (.inl ⟨decodeCcw_isCursor hd, by simp [hc]⟩)) (exec_effect hu)
    split
    next => exact hPu
    next => exact hcom _ hPu
  · exact hexec i s t hs (.inr (.inr hd)) (exec_effect h)

end Sys2Proof.Machine
end

section
/-! What every operation keeps of the capture and of the packet state (R23, R31 to R33, R51). -/

namespace Sys2Proof.Machine

variable {i : Instr} {s t : State}

/-! ## The capture -/

/-- Every operation keeps the traces well formed and the cursors sound. -/
theorem Effect.captureInv (e : Effect s i t) (c : s.CaptureInv) : t.CaptureInv := by
  cases e with
  | blocked | refused | assembled | cancelled => exact c
  | commanded _ f | alignStays f | alignHandsOver f | started f | resynced _ f | ambiguous f
  | packetEnds f => exact f.inv c
  | sampled f => exact (f.inv c).congr (by simp) (by simp) (by simp) (by simp) (by simp)
  | @reset m _ _ ok => exact c.resetCore (m := m) ok
  | @extended _ _ _ fin ok => exact c.extendTrace (fin := fin) ok

/-- Settles O46: only moved cursors, RESET's cursors and EXTEND's traces are new, and each is sound. -/
theorem stepKeepsTheCapture : Obligations.StepKeepsTheCapture := by
  intro s t c h
  exact step_keeps (P := State.CaptureInv) (fun _ _ c => c) (fun _ c => c) (fun _ _ c => c)
    (fun _ _ _ c _ e => e.captureInv c) c h

/-! ## The packet state -/

/-- The packet state between the count of a byte and the word step (R163, R164): that of a packet with
header byte `h`, `n` bytes of which were assembled before. The words remaining are still those before
the byte. -/
structure PacketState.Counted (ps : PacketState) (h : Byte) (n : Nat) : Prop where
  byteCount : ps.byteCount.toNat = n + 1
  bytesTotal : ps.bytesTotal = some (BitVec.ofNat 32 (4 * h.toNat + 5))
  bytesRem : ps.bytesRem = some (BitVec.ofNat 32 (4 * h.toNat + 5 - (n + 1)))
  wordsTotal : ps.wordsTotal = some (BitVec.ofNat 32 (h.toNat + 1))
  wordsRem : ps.wordsRem = some (BitVec.ofNat 32 (h.toNat + 1 - n / 4))
  wordStart : ps.wordStart.isSome = true

/-- A remaining count is decremented while there are any (R164, R166). -/
theorem ofNat_sub_succ {m n : Nat} (hm : m < 2 ^ 32) :
    (if 0 < BitVec.ofNat 32 (m - n) then BitVec.ofNat 32 (m - n) - 1 else BitVec.ofNat 32 (m - n)) =
      BitVec.ofNat 32 (m - (n + 1)) := by
  apply BitVec.eq_of_toNat_eq
  by_cases hlt : n < m
  · have hpos : 0 < BitVec.ofNat 32 (m - n) := by
      rw [BitVec.lt_def]
      simp
      omega
    rw [if_pos hpos]
    simp
    omega
  · have h0 : m - n = 0 := by omega
    have h1 : m - (n + 1) = 0 := by omega
    simp [h0, h1]

/-- The byte count does not wrap below its limit (R161). -/
theorem toNat_succ_of_ne_allOnes {n : Count} (h : n ≠ BitVec.allOnes 32) :
    (n + 1).toNat = n.toNat + 1 := by
  have : n.toNat ≠ 2 ^ 32 - 1 := fun e => h (BitVec.eq_of_toNat_eq (by simpa using e))
  have := n.isLt
  rw [BitVec.toNat_add]
  simp
  omega

/-- The first byte's header fixes the counts (R161 to R163). -/
theorem countRemaining_first (v : Byte) (x : Sample) :
    ∃ ps z, countRemaining v (countByte v x PacketState.init) = .ok (ps, z) ∧ ps.Counted v 0 := by
  have hrem : headerBytes v - 1 = BitVec.ofNat 32 (4 * v.toNat + 5 - (0 + 1)) := by
    have := v.isLt
    apply BitVec.eq_of_toNat_eq
    simp [headerBytes, Config.hdrMul, Config.hdrAdd]
    omega
  exact ⟨_, _, rfl, ⟨rfl, rfl, congrArg some hrem, rfl, by simp [headerWords], rfl⟩⟩

/-- A later byte takes one from the bytes remaining, while there are any (R161, R162, R164). -/
theorem PacketState.InPacket.countRemaining_ok {ps : PacketState} {h : Byte} (p : ps.InPacket h)
    (h0 : ps.byteCount ≠ 0) (hn : ps.byteCount ≠ BitVec.allOnes 32) (v : Byte) (x : Sample) :
    ∃ ps' z, countRemaining v (countByte v x ps) = .ok (ps', z) ∧
      ps'.Counted h ps.byteCount.toNat := by
  obtain ⟨hbt, hbr, hwt, hwr, hws⟩ := p
  have hs := toNat_succ_of_ne_allOnes hn
  have h1 : ps.byteCount + 1 ≠ 1 := by simpa using h0
  have hh := h.isLt
  have hrem := ofNat_sub_succ (m := 4 * h.toNat + 5) (n := ps.byteCount.toNat) (by omega)
  have hstart : (if (ps.byteCount + 1).toNat % Config.wordBytes = 1 then some x
      else ps.wordStart).isSome = true := by
    split
    next => rfl
    next => exact hws
  simp only [countRemaining, countByte, if_neg h1, hbr, readKnown]
  split at hrem
  next hpos =>
    rw [if_pos hpos]
    exact ⟨_, _, rfl, hs, hbt, congrArg some hrem, hwt, hwr, hstart⟩
  next hpos =>
    rw [if_neg hpos]
    exact ⟨_, _, rfl, hs, hbt, congrArg some hrem, hwt, hwr, hstart⟩

section
variable {ps : PacketState} {h : Byte} {n : Nat}

/-- The classification of a counted byte reads no unknown field (R165). -/
theorem PacketState.Counted.byteClass_ok (p : ps.Counted h n) : ∃ cls, byteClass ps = .ok cls := by
  unfold byteClass
  rw [p.bytesRem]
  split <;> exact ⟨_, rfl⟩

/-- The word step takes one from the words remaining at every 4th byte, while there are any (R166). -/
theorem PacketState.Counted.wordStep_ok (p : ps.Counted h n) :
    ∃ ps', wordStep ps = .ok ps' ∧ ps'.byteCount = ps.byteCount ∧ ps'.InPacket h := by
  have hbr := p.byteCount.symm ▸ p.bytesRem
  unfold wordStep isFourth Config.wordBytes
  by_cases h4 : ps.byteCount.toNat % 4 = 0
  · have hdiv : n / 4 + 1 = ps.byteCount.toNat / 4 := by have := p.byteCount; omega
    have hh := h.isLt
    have hrem := ofNat_sub_succ (m := h.toNat + 1) (n := n / 4) (by omega)
    rw [hdiv] at hrem
    simp only [h4, decide_true, if_true, countWord, p.wordsRem, readKnown]
    refine ⟨_, rfl, ?_⟩
    split at hrem
    next hw =>
      rw [if_pos hw]
      exact ⟨rfl, p.bytesTotal, hbr, p.wordsTotal, congrArg some hrem, p.wordStart⟩
    next hw =>
      rw [if_neg hw]
      exact ⟨rfl, p.bytesTotal, hbr, p.wordsTotal, p.wordsRem.trans (congrArg some hrem),
        p.wordStart⟩
  · have hdiv : n / 4 = ps.byteCount.toNat / 4 := by have := p.byteCount; omega
    simp only [h4, decide_false, Bool.false_eq_true, if_false]
    exact ⟨ps, rfl, rfl, p.bytesTotal, hbr, p.wordsTotal, hdiv ▸ p.wordsRem, p.wordStart⟩

end

/-- The units of a byte read no unknown field (R165 to R167). -/
theorem PacketState.InPacket.unitsOf_ok {ps : PacketState} {h : Byte} (p : ps.InPacket h) (m : Mode)
    (v : Byte) (cls : Cls) (z : Bool) (x y : Sample) : ∃ ev, unitsOf m v cls z x y ps = .ok ev := by
  obtain ⟨-, hbr, -, hwr, hws⟩ := p
  obtain ⟨ws, hws⟩ := Option.isSome_iff_exists.1 hws
  have hbyte : ∀ cls, ∃ e, byteUnit v cls x y ps = .ok e := fun cls => by
    simp [byteUnit, hbr, readKnown]
  have hword : ∃ e, wordUnit y ps = .ok e := by
    simp [wordUnit, hwr, hws, readKnown]
  unfold unitsOf
  split
  next => obtain ⟨e, he⟩ := hbyte cls; exact ⟨_, by rw [he]; rfl⟩
  next =>
    split
    next => obtain ⟨e, he⟩ := hword; exact ⟨_, by rw [he]; rfl⟩
    next =>
      split
      next => obtain ⟨e, he⟩ := hbyte .crc; exact ⟨_, by rw [he]; rfl⟩
      next => exact ⟨_, rfl⟩

/-- The accumulator's reset leaves the counts (R166). -/
theorem PacketState.InPacket.clearWord_consistent {ps : PacketState} {h : Byte} (p : ps.InPacket h)
    (h0 : ps.byteCount ≠ 0) : (clearWord ps).Consistent := by
  unfold clearWord
  split
  next => exact .inr ⟨h0, h, p⟩
  next => exact .inr ⟨h0, h, p⟩

/-- From the packet state of a packet, a byte below the limit is assembled, into one of that packet
(R161 to R168). -/
theorem PacketState.Consistent.assembleByte_ok {ps : PacketState} (c : ps.Consistent)
    (hn : ps.byteCount ≠ BitVec.allOnes 32) (m : Mode) (v : Byte) (x y : Sample) :
    ∃ ps' events, assembleByte m v x y ps = .ok (ps', events) ∧ ps'.Consistent := by
  obtain ⟨h, n, ps1, z, h1, p1⟩ : ∃ h n ps1 z,
      countRemaining v (countByte v x ps) = .ok (ps1, z) ∧ ps1.Counted h n := by
    rcases c with rfl | ⟨h0, h, p⟩
    · exact ⟨v, 0, countRemaining_first v x⟩
    · exact ⟨h, _, p.countRemaining_ok h0 hn v x⟩
  obtain ⟨cls, h2⟩ := p1.byteClass_ok
  obtain ⟨ps2, h3, hb, p2⟩ := p1.wordStep_ok
  obtain ⟨ev, h4⟩ := p2.unitsOf_ok m v cls z x y
  have h0 : ps2.byteCount ≠ 0 := fun e => by
    have := p1.byteCount
    simp [← hb, e] at this
  refine ⟨clearWord ps2, ev, ?_, p2.clearWord_consistent h0⟩
  simp only [assembleByte, if_neg hn, h1, h2, h3, h4, Except.bind, Except.map]

/-- A byte that is assembled in a packet leaves the packet state of that packet. -/
theorem PacketState.Consistent.assembleByte {ps ps' : PacketState} {events : List Event} {m : Mode}
    {v : Byte} {x y : Sample} (c : ps.Consistent)
    (h : assembleByte m v x y ps = .ok (ps', events)) : ps'.Consistent := by
  have hn : ps.byteCount ≠ BitVec.allOnes 32 := fun e => by
    simp [Machine.assembleByte, e] at h
  obtain ⟨ps1, ev, h1, c1⟩ := c.assembleByte_ok hn m v x y
  rw [h1] at h
  cases h
  exact c1

/-- Every operation keeps the packet state that of one packet. -/
theorem Effect.consistent (e : Effect s i t) (c : s.ps.Consistent) : t.ps.Consistent := by
  cases e with
  | started | reset => exact .inl rfl
  | assembled h => exact c.assembleByte h
  | sampled => simpa using c
  | _ => exact c

/-- Settles O47: START and RESET write `PS_INIT`, ASSEMBLE keeps the packet's counts, and nothing else
writes the packet state. -/
theorem stepKeepsThePacketState : Obligations.StepKeepsThePacketState := by
  intro s t c h
  exact step_keeps (P := fun s => s.ps.Consistent) (fun _ _ c => c) (fun _ c => c) (fun _ _ c => c)
    (fun _ _ _ c _ e => e.consistent c) c h

end Sys2Proof.Machine
end

section
/-! What every step of a run keeps of the engine's registers: R38's invariant, and the shift register's
bound (R26, R38, R168). -/

namespace Sys2Proof.Machine

variable {i : Instr} {s t : State}

/-! ## The engine's invariants -/

theorem engineInv_of_align (h : t.phase = eocAlign) : t.EngineInv := by
  simp [State.EngineInv, State.PhaseLegal, h, eocAlign, eocStart, eocBit, eocClassify, eocAssemble]

theorem engineInv_of_halted (h : t.phase = eocHalted) : t.EngineInv := by
  simp [State.EngineInv, State.PhaseLegal, h, eocHalted, eocStart, eocBit, eocClassify, eocAssemble]

theorem engineInv_of_start (h : t.phase = eocStart) (hp : t.curA.pos = t.curB.pos)
    (hA : t.level .a = true) (hB : t.level .b = true) : t.EngineInv := by
  simp [State.EngineInv, State.PhaseLegal, h, hp, hA, hB, eocStart, eocClassify]

theorem engineInv_of_classify (h : t.phase = eocClassify) (hp : t.curA.pos = t.curB.pos)
    (hA : t.level .a = false) : t.EngineInv := by
  simp [State.EngineInv, State.PhaseLegal, h, hp, hA, eocStart, eocClassify]

/-- BIT and ASSEMBLE are entered with equal positions, and nothing is asked of the levels. -/
theorem engineInv_of_byte (h : t.phase = eocBit ∨ t.phase = eocAssemble)
    (hp : t.curA.pos = t.curB.pos) : t.EngineInv := by
  rcases h with h | h <;>
    simp [State.EngineInv, State.PhaseLegal, h, hp, eocBit, eocAssemble, eocStart, eocClassify]

/-- ASSEMBLE is executed only where `phase` is its code (R181). -/
theorem State.Runs.phase_assemble (r : s.Runs .assemble) : s.phase = eocAssemble := by
  have hd := decodePhase_eq_some.1 (r.decodePhase_eq rfl)
  simpa using hd

/-- BIT is executed only with register `k`, where `phase` spells it (R76, R181). -/
theorem State.Runs.phase_bit {k : BitVec 3} (r : s.Runs (.bit k)) :
    eocMajor s.phase = eocMajor eocBit ∧ k = s.k := by
  have hd := decodePhase_eq_some.1 (r.decodePhase_eq rfl)
  simpa using hd

/-- No cursor command is executed with the port empty. -/
theorem State.Runs.not_isCursor (r : s.Runs i) (h : s.OnlyEngineMovesCursors) :
    i.isCursor = false := by
  rcases r with hh | ⟨-, hc⟩ | hd
  · exact (not_isEngine_of_isHost hh).2
  · exact absurd h hc
  · have he := decodePhase_isEngine hd
    by_contra hc
    simp [not_isEngine_of_isCursor (by simpa using hc)] at he

/-- Every operation that the run loop executes with the port empty keeps the engine's invariants. -/
theorem Effect.engineInv (e : Effect s i t) (r : s.Runs i) (hc : s.OnlyEngineMovesCursors)
    (inv : s.EngineInv) : t.EngineInv := by
  cases e with
  | blocked | refused | extended => exact inv
  | commanded h => simp [r.not_isCursor hc] at h
  | alignStays | resynced | packetEnds | reset => exact engineInv_of_align rfl
  | alignHandsOver _ hp hA hB => exact engineInv_of_start rfl hp hA hB
  | started _ hp => exact engineInv_of_byte (.inl rfl) hp
  | @sampled k _ _ _ _ hp =>
    refine engineInv_of_byte ?_ (by simpa using hp)
    by_cases hk : k = 7
    · exact .inr ((sampleBit_phase _ _ _ _).trans (if_pos hk))
    · exact .inl ((sampleBit_phase _ _ _ _).trans (if_neg hk))
  | ambiguous _ hp hA => exact engineInv_of_classify rfl hp hA
  | assembled =>
    exact engineInv_of_byte (.inl rfl) (inv.2.1 (.inr (.inr (.inr r.phase_assemble))))
  | cancelled => exact engineInv_of_halted rfl

/-- No operation writes the port. -/
theorem Effect.command (e : Effect s i t) : t.command = s.command := by
  cases e with
  | sampled => simp
  | _ => rfl

/-- Settles O48: the capture and the packet state are kept whatever is executed, the engine's invariants
because an empty port stays empty. -/
theorem stepKeepsTheInvariants : Obligations.StepKeepsTheInvariants := by
  rintro s t ⟨cap, con, eng, port⟩ h
  have engine : t.EngineInv ∧ t.OnlyEngineMovesCursors :=
    step_keeps (P := fun s => s.EngineInv ∧ s.OnlyEngineMovesCursors) (fun _ _ p => p)
      (fun _ p => ⟨p.1, rfl⟩) (fun _ _ p => p)
      (fun _ _ _ p r e => ⟨e.engineInv r p.2 p.1, e.command.trans p.2⟩) ⟨eng, port⟩ h
  exact ⟨stepKeepsTheCapture s t cap h, stepKeepsThePacketState s t con h, engine⟩

/-! ## The shift register -/

/-- A shifted-in bit needs one more place (R26, R143). -/
theorem shiftIn_lt {sh : Byte} {n : Nat} (b : Bool) (h : sh.toNat < 2 ^ n) :
    (shiftIn sh b).toNat < 2 ^ (n + 1) := by
  have hpow : 0 < 2 ^ n := Nat.two_pow_pos n
  have hsh : (sh <<< 1).toNat < 2 ^ (n + 1) := by
    rw [BitVec.toNat_shiftLeft, Nat.shiftLeft_eq, Nat.pow_succ]
    exact Nat.lt_of_le_of_lt (Nat.mod_le _ _) (by omega)
  have hb : ((BitVec.ofBool b).setWidth 8).toNat < 2 ^ (n + 1) := by
    have : ((BitVec.ofBool b).setWidth 8).toNat < 2 := by cases b <;> decide
    rw [Nat.pow_succ]
    omega
  rw [shiftIn, BitVec.toNat_or]
  exact Nat.or_lt_two_pow hsh hb

theorem shiftInv_of_phase (h : eocMajor t.phase ≠ eocMajor eocBit) : t.ShiftInv :=
  fun h' => absurd h' h

/-- Every operation that the run loop executes keeps the bound of `shift`. -/
theorem Effect.shiftInv (e : Effect s i t) (r : s.Runs i) (inv : s.ShiftInv) : t.ShiftInv := by
  cases e with
  | blocked | refused | commanded | extended => exact inv
  | started | assembled => exact fun _ => Nat.one_pos
  | @sampled k x y z f hp =>
    obtain ⟨hphase, rfl⟩ := r.phase_bit
    by_cases hk : s.k = 7
    · refine shiftInv_of_phase ?_
      rw [State.answered_phase, sampleBit_phase, if_pos hk]
      decide
    · intro _
      have hk1 : (s.k + 1).toNat = s.k.toNat + 1 := by bv_omega
      rw [State.answered_shift, State.answered_k, sampleBit_shift, sampleBit_k, if_neg hk, hk1]
      exact shiftIn_lt _ (inv hphase)
  | alignStays | alignHandsOver | resynced | ambiguous | packetEnds | reset | cancelled =>
    exact shiftInv_of_phase (by simp; decide)

/-- Settles O49: the only operation that adds a bit is BIT with register `k`, which steps `k` along with
it or leaves BIT. -/
theorem stepKeepsTheShiftRegister : Obligations.StepKeepsTheShiftRegister := by
  intro s t inv h
  exact step_keeps (P := State.ShiftInv) (fun _ _ p => p) (fun _ p => p) (fun _ _ p => p)
    (fun _ _ _ p r e => e.shiftInv r p) inv h

end Sys2Proof.Machine
end

section
/-! Which operations write which registers, how the log grows and how the cursors move (R24, R28, R30,
R32, R36, R51, R77, R185). -/

namespace Sys2Proof.Machine

variable {i : Instr} {s t : State}

/-! ## Writers -/

theorem Effect.modeReg (e : Effect s i t) :
    t.modeReg = s.modeReg ∨ ∃ m pA pB, i = .reset m pA pB := by
  cases e with
  | reset => exact .inr ⟨_, _, _, rfl⟩
  | sampled => exact .inl (by simp)
  | _ => exact .inl rfl

theorem Effect.ps (e : Effect s i t) :
    t.ps = s.ps ∨ i = .start ∨ i = .assemble ∨ ∃ m pA pB, i = .reset m pA pB := by
  cases e with
  | started => exact .inr (.inl rfl)
  | assembled => exact .inr (.inr (.inl rfl))
  | reset => exact .inr (.inr (.inr ⟨_, _, _, rfl⟩))
  | sampled => exact .inl (by simp)
  | _ => exact .inl rfl

theorem Effect.lastErr (e : Effect s i t) :
    t.lastErr = s.lastErr ∨ t.phase = eocAlign ∧
      (i = .start ∨ (∃ k, i = .bit k) ∨ i = .classify ∨ ∃ m pA pB, i = .reset m pA pB) := by
  cases e with
  | resynced hi => exact .inr ⟨rfl, by tauto⟩
  | reset => exact .inr ⟨rfl, .inr (.inr (.inr ⟨_, _, _, rfl⟩))⟩
  | sampled => exact .inl (by simp)
  | _ => exact .inl rfl

theorem Effect.capture (e : Effect s i t) :
    (t.traceA = s.traceA ∧ t.traceB = s.traceB ∧ t.horizon = s.horizon ∧ t.final = s.final) ∨
      ∃ uA uB h fin, i = .extend uA uB h fin := by
  cases e with
  | extended => exact .inr ⟨_, _, _, _, rfl⟩
  | sampled => exact .inl (by simp)
  | _ => exact .inl ⟨rfl, rfl, rfl, rfl⟩

theorem Effect.phase_halted (e : Effect s i t) (h : t.phase = eocHalted) :
    s.phase = eocHalted ∨ i = .cancel := by
  cases e with
  | blocked | refused | commanded | extended => exact .inl h
  | cancelled => exact .inr rfl
  | @sampled k =>
    rw [State.answered_phase, sampleBit_phase] at h
    split at h <;> exact absurd h (by decide)
  | _ => exact absurd h (by simp; decide)

theorem Effect.inbox (e : Effect s i t) : t.inbox = s.inbox := by
  cases e with
  | sampled => simp
  | _ => rfl

/-- Settles O40: each register is written by the operations that `Effect` shows to write it. -/
theorem writersOfEachRegister : Obligations.WritersOfEachRegister := by
  intro i s t h
  have e := exec_effect h
  exact ⟨e.modeReg, e.ps, e.lastErr, e.capture, e.phase_halted, e.inbox, e.command⟩

/-! ## The log -/

/-- No operation but RESET removes or changes an event (R36). -/
theorem Effect.out_prefix (e : Effect s i t) (hi : ∀ m pA pB, i ≠ .reset m pA pB) :
    s.out <+: t.out := by
  cases e with
  | started | sampled | packetEnds => simp
  | assembled => exact List.prefix_append _ _
  | reset => exact absurd rfl (hi _ _ _)
  | _ => exact List.prefix_refl _

/-- An accepted RESET empties the log (R36, R211). -/
theorem Effect.out_reset {m : Mode} {pA pB : Sample} (e : Effect s (.reset m pA pB) t)
    (ha : t.answer = .done) : t.out = [] := by
  cases e with
  | blocked he => cases he
  | refused => cases ha
  | commanded hc => cases hc
  | resynced hi => simp at hi
  | reset => rfl

/-- CANCEL leaves the log (R36, R183). -/
theorem Effect.out_cancel (e : Effect s .cancel t) : t.out = s.out := by
  cases e with
  | resynced hi => simp at hi
  | _ => rfl

/-- Settles O41: events are only appended, except by RESET. -/
theorem logOnlyGrows : Obligations.LogOnlyGrows := by
  intro i s t h
  have e := exec_effect h
  refine ⟨e.out_prefix, ?_, ?_⟩
  · rintro ⟨m, pA, pB, rfl⟩
    exact e.out_reset
  · rintro rfl
    exact e.out_cancel

/-! ## The cursors -/

/-- An operation but RESET moves the cursors forward (R24). -/
theorem Effect.forward (e : Effect s i t) (hi : ∀ m pA pB, i ≠ .reset m pA pB) :
    ∃ v, Forward s v ∧ ∀ c, t.cur c = v.cur c := by
  cases e with
  | commanded _ f | alignStays f | alignHandsOver f | started f | resynced _ f | sampled f
  | ambiguous f | packetEnds f => exact ⟨_, f, fun c => by cases c <;> simp⟩
  | reset => exact absurd rfl (hi _ _ _)
  | _ => exact ⟨s, .refl s, fun c => by cases c <;> rfl⟩

/-- Settles O43: the moves of every other operation are those of `Forward`. -/
theorem cursorsOnlyMoveForward : Obligations.CursorsOnlyMoveForward := by
  intro i s t c inv hi h
  obtain ⟨v, f, hv⟩ := (exec_effect h).forward hi
  rw [hv c]
  exact ⟨f.le inv c, f.idx_le inv c⟩

end Sys2Proof.Machine
end

section
/-! Where the engine's rules can fault (R38, R105, R161, R196), and the levels after a validated start
(R38, R129). -/

namespace Sys2Proof.Machine

variable {i : Instr} {s t : State} {c : Ch} {x y : Sample} {r : Fault}

/-! ## ALIGN -/

/-- Branch (a) only advances the cursor that is behind (R120). -/
theorem alignPositions_ne_fault : alignPositions s ≠ .fault r := by
  unfold alignPositions
  split
  next h => exact fun e => BitVec.lt_asymm h (alignTo_eq_fault.1 e).1
  next =>
    split
    next h => exact fun e => BitVec.lt_asymm h (alignTo_eq_fault.1 e).1
    next => simp

/-- From equal positions a branch of (b) brings the other cursor forward (R23, R120). -/
theorem raiseLow_ne_fault (inv : s.CaptureInv) (hp : s.position .a = s.position .b) :
    raiseLow c s ≠ .fault r := by
  unfold raiseLow
  split
  next =>
    simp only [ne_eq, Flow.andThen_eq_fault, goNext_ne_fault, false_or, alignTo_eq_fault]
    rintro ⟨_, u, hg, hlt, -⟩
    obtain ⟨hu, ho⟩ := position_next hg
    have hpo : u.position (other c) = s.position c := by
      simp only [State.position, ho]
      cases c
      · exact hp.symm
      · exact hp
    exact BitVec.lt_asymm (inv.lt_upcoming hu).1 (hpo ▸ hlt)
  next => simp

theorem raiseLow_position (h : raiseLow c s = .ok () t) (hp : s.position .a = s.position .b) :
    t.position .a = t.position .b := by
  obtain ⟨-, ⟨-, rfl⟩ | ⟨-, hp', -⟩⟩ := raiseLow_ok h
  · exact hp
  · exact hp'

theorem alignRule_ne_fault (inv : s.CaptureInv) : alignRule s ≠ .fault r := by
  simp only [alignRule, ne_eq, Flow.andThen_eq_fault, alignPositions_ne_fault, false_or,
    reduceCtorEq, and_false, exists_false, or_false]
  rintro ⟨_, u, h1, h⟩
  obtain ⟨f1, p1⟩ := alignPositions_ok h1
  have inv1 := f1.inv inv
  rcases h with h | ⟨_, v, h2, h⟩
  · exact raiseLow_ne_fault inv1 p1 h
  · exact raiseLow_ne_fault ((raiseLow_ok h2).1.inv inv1) (raiseLow_position h2 p1) h

/-! ## START -/

theorem startBurst_ne_fault {n : Nat} {first : Bool} : startBurst x y n first s ≠ .fault r := by
  induction n generalizing s first with
  | zero => simp [startBurst]
  | succ n ih =>
    simp only [startBurst, burstToggle, ne_eq, Flow.andThen_eq_fault, peekNext_ne_fault, false_or,
      not_or]
    refine ⟨?_, fun ⟨_, u, _, h⟩ => ih h⟩
    rintro ⟨z, u, -, h⟩
    split at h
    · cases h
    · split at h
      · cases h
      · exact goNext_ne_fault h

theorem upcoming_congr (ht : t.trace c = s.trace c) (hc : t.cur c = s.cur c) :
    t.upcoming c = s.upcoming c := by
  rw [State.upcoming, State.upcoming, ht, hc]

theorem level_congr (ht : t.trace c = s.trace c) (hc : t.cur c = s.cur c) :
    t.level c = s.level c := by
  rw [State.level, State.level, ht, hc]

/-- Where stages S1 to S7 go through (R124 to R128), A stands at the window's end, and the refined end
lies after it, since no fifth toggle lies in the window. -/
theorem startStages_position {w : Sample × Sample} {z : Sample} {s1 s2 s3 s4 s5 : State}
    (h1 : startWindow s = .ok w s1) (h2 : startBurst w.1 w.2 Config.burst true s1 = .ok () s2)
    (h3 : noFifthToggle w.2 s2 = .ok () s3) (h4 : refinedEnd s3 = .ok z s4)
    (h5 : quietUntil z s4 = .ok () s5) : s5.position .a < z := by
  obtain ⟨-, -, hw, -⟩ := startWindow_ok h1
  obtain ⟨f2, e2⟩ := startBurst_ok h2
  obtain ⟨rfl, hfifth, -⟩ := noFifthToggle_ok h3
  obtain ⟨g4, rfl⟩ := refinedEnd_ok h4
  obtain ⟨g5, -⟩ := quietUntil_ok h5
  obtain ⟨hend, e4⟩ := position_next g4
  have hrise : s4.upcoming .a = some w.2 := by
    rw [upcoming_congr ((forward_next g4).trace .a) e4, upcoming_congr (f2.trace .a) e2, hw]
  have hA := (position_next g5).1
  rw [hrise] at hA
  rw [← Option.some.inj hA]
  exact hfifth _ hend

/-- The last move of START is forward (R105, R129). -/
theorem startRule_ne_fault : startRule s ≠ .fault r := by
  simp only [startRule, ne_eq, Flow.andThen_eq_fault, reduceCtorEq, and_false, exists_false, or_false,
    startBurst_ne_fault, advanceTo_eq_fault, false_or]
  rintro (h | ⟨w, s1, h1, _, s2, h2, h | ⟨_, s3, h3, h | ⟨z, s4, h4, h | ⟨_, s5, h5, hlt, -⟩⟩⟩⟩)
  · simp [startWindow, Flow.andThen_eq_fault, goNext_ne_fault, peekNext_ne_fault] at h
  · simp only [noFifthToggle, Flow.andThen_eq_fault, wouldCross_ne_fault, false_or] at h
    obtain ⟨b, u, -, h⟩ := h
    split at h <;> cases h
  · simp [refinedEnd, Flow.andThen_eq_fault, goNext_ne_fault] at h
  · simp only [quietUntil, Flow.andThen_eq_fault, goNext_ne_fault, wouldCross_ne_fault,
      false_or] at h
    obtain ⟨_, u, -, b, v, -, h⟩ := h
    split at h <;> cases h
  · exact BitVec.lt_asymm (startStages_position h1 h2 h3 h4 h5) hlt

/-! ## BIT -/

theorem position_eq (hp : s.position .a = s.position .b) (c d : Ch) :
    s.position c = s.position d := by
  cases c <;> cases d <;> simp [hp]

theorem clockEdge_ne_fault {k : BitVec 3} : clockEdge k s ≠ .fault r := by
  unfold clockEdge skipLow
  split <;> simp [Flow.andThen_eq_fault, goNext_ne_fault]

/-- From equal positions the clock's falling edge lies ahead of the data cursor (R38, R140). -/
theorem bitRule_ne_fault {k : BitVec 3} (inv : s.CaptureInv) (hp : s.position .a = s.position .b) :
    bitRule k s ≠ .fault r := by
  simp only [bitRule, ne_eq, Flow.andThen_eq_fault, clockEdge_ne_fault, advanceTo_eq_fault, false_or]
  rintro ⟨z, u, h1, ⟨hlt, -⟩ | ⟨n, v, -, h⟩⟩
  · obtain ⟨w, f, hdata, g, rfl, -⟩ := clockEdge_ok h1
    obtain ⟨hup, hother⟩ := position_next g
    have hd : u.position (dataOf k) = s.position (clockOf k) := by
      rw [← position_eq hp (dataOf k)]
      exact congrArg Cursor.pos (hother.trans hdata)
    have hahead := sample_lt_of_le_of_lt (f.le inv _) ((f.inv inv).lt_upcoming hup).1
    exact BitVec.lt_asymm hahead (hd ▸ hlt)
  · rcases judgeBit_cases k (s.position .a) z n v with e | ⟨-, e⟩ | e <;> rw [e] at h <;> cases h

/-! ## CLASSIFY -/

theorem countClock_ne_fault {left cnt : Nat} : countClock x left cnt s ≠ .fault r := by
  induction left generalizing s cnt with
  | zero => simp [countClock]
  | succ left ih =>
    simp only [countClock, ne_eq, Flow.andThen_eq_fault, peekNext_ne_fault, false_or]
    rintro ⟨z, u, -, h⟩
    split at h
    · rcases Flow.andThen_eq_fault.1 h with h | ⟨_, v, -, h⟩
      · exact goNext_ne_fault h
      · exact ih h
    · cases h

theorem fourthClock_ne_fault {n : Nat} : fourthClock n x s ≠ .fault r := by
  unfold fourthClock
  split
  next => exact wouldCross_ne_fault
  next => simp

/-- With both cursors before `me`, the two moves of End are forward (R105, R147). -/
theorem endPacket_ne_fault (hA : s.position .a < x) (hB : s.position .b < x) :
    endPacket x s ≠ .fault r := by
  simp only [endPacket, ne_eq, Flow.andThen_eq_fault, advanceTo_eq_fault, reduceCtorEq, and_false,
    exists_false, or_false]
  rintro (⟨hlt, -⟩ | ⟨n, u, h, hlt, -⟩)
  · exact BitVec.lt_asymm hA (by simpa using hlt)
  · have hu : u.position .b = s.position .b := congrArg Cursor.pos (position_advance h).2
    exact BitVec.lt_asymm hB (hu ▸ hlt)

/-- From equal positions `me` lies ahead of both cursors, and the counted clock transitions lie before
it (R38, R146). -/
theorem classifyRule_ne_fault (inv : s.CaptureInv) (hp : s.position .a = s.position .b) :
    classifyRule s ≠ .fault r := by
  simp only [classifyRule, ne_eq, Flow.andThen_eq_fault, peekNext_ne_fault, peekNext_eq_ok,
    countClock_ne_fault, fourthClock_ne_fault, false_or]
  rintro ⟨me, _, ⟨hme, rfl⟩, m, s1, h1, b, s2, h2, h⟩
  obtain ⟨-, hB, hA⟩ := countClock_ok h1
  obtain rfl := fourthClock_ok h2
  have hb := (inv.lt_upcoming hme).1
  have hb1 : s2.position .b < me := by simpa [State.position, hB] using hb
  have ha1 : s2.position .a < me := by
    rcases hA with rfl | hA
    · exact hp ▸ hb
    · exact hA
  split at h
  · exact endPacket_ne_fault ha1 hb1 h
  · cases h
  · cases h

/-! ## ASSEMBLE -/

/-- In a packet, ASSEMBLE faults exactly where the byte count is exhausted (R161, R170). -/
theorem assembleRule_eq_fault (c : s.ps.Consistent) :
    assembleRule s = .fault r ↔ r = .counterOverflow ∧ s.ps.byteCount = BitVec.allOnes 32 := by
  unfold assembleRule
  by_cases hn : s.ps.byteCount = BitVec.allOnes 32
  · simp [assembleByte, hn, eq_comm]
  · obtain ⟨ps, ev, h, -⟩ := c.assembleByte_ok hn s.modeReg s.shift s.byteStart s.byteEnd
    simp only [h, reduceCtorEq, false_iff]
    exact fun e => hn e.2

/-! ## The run loop -/

theorem step_ne_refused {r : Refusal} : step s ≠ .refused r := by
  unfold step
  split
  next => exact exec_ne_refused
  next => exact fun h => exec_ne_refused (releaseCommand_eq_refused.1 h)
  all_goals simp

/-- With nothing offered and the port empty, the run loop executes what `phase` names (R181). -/
theorem step_engine (hb : s.inbox = []) (hc : s.command = none)
    (hd : decodePhase s.phase s.k = some i) : step s = exec i s := by
  have hh : s.phase ≠ eocHalted := fun h => by simp [h] at hd
  simp [step, fetch, hb, fetchEngine, hh, hd, hc]

/-- In a run, a step with an operation offered or outside ASSEMBLE does not fault (R38, R105). -/
theorem State.Inv.step_ne_fault (inv : s.Inv) (h : s.inbox ≠ [] ∨ s.phase ≠ eocAssemble) :
    step s ≠ .fault r := by
  obtain ⟨cap, -, ⟨legal, equal, -⟩, port⟩ := inv
  by_cases hb : s.inbox = []
  · have engine {i : Instr} (hd : decodePhase s.phase s.k = some i) : step s = exec i s :=
      step_engine hb port hd
    rcases legal with hp | hp | hp | hp | hp | hp
    · rw [engine (hp ▸ decodePhase_align _)]
      exact fun e => alignRule_ne_fault cap (settle_eq_fault.1 e)
    · rw [engine (hp ▸ decodePhase_start _)]
      exact fun e => startRule_ne_fault (settle_eq_fault.1 e)
    · rw [engine (hp ▸ decodePhase_bit _)]
      exact fun e => bitRule_ne_fault cap (equal (.inr (.inl hp))) (settle_eq_fault.1 e)
    · rw [engine (hp ▸ decodePhase_classify _)]
      exact fun e => classifyRule_ne_fault cap (equal (.inr (.inr (.inl hp)))) (settle_eq_fault.1 e)
    · simp [hb, hp] at h
    · simp [step, fetch, hb, fetchEngine, hp]
  · obtain ⟨p, rest, hb⟩ := List.exists_cons_of_ne_nil hb
    obtain ⟨t, ht⟩ := step_offered hb
    simp [ht]

/-- Settles O51: every cursor move of the engine is forward and every field that ASSEMBLE reads is
known, so only the exhausted byte count is left to fault. -/
theorem onlyCounterOverflowFaults : Obligations.OnlyCounterOverflowFaults := by
  intro s inv
  refine ⟨fun r => ?_, fun r => step_ne_refused⟩
  by_cases h : s.inbox = [] ∧ s.phase = eocAssemble
  · obtain ⟨hb, hp⟩ := h
    obtain ⟨-, con, -, port⟩ := inv
    have hall : s.ps.byteCount.toNat = 2 ^ 32 - 1 ↔ s.ps.byteCount = BitVec.allOnes 32 := by
      rw [← BitVec.toNat_inj, BitVec.toNat_allOnes]
    rw [step_engine hb port (hp ▸ decodePhase_assemble _), hall]
    have hf : exec .assemble s = .fault r ↔ assembleRule s = .fault r := settle_eq_fault
    rw [hf, assembleRule_eq_fault con]
    simp [hb, hp]
  · refine ⟨fun e => absurd e (inv.step_ne_fault (not_and_or.1 h)), ?_⟩
    rintro ⟨-, hb, hp, -⟩
    exact absurd ⟨hb, hp⟩ h

/-! ## The levels after a validated start -/

theorem levelAfter_not (b : Bool) (n : Nat) : levelAfter (!b) n = !levelAfter b n := by
  simp [levelAfter]

/-- The burst flips B's level once per toggle (R125). -/
theorem startBurst_level {n : Nat} {first : Bool} (h : startBurst x y n first s = .ok () t) :
    t.level .b = levelAfter (s.level .b) n := by
  induction n generalizing s first with
  | zero =>
    cases h
    simp
  | succ n ih =>
    obtain ⟨_, u, h1, h2⟩ := Flow.andThen_eq_ok.1 h
    obtain ⟨b, -, -, -, g⟩ := burstToggle_eq_ok.1 h1
    rw [ih h2, (level_next g).1, levelAfter_not, levelAfter_succ]

/-- A move that crosses nothing keeps the level of its line (R104). -/
theorem level_advance_quiet {n : Count} (inv : s.CaptureInv) (h : advanceTo c x s = .ok n t)
    (hq : ∀ y, s.upcoming c = some y → x < y) : t.level c = s.level c := by
  obtain ⟨hp, -, -, rfl⟩ := advanceTo_eq_ok.1 h
  have hzero : s.crossings c x = 0 := by
    by_contra hne
    have hlt : countUpTo (s.trace c).trans (s.position c) < countUpTo (s.trace c).trans x := by
      have := inv.crossings_eq hp
      omega
    have hy := List.getElem?_eq_getElem (Nat.lt_of_lt_of_le hlt (countUpTo_le_length _ x))
    have hle := (le_iff_lt_countUpTo (inv.wf c).increasing hy x).2 hlt
    exact BitVec.not_le.2 (hq _ ((inv.upcoming_eq c).trans hy)) hle
  simp [State.level, hzero]

/-- A validated START takes A over its fall and its rise and B over five transitions (R124 to R129). -/
theorem startRule_levels {a : Answer} (inv : s.CaptureInv) (hA : s.level .a = true)
    (hB : s.level .b = true) (h : startRule s = .ok a t) :
    t.level .a = true ∧ t.level .b = false := by
  simp only [startRule, Flow.andThen_eq_ok, Flow.ok.injEq] at h
  obtain ⟨w, s1, h1, _, s2, h2, _, s3, h3, z, s4, h4, _, s5, h5, n, s6, h6, -, rfl⟩ := h
  obtain ⟨f1, -, -, g1⟩ := startWindow_ok h1
  obtain ⟨f2, e2⟩ := startBurst_ok h2
  obtain ⟨rfl, -⟩ := noFifthToggle_ok h3
  obtain ⟨g4, -⟩ := refinedEnd_ok h4
  obtain ⟨g5, hq, -⟩ := quietUntil_ok h5
  have inv5 := ((f1.trans f2).trans ((forward_next g4).trans (forward_next g5))).inv inv
  have hB1 : s1.level .b = true := (level_next g1).2.trans hB
  constructor
  · calc s6.level .a = s5.level .a := level_advance_quiet inv5 h6 hq
      _ = !s4.level .a := (level_next g5).1
      _ = !s3.level .a := congrArg _ (level_next g4).2
      _ = !s1.level .a := congrArg _ (level_congr (f2.trace .a) e2)
      _ = s.level .a := by rw [(level_next g1).1, Bool.not_not]
      _ = true := hA
  · calc s6.level .b = s5.level .b := level_advance h6
      _ = s4.level .b := (level_next g5).2
      _ = !s3.level .b := (level_next g4).1
      _ = !levelAfter (s1.level .b) Config.burst := congrArg _ (startBurst_level h2)
      _ = !levelAfter true Config.burst := by rw [hB1]
      _ = false := rfl

/-- Settles O25: a START that reaches BIT is a validated one, since a failed one goes to ALIGN. -/
theorem validStartLeavesAHighBLow : Obligations.ValidStartLeavesAHighBLow := by
  intro s t inv hA hB h hphase hans
  rcases exec_engine_next rfl h with rfl | ⟨u, rfl, h'⟩
  · cases hans
  · obtain h' | h' : startRule s = .ok .done u ∨ startRule s = .ended u := by simpa using h'
    · simpa using startRule_levels inv hA hB h'
    · obtain ⟨-, v, err, -, -, -, rfl⟩ := startRule_ended h'
      exact absurd hphase (by simp; decide)

end Sys2Proof.Machine
end

section
/-! What every step keeps of the order of the log (R61, R175). The cursors only move forward, each event
takes samples between what the log holds and the cursors, and a CRC unit in a word mode can only stand
in a group's first byte. -/

namespace Sys2Proof.Machine

variable {i : Instr} {s t v : State} {x z : Sample}

/-! ## The run loop, in terms of what is executed -/

/-- The induction over the run loop for a property that depends on where in a step its events are taken,
which `Effect` does not tell: as `step_keeps`, with the execution itself in place of its effect. -/
theorem step_keeps_of_exec {P : State → Prop} (hin : ∀ s b, P s → P { s with inbox := b })
    (hcom : ∀ s, P s → P { s with command := none }) (hans : ∀ s a, P s → P (s.answered a))
    (hexec : ∀ i s t, P s → s.Runs i → exec i s = .next t → P t) (hs : P s) (h : step s = .next t) :
    P t := by
  rcases step_eq_next h with ⟨-, -, rfl⟩ | ⟨p, rest, r, -, rfl⟩ | ⟨p, rest, i, -, -, hh, h⟩ |
    ⟨w, o, r, -, -, -, -, rfl⟩ | ⟨w, o, i, -, -, hc, hd, h⟩ | ⟨i, -, -, -, hd, h⟩
  · exact hs
  · exact hans _ _ (hin _ _ hs)
  · exact hexec i _ t (hin _ _ hs) (.inl hh) h
  · exact hans _ _ (hcom _ hs)
  · obtain ⟨u, hu, rfl⟩ := releaseCommand_eq_next.1 h
    have hPu := hexec i s u hs (.inr (.inl ⟨decodeCcw_isCursor hd, by simp [hc]⟩)) hu
    split
    next => exact hPu
    next => exact hcom _ hPu
  · exact hexec i s t hs (.inr (.inr hd)) h

/-! ## Logs -/

section
variable (out : List Event) (kind : MarkerKind) (c : Ch) (g : Gran) (value : BusWord) (cls : Cls)
  (rem : Count) (x y : Sample)

@[simp] theorem markerSamples_nil : markerSamples [] = [] := rfl
@[simp] theorem unitFirsts_nil : unitFirsts [] = [] := rfl
@[simp] theorem unitLasts_nil : unitLasts [] = [] := rfl

@[simp] theorem markerSamples_append_marker :
    markerSamples (out ++ [.marker kind c x]) = markerSamples out ++ [x] := by simp [markerSamples]
@[simp] theorem unitFirsts_append_marker :
    unitFirsts (out ++ [.marker kind c x]) = unitFirsts out := by simp [unitFirsts]
@[simp] theorem unitLasts_append_marker :
    unitLasts (out ++ [.marker kind c x]) = unitLasts out := by simp [unitLasts]
@[simp] theorem markerSamples_append_unit :
    markerSamples (out ++ [.unit g value cls rem x y]) = markerSamples out := by simp [markerSamples]
@[simp] theorem unitFirsts_append_unit :
    unitFirsts (out ++ [.unit g value cls rem x y]) = unitFirsts out ++ [x] := by simp [unitFirsts]
@[simp] theorem unitLasts_append_unit :
    unitLasts (out ++ [.unit g value cls rem x y]) = unitLasts out ++ [y] := by simp [unitLasts]

end

theorem NoneAfter.mono {l : List Sample} (h : NoneAfter x l) (hx : x ≤ z) : NoneAfter z l :=
  fun y hy => BitVec.le_trans (h y hy) hx

theorem noneAfter_append {l m : List Sample} :
    NoneAfter x (l ++ m) ↔ NoneAfter x l ∧ NoneAfter x m := List.forall_mem_append

theorem noneAfter_singleton : NoneAfter x [z] ↔ z ≤ x := by simp [NoneAfter]

/-- A sorted list stays sorted behind a sample that nothing in it exceeds. -/
theorem pairwise_le_append_singleton {l : List Sample} (hl : l.Pairwise (· ≤ ·)) (h : NoneAfter x l) :
    (l ++ [x]).Pairwise (· ≤ ·) :=
  List.pairwise_append.2 ⟨hl, List.pairwise_singleton _ _, by simpa using h⟩

/-! ## The invariant and the state's operations -/

/-- Moving the cursors forward keeps the log behind them (R24). -/
theorem State.LogInv.forward (inv : s.LogInv) (cap : s.CaptureInv) (f : Forward s t) : t.LogInv := by
  have le := f.le cap
  obtain ⟨⟨v, w, rfl⟩, -⟩ := f
  obtain ⟨sorted, behind, bytes, ends, words⟩ := inv
  refine ⟨sorted, fun c => (behind c).mono (le c), fun hp => ?_, fun hp => ?_, fun hm hn ws hws => ?_⟩
  · obtain ⟨h1, h2⟩ := bytes hp
    exact ⟨h1, fun c => BitVec.le_trans (h2 c) (le c)⟩
  · obtain ⟨h1, h2⟩ := ends hp
    exact ⟨h1, fun c => BitVec.le_trans (h2 c) (le c)⟩
  · obtain ⟨h1, h2⟩ := words hm hn ws hws
    exact ⟨h1, fun c => BitVec.le_trans (h2 c) (le c)⟩

/-- A phase in which no byte is being gathered asks nothing of the byte's bounds. -/
theorem State.LogInv.setPhase {p : Eoc} (inv : s.LogInv) (hbit : eocMajor p ≠ eocMajor eocBit)
    (hasm : p ≠ eocAssemble) : (s.setPhase p).LogInv := by
  obtain ⟨sorted, behind, -, -, words⟩ := inv
  refine ⟨sorted, behind, ?_, fun h => absurd h hasm, words⟩
  rintro (⟨h, -⟩ | h)
  · exact absurd h hbit
  · exact absurd h hasm

theorem State.LogInv.answered (inv : s.LogInv) (a : Answer) : (s.answered a).LogInv := inv

theorem State.LogInv.resync {err : ErrCode} (inv : s.LogInv) : (s.resync err).LogInv := by
  have h : State.LogInv { s with lastErr := err } := inv
  exact h.setPhase (p := eocAlign) (by decide) (by decide)

/-- A marker between the markers of the log and the cursors (R61). -/
theorem State.LogInv.emit_marker {kind : MarkerKind} {c : Ch} (inv : s.LogInv)
    (hm : NoneAfter x (markerSamples s.out)) (hx : ∀ c, x ≤ s.position c) :
    (s.emit (.marker kind c x)).LogInv := by
  obtain ⟨⟨markers, firsts, lasts⟩, behind, bytes, ends, words⟩ := inv
  have hfirsts := unitFirsts_append_marker s.out kind c x
  have hlasts := unitLasts_append_marker s.out kind c x
  have hmarkers := markerSamples_append_marker s.out kind c x
  simp only [State.LogInv, LogSorted, State.emit, hfirsts, hlasts, hmarkers]
  refine ⟨⟨pairwise_le_append_singleton markers hm, firsts, lasts⟩, fun d => ?_, bytes, ends, words⟩
  have hb := behind d
  simp only [noneAfter_append] at hb ⊢
  exact ⟨⟨⟨hb.1.1, noneAfter_singleton.2 (hx d)⟩, hb.1.2⟩, hb.2⟩

theorem State.LogInv.markers_behind (inv : s.LogInv) (c : Ch) :
    NoneAfter (s.position c) (markerSamples s.out) := by
  have h := inv.2.1 c
  simp only [noneAfter_append] at h
  exact h.1.1

theorem State.LogInv.firsts_behind (inv : s.LogInv) (c : Ch) :
    NoneAfter (s.position c) (unitFirsts s.out) := by
  have h := inv.2.1 c
  simp only [noneAfter_append] at h
  exact h.1.2

theorem State.LogInv.lasts_behind (inv : s.LogInv) (c : Ch) :
    NoneAfter (s.position c) (unitLasts s.out) := by
  have h := inv.2.1 c
  simp only [noneAfter_append] at h
  exact h.2

/-- Two markers at one sample, on either channel (R129, R147). -/
theorem State.LogInv.emit_both {kind : MarkerKind} (inv : s.LogInv)
    (hm : NoneAfter x (markerSamples s.out)) (hx : ∀ c, x ≤ s.position c) :
    ((s.emit (.marker kind .a x)).emit (.marker kind .b x)).LogInv := by
  refine (inv.emit_marker hm hx).emit_marker ?_ hx
  rw [State.emit_out, markerSamples_append_marker]
  exact noneAfter_append.2 ⟨hm, noneAfter_singleton.2 (BitVec.le_refl x)⟩

/-! ## The rules -/

theorem alignRule_keeps_logInv (inv : s.LogInv) (cap : s.CaptureInv)
    (h : alignRule s = .ok .done t) : t.LogInv := by
  obtain ⟨-, v, f, -, rfl, -⟩ := alignRule_ok h
  rw [neutralTest_eq]
  split <;> exact (inv.forward cap f).setPhase (by decide) (by decide)

/-- The start markers are at A's first falling edge, after the log and before the cursors (R129). -/
theorem startRule_keeps_logInv (inv : s.LogInv) (cap : s.CaptureInv)
    (h : startRule s = .ok .done t ∨ startRule s = .ended t) : t.LogInv := by
  rcases h with h | h
  · obtain ⟨-, u, v, g, f, hp, rfl⟩ := startRule_ok h
    have f1 := forward_next g
    have inv1 := inv.forward cap f1
    have le : ∀ c, u.position .a ≤ v.position c := fun c =>
      position_eq hp .a c ▸ f.le (f1.inv cap) .a
    have hm : NoneAfter (u.position .a) (markerSamples v.out) := by
      rw [f.eq]
      exact inv1.markers_behind .a
    obtain ⟨sorted, behind, -, -, -⟩ :=
      ((inv1.forward (f1.inv cap) f).emit_both hm le (kind := .start))
    refine ⟨sorted, behind, ?_, fun h => absurd h (by simp; decide), ?_⟩
    · rintro (⟨-, h⟩ | h)
      · exact absurd rfl h
      · exact absurd h (by simp; decide)
    · exact fun _ h => absurd rfl h
  · obtain ⟨u, v, err, g, f, -, rfl⟩ := startRule_ended h
    exact (inv.forward cap ((forward_next g).trans f)).resync

/-- Where BIT `k` puts the byte's start, the log lies before it and the cursors after it (R143, R175). -/
theorem State.LogInv.sampled_byteStart {k : BitVec 3} (inv : s.LogInv)
    (hphase : eocMajor s.phase = eocMajor eocBit) (hk : k = s.k) :
    NoneAfter (if k = 0 then s.position .a else s.byteStart) (unitFirsts s.out) ∧
      ∃ c, (if k = 0 then s.position .a else s.byteStart) ≤ s.position c := by
  by_cases h0 : k = 0
  · rw [if_pos h0]
    exact ⟨inv.firsts_behind .a, .a, BitVec.le_refl _⟩
  · rw [if_neg h0]
    obtain ⟨-, -, bytes, -, -⟩ := inv
    obtain ⟨h1, h2⟩ := bytes (.inl ⟨hphase, hk ▸ h0⟩)
    exact ⟨h1, .a, h2 .a⟩

/-- A sampled bit: its marker and, at the last index, the byte's end are at the cursors; the byte's start
is where A stood at the first index (R140, R143, R144). -/
theorem State.LogInv.sampleBit {k : BitVec 3} (inv : s.LogInv) (cap : s.CaptureInv)
    (hphase : eocMajor s.phase = eocMajor eocBit) (hk : k = s.k) (f : Forward s v)
    (hz : ∀ c, v.position c = z) : (sampleBit k (s.position .a) z v).LogInv := by
  have inv1 := inv.forward cap f
  have hpos : ∀ c, (Machine.sampleBit k (s.position .a) z v).position c = z := fun c => by
    rw [← hz c]
    cases c <;> simp [State.position]
  have hm : NoneAfter z (markerSamples v.out) := hz .a ▸ inv1.markers_behind .a
  have hl : NoneAfter z (unitLasts v.out) := hz .a ▸ inv1.lasts_behind .a
  obtain ⟨sorted, behind, -, -, words⟩ :=
    inv1.emit_marker (kind := .bit) (c := clockOf k) hm fun c => hz c ▸ BitVec.le_refl _
  obtain ⟨hfirst, c, hc⟩ := inv.sampled_byteStart hphase hk
  have hout : v.out = s.out := by rw [f.eq]
  have hstart : v.byteStart = s.byteStart := by rw [f.eq]
  simp only [State.LogInv, hpos, sampleBit_out, sampleBit_byteStart, sampleBit_byteEnd,
    sampleBit_modeReg, sampleBit_ps, unitFirsts_append_marker, unitLasts_append_marker, hstart]
  have hbehind := behind .a
  simp only [State.emit_position, State.emit_out, hz, unitFirsts_append_marker,
    unitLasts_append_marker] at hbehind
  refine ⟨sorted, fun _ => hbehind, fun _ => ⟨hout ▸ hfirst, fun _ => ?_⟩, fun ha => ?_, ?_⟩
  · exact BitVec.le_trans hc (hz c ▸ f.le cap c)
  · have h7 : k = 7 := by
      by_contra h
      rw [sampleBit_phase, if_neg h] at ha
      exact absurd ha (by decide)
    rw [if_pos h7]
    exact ⟨hl, fun _ => BitVec.le_refl z⟩
  · intro hmode hn ws hws
    obtain ⟨h1, h2⟩ := words hmode hn ws hws
    exact ⟨by simpa using h1, fun d => hz d ▸ h2 d⟩

theorem bitRule_keeps_logInv {k : BitVec 3} (inv : s.LogInv) (cap : s.CaptureInv)
    (r : s.Runs (.bit k)) (h : bitRule k s = .ok .done t ∨ bitRule k s = .ended t) : t.LogInv := by
  rcases h with h | h
  · obtain ⟨-, z, n, u, v, h1, h2, h3⟩ := bitRule_ok h
    obtain ⟨f, hA, hB, -⟩ := bitRule_moves h1 h2
    rcases h3 with rfl | ⟨-, rfl⟩
    · obtain ⟨hphase, hk⟩ := r.phase_bit
      exact inv.sampleBit cap hphase hk f fun c => by cases c <;> assumption
    · exact (inv.forward cap f).setPhase (by decide) (by decide)
  · obtain ⟨z, n, u, v, h1, h2, rfl⟩ := bitRule_ended h
    exact (inv.forward cap (bitRule_moves h1 h2).1).resync

/-- The stop markers are at the sample to which both cursors are brought (R147). -/
theorem classifyRule_keeps_logInv (inv : s.LogInv) (cap : s.CaptureInv)
    (h : classifyRule s = .ok .done t ∨ classifyRule s = .ended t) : t.LogInv := by
  rcases h with h | h
  · obtain ⟨-, me, v, -, f, hA, hB, rfl⟩ := classifyRule_ok h
    have inv1 := inv.forward cap f
    have hpos : ∀ c, me ≤ v.position c := fun c => by
      cases c
      · exact hA ▸ BitVec.le_refl _
      · exact hB ▸ BitVec.le_refl _
    have h2 := (inv1.emit_both (kind := .stop) (hA ▸ inv1.markers_behind .a) hpos).setPhase
      (p := eocAlign) (by decide) (by decide)
    have hout : v.out = s.out := by rw [f.eq]
    simpa [State.emit, State.setPhase, hout] using h2
  · obtain ⟨v, f, -, rfl⟩ := classifyRule_ended h
    exact (inv.forward cap f).resync

/-! ## ASSEMBLE -/

theorem except_bind_eq_ok {ε α β : Type} {x : Except ε α} {f : α → Except ε β} {b : β} :
    x.bind f = .ok b ↔ ∃ a, x = .ok a ∧ f a = .ok b := by
  cases x <;> simp [Except.bind]

theorem except_map_eq_ok {ε α β : Type} {x : Except ε α} {f : α → β} {b : β} :
    x.map f = .ok b ↔ ∃ a, x = .ok a ∧ f a = b := by
  cases x <;> simp [Except.map]

section
variable {ps ps' : PacketState} {just : Bool} {m : Mode} {byte : Byte} {cls : Cls} {first last : Sample}
  {events : List Event}

/-- The bytes remaining are counted without a look at the group, and have just reached 0 only where one
was left (R163, R164). -/
theorem countRemaining_eq_ok (h : countRemaining byte ps = .ok (ps', just)) :
    ps'.byteCount = ps.byteCount ∧ ps'.wordStart = ps.wordStart ∧
      (just = true → ps.byteCount ≠ 1 ∧ ps.bytesRem = some 1) := by
  unfold countRemaining at h
  split at h
  next =>
    cases h
    exact ⟨rfl, rfl, fun h => by cases h⟩
  next h1 =>
    cases hr : ps.bytesRem with
    | none => simp [hr, readKnown] at h
    | some rem =>
      simp only [hr, readKnown] at h
      split at h <;> cases h
      · refine ⟨rfl, rfl, fun hj => ⟨h1, congrArg some ?_⟩⟩
        exact sub_eq_zero.1 (of_decide_eq_true hj)
      · exact ⟨rfl, rfl, fun h => by cases h⟩

theorem wordStep_eq_ok (h : wordStep ps = .ok ps') :
    ps'.byteCount = ps.byteCount ∧ ps'.wordStart = ps.wordStart := by
  unfold wordStep countWord at h
  split at h
  next =>
    cases hr : ps.wordsRem with
    | none => simp [hr, readKnown] at h
    | some rem =>
      simp only [hr, readKnown] at h
      cases h
      split <;> exact ⟨rfl, rfl⟩
  next =>
    cases h
    exact ⟨rfl, rfl⟩

@[simp] theorem clearWord_byteCount : (clearWord ps).byteCount = ps.byteCount := by
  unfold clearWord
  split <;> rfl

@[simp] theorem clearWord_wordStart : (clearWord ps).wordStart = ps.wordStart := by
  unfold clearWord
  split <;> rfl

theorem byteUnit_eq_ok {e : Event} (h : byteUnit byte cls first last ps = .ok e) :
    ∃ rem, e = .unit .byte (byte.setWidth 32) cls rem first last := by
  unfold byteUnit at h
  split at h <;> cases h
  exact ⟨_, rfl⟩

theorem wordUnit_eq_ok {e : Event} (h : wordUnit last ps = .ok e) :
    ∃ value cls rem ws, ps.wordStart = some ws ∧ e = .unit .word value cls rem ws last := by
  unfold wordUnit at h
  cases hr : ps.wordsRem with
  | none => simp [hr, readKnown] at h
  | some rem =>
    cases hw : ps.wordStart with
    | none => simp [hr, hw, readKnown] at h
    | some ws =>
      simp only [hr, hw, readKnown] at h
      cases h
      exact ⟨_, _, _, ws, rfl, rfl⟩

/-- A byte has no unit, or one: over its own range, in BYTE mode or where the bytes remaining have just
reached 0; or over its group's, at a 4th byte in a word mode (R160, R165 to R167). -/
theorem unitsOf_eq_ok (h : unitsOf m byte cls just first last ps = .ok events) :
    events = [] ∨ ∃ g value cls' rem x, events = [.unit g value cls' rem x last] ∧
      ((x = first ∧ (m = .byte ∨ just = true)) ∨
        (m ≠ .byte ∧ ps.byteCount.toNat % 4 = 0 ∧ ps.wordStart = some x)) := by
  unfold unitsOf at h
  split at h
  next hm =>
    obtain ⟨e, he, rfl⟩ := except_map_eq_ok.1 h
    obtain ⟨rem, rfl⟩ := byteUnit_eq_ok he
    exact .inr ⟨_, _, _, rem, first, rfl, .inl ⟨rfl, .inl (of_decide_eq_true hm)⟩⟩
  next hm =>
    split at h
    next h4 =>
      obtain ⟨e, he, rfl⟩ := except_map_eq_ok.1 h
      obtain ⟨value, cls', rem, ws, hws, rfl⟩ := wordUnit_eq_ok he
      exact .inr ⟨_, value, cls', rem, ws, rfl,
        .inr ⟨fun e => hm (decide_eq_true e), of_decide_eq_true h4, hws⟩⟩
    next =>
      split at h
      next hj =>
        obtain ⟨e, he, rfl⟩ := except_map_eq_ok.1 h
        obtain ⟨rem, rfl⟩ := byteUnit_eq_ok he
        exact .inr ⟨_, _, _, rem, first, rfl, .inl ⟨rfl, .inr hj⟩⟩
      next =>
        cases h
        exact .inl rfl

/-- The last byte of a packet of `4 h + 5` bytes is the first one of a 4-byte group (R163, R164). -/
theorem PacketState.Consistent.mod_of_last (c : ps.Consistent) (hn : ps.byteCount ≠ BitVec.allOnes 32)
    (h1 : ps.byteCount + 1 ≠ 1) (hr : ps.bytesRem = some 1) :
    (ps.byteCount + 1).toNat % 4 = 1 := by
  rcases c with rfl | ⟨-, h, -, hrem, -⟩
  · exact absurd rfl h1
  · have hs := toNat_succ_of_ne_allOnes hn
    have hh := h.isLt
    have hone : BitVec.ofNat 32 (4 * h.toNat + 5 - ps.byteCount.toNat) = 1 :=
      Option.some.inj (hrem.symm.trans hr)
    have hval := congrArg BitVec.toNat hone
    simp only [BitVec.toNat_ofNat, Nat.reducePow, BitVec.ofNat_eq_ofNat, Nat.one_mod] at hval
    omega

/-- The counts and the units of an assembled byte (R161 to R167). The unit is the byte's own, or the
word's of the group in which it is the 4th byte. A group's start is the byte's where it is the first of
the group, and else the one before, and then the group has no unit of this byte yet. -/
theorem PacketState.Consistent.assembleByte_units (c : ps.Consistent)
    (h : Machine.assembleByte m byte first last ps = .ok (ps', events)) :
    (events = [] ∨ ∃ g value cls rem x, events = [.unit g value cls rem x last] ∧
      (x = first ∨ (m ≠ .byte ∧ ps'.byteCount.toNat % 4 = 0 ∧ ps.byteCount.toNat % 4 ≠ 0 ∧
        ps.wordStart = some x))) ∧
    (m ≠ .byte → ps'.byteCount.toNat % 4 ≠ 0 → ∀ ws, ps'.wordStart = some ws → ws = first ∨
      (ps.byteCount.toNat % 4 ≠ 0 ∧ ps.wordStart = some ws ∧ events = [])) := by
  unfold Machine.assembleByte at h
  split at h
  · cases h
  rename_i hn
  simp only [except_bind_eq_ok, except_map_eq_ok, Prod.mk.injEq] at h
  obtain ⟨⟨ps1, just⟩, h1, cls, -, ps2, h2, ev, h3, rfl, rfl⟩ := h
  obtain ⟨n1, w1, hjust⟩ := countRemaining_eq_ok h1
  obtain ⟨n2, w2⟩ := wordStep_eq_ok h2
  have hs := toNat_succ_of_ne_allOnes hn
  have hcount : ps2.byteCount.toNat = ps.byteCount.toNat + 1 := by rw [n2, n1, ← hs]; rfl
  have hstart : ps2.wordStart =
      if ps2.byteCount.toNat % 4 = 1 then some first else ps.wordStart := by
    rw [w2, w1, n2, n1]
    rfl
  have hlast : just = true → ps2.byteCount.toNat % 4 = 1 := fun hj => by
    obtain ⟨hne, hrem⟩ := hjust hj
    rw [hcount, ← hs]
    exact c.mod_of_last hn hne hrem
  simp only [clearWord_byteCount, clearWord_wordStart]
  constructor
  · rcases unitsOf_eq_ok h3 with rfl | ⟨g, value, cls', rem, x, rfl, ⟨rfl, -⟩ | ⟨hm, h4, hx⟩⟩
    · exact .inl rfl
    · exact .inr ⟨g, value, cls', rem, x, rfl, .inl rfl⟩
    · rw [hstart, if_neg (by omega)] at hx
      exact .inr ⟨g, value, cls', rem, x, rfl, .inr ⟨hm, h4, by omega, hx⟩⟩
  · intro hm h4 ws hws
    rw [hstart] at hws
    split at hws
    next => exact .inl (Option.some.inj hws).symm
    next hne =>
      refine .inr ⟨by omega, hws, ?_⟩
      rcases unitsOf_eq_ok h3 with rfl | ⟨g, value, cls', rem, x, -, ⟨-, hb | hj⟩ | ⟨-, h0, -⟩⟩
      · rfl
      · exact absurd hb hm
      · exact absurd (hlast hj) hne
      · exact absurd h0 h4

end

/-- A unit whose bounds lie after those of the units before it and before the cursors (R61). -/
theorem log_append_unit {g : Gran} {value : BusWord} {cls : Cls} {rem : Count} {x y : Sample}
    (inv : s.LogInv) (hx : NoneAfter x (unitFirsts s.out)) (hx' : ∀ c, x ≤ s.position c)
    (hy : NoneAfter y (unitLasts s.out)) (hy' : ∀ c, y ≤ s.position c) :
    LogSorted (s.out ++ [.unit g value cls rem x y]) ∧
      ∀ c, NoneAfter (s.position c) (markerSamples (s.out ++ [.unit g value cls rem x y]) ++
        unitFirsts (s.out ++ [.unit g value cls rem x y]) ++
        unitLasts (s.out ++ [.unit g value cls rem x y])) := by
  obtain ⟨markers, firsts, lasts⟩ := inv.1
  simp only [LogSorted, markerSamples_append_unit, unitFirsts_append_unit, unitLasts_append_unit,
    noneAfter_append, noneAfter_singleton]
  exact ⟨⟨markers, pairwise_le_append_singleton firsts hx, pairwise_le_append_singleton lasts hy⟩,
    fun c => ⟨⟨inv.markers_behind c, inv.firsts_behind c, hx' c⟩, inv.lasts_behind c, hy' c⟩⟩

/-- ASSEMBLE appends at most one unit, from the byte's or the group's start to the byte's end (R175). -/
theorem assembleRule_keeps_logInv (inv : s.LogInv) (con : s.ps.Consistent)
    (hphase : s.phase = eocAssemble) (h : assembleRule s = .ok .done t) : t.LogInv := by
  obtain ⟨-, ps, events, h1, rfl⟩ := assembleRule_ok h
  obtain ⟨hunits, hwords⟩ := con.assembleByte_units h1
  have ⟨sorted, behind, bytes, ends, words⟩ := inv
  obtain ⟨hstart, hstart'⟩ := bytes (.inr hphase)
  obtain ⟨hend, hend'⟩ := ends hphase
  have noByte : ¬ ((eocMajor eocBit = eocMajor eocBit ∧ (0 : BitVec 3) ≠ 0) ∨ eocBit = eocAssemble) := by
    decide
  have noEnd : eocBit ≠ eocAssemble := by decide
  rcases hunits with rfl | ⟨g, value, cls, rem, x, rfl, hx⟩
  · rw [List.append_nil]
    refine ⟨sorted, behind, fun h => absurd h noByte, fun h => absurd h noEnd,
      fun hm hn ws hws => ?_⟩
    rcases hwords hm hn ws hws with rfl | ⟨h4, hws', -⟩
    · exact ⟨hstart, hstart'⟩
    · exact words hm h4 ws hws'
  · have bounds : NoneAfter x (unitFirsts s.out) ∧ ∀ c, x ≤ s.position c := by
      rcases hx with rfl | ⟨hm, -, h4, hws⟩
      · exact ⟨hstart, hstart'⟩
      · exact words hm h4 x hws
    obtain ⟨sorted', behind'⟩ :=
      log_append_unit (g := g) (value := value) (cls := cls) (rem := rem) inv bounds.1 bounds.2 hend hend'
    refine ⟨sorted', behind', fun h => absurd h noByte, fun h => absurd h noEnd,
      fun hm hn ws hws => ?_⟩
    rcases hwords hm hn ws hws with rfl | ⟨-, -, h⟩
    · rcases hx with rfl | ⟨-, h0, -⟩
      · rw [unitFirsts_append_unit, noneAfter_append, noneAfter_singleton]
        exact ⟨⟨hstart, BitVec.le_refl _⟩, hstart'⟩
      · exact absurd h0 hn
    · cases h

/-! ## Every step -/

/-- After an accepted RESET the log is empty, and no byte and no word is begun (R211). -/
theorem logInv_resetCore (m : Mode) (pA pB : Sample) (s : State) : (resetCore m pA pB s).LogInv := by
  refine ⟨by simp [LogSorted], fun c => by simp [NoneAfter], fun h => absurd h (by simp; decide),
    fun h => absurd h (by simp; decide), fun _ h => absurd rfl h⟩

/-- Every operation that the run loop executes keeps the log in order. -/
theorem exec_keeps_logInv (r : s.Runs i) (cap : s.CaptureInv) (con : s.ps.Consistent) (inv : s.LogInv)
    (h : exec i s = .next t) : t.LogInv := by
  rcases isEngine_or_isCursor_or_isHost i with he | hc | hh
  · rcases exec_engine_next he h with rfl | ⟨u, rfl, h'⟩
    · exact inv
    · refine State.LogInv.answered ?_ _
      rcases h' with ⟨rfl, h'⟩ | ⟨rfl, h'⟩ | ⟨k, rfl, h'⟩ | ⟨rfl, h'⟩ | ⟨rfl, h'⟩
      · exact alignRule_keeps_logInv inv cap h'
      · exact startRule_keeps_logInv inv cap h'
      · exact bitRule_keeps_logInv inv cap r h'
      · exact classifyRule_keeps_logInv inv cap h'
      · exact assembleRule_keeps_logInv inv con r.phase_assemble h'
  · obtain ⟨v, a, f, rfl⟩ := exec_cursor_next hc h
    exact (inv.forward cap f).answered a
  · rcases exec_host_next hh h with ⟨_, rfl⟩ | ⟨m, pA, pB, -, -, rfl⟩ | ⟨_, _, _, _, -, -, rfl⟩ |
      ⟨-, rfl⟩
    · exact inv
    · exact logInv_resetCore m pA pB s
    · exact inv
    · exact inv.setPhase (p := eocHalted) (by decide) (by decide)

/-- Settles O50: the cursors lie after the log and only move forward, and each operation's events take
samples at the cursors or at the bounds that the invariant keeps. -/
theorem stepKeepsTheLogSorted : Obligations.StepKeepsTheLogSorted := by
  intro s t cap con inv h
  have all : t.CaptureInv ∧ t.ps.Consistent ∧ t.LogInv :=
    step_keeps_of_exec (P := fun s => s.CaptureInv ∧ s.ps.Consistent ∧ s.LogInv) (fun _ _ p => p)
      (fun _ p => p) (fun _ _ p => p)
      (fun _ _ _ ⟨cap, con, inv⟩ r e => ⟨(exec_effect e).captureInv cap,
        (exec_effect e).consistent con, exec_keeps_logInv r cap con inv e⟩) ⟨cap, con, inv⟩ h
  exact all.2.2

end Sys2Proof.Machine
end

section
/-! What a Blocked step leaves, and what an extension of the capture leaves as it is (R53, R182, R188).
Every read of the trace in a rule is answered from the captured part or is Blocked, so a longer capture,
whatever it holds beyond the old horizon, gives each read that was answered the same answer. -/

namespace Sys2Proof.Machine

variable {i : Instr} {s t : State} {c d : Ch} {x y : Sample}

/-! ## Blocked steps -/

/-- A rule that answers something else than `blocked` is settled as blocked only without effect. -/
theorem settle_blocked {f : Flow Answer} (hf : ∀ u, f ≠ .ok .blocked u) (h : settle s f = .next t)
    (ha : t.answer = .blocked) : t = s.answered .blocked := by
  rcases settle_eq_next.1 h with ⟨a, u, rfl, rfl⟩ | ⟨u, -, rfl⟩ | ⟨-, rfl⟩
  · exact absurd (congrArg (Flow.ok · u) ha) (hf u)
  · cases ha
  · rfl

/-- A cursor command that answers does not answer `blocked` (R74). -/
theorem andThen_answer_ne_blocked {α : Type} {f : Flow α} {g : α → Answer} (hg : ∀ a, g a ≠ .blocked)
    (u : State) : (f.andThen fun a v => .ok (g a) v) ≠ .ok .blocked u := by
  simp only [ne_eq, Flow.andThen_eq_ok, Flow.ok.injEq]
  rintro ⟨a, v, -, h, -⟩
  exact hg a h

/-- A Blocked operation changes nothing but the answer (R53). -/
theorem exec_blocked (h : exec i s = .next t) (ha : t.answer = .blocked) :
    t = s.answered .blocked := by
  rcases isEngine_or_isCursor_or_isHost i with he | hc | hh
  · rcases exec_engine_next he h with rfl | ⟨u, rfl, -⟩
    · rfl
    · cases ha
  · cases i with
    | level | pos => cases h; cases ha
    | peek | next | adv | wcross =>
      exact settle_blocked (andThen_answer_ne_blocked fun _ e => by cases e) h ha
    | _ => cases hc
  · rcases exec_host_next hh h with ⟨r, rfl⟩ | ⟨_, _, _, -, -, rfl⟩ | ⟨_, _, _, _, -, -, rfl⟩ |
      ⟨-, rfl⟩ <;> cases ha

/-- With nothing offered, a Blocked step changes nothing but the answer, and a command stays at its port
(R53). -/
theorem step_blocked (hb : s.inbox = []) (h : step s = .next t) (ha : t.answer = .blocked) :
    t = s.answered .blocked := by
  rcases step_eq_next h with ⟨-, -, rfl⟩ | ⟨p, rest, r, -, rfl⟩ | ⟨p, rest, i, hb', -⟩ |
    ⟨w, o, r, -, -, -, -, rfl⟩ | ⟨w, o, i, -, -, -, -, h⟩ | ⟨i, -, -, -, -, h⟩
  · rw [← ha]
    rfl
  · cases ha
  · simp [hb] at hb'
  · cases ha
  · obtain ⟨u, hu, rfl⟩ := releaseCommand_eq_next.1 h
    split at ha
    next hb => rw [if_pos hb]; exact exec_blocked hu hb
    next hb => exact absurd ha hb
  · exact exec_blocked h ha

/-- Settles O9: a Blocked rule is settled in the state it began in, and no answer that is given is
`blocked`. -/
theorem blockedStepHasNoEffect : Obligations.BlockedStepHasNoEffect :=
  ⟨fun _ _ _ h ha => exec_blocked h ha, fun _ _ hb h ha => step_blocked hb h ha⟩

/-! ## Another capture that agrees on what is captured -/

/-- What a recapture puts in place: transitions to append, a horizon, FINAL, and an answer. -/
structure Recapture where
  newA : List Sample
  newB : List Sample
  horizon : Sample
  final : Bool
  answer : Answer

/-- The new transitions and the new horizon do not lie before `H`. -/
structure Recapture.Beyond (r : Recapture) (H : Sample) : Prop where
  newA : ∀ y ∈ r.newA, H ≤ y
  newB : ∀ y ∈ r.newB, H ≤ y
  horizon : H ≤ r.horizon

/-- The state with its capture extended and another answer in place. -/
def State.recapture (s : State) (r : Recapture) : State :=
  (extendTrace r.newA r.newB r.horizon r.final s).answered r.answer

/-- An accepted EXTEND lies beyond the horizon (R182). -/
theorem beyond_of_extendAccepted {uA uB : List Sample} {h : Sample} {fin : Bool} {a : Answer}
    (ok : extendAccepted s uA uB h = true) :
    Recapture.Beyond ⟨uA, uB, h, fin, a⟩ s.horizon := by
  obtain ⟨-, hh, hA, hB⟩ := extendAccepted_iff.1 ok
  exact ⟨fun y hy => ((extensionOk_iff.1 hA).2 y hy).1, fun y hy => ((extensionOk_iff.1 hB).2 y hy).1,
    hh⟩

variable {r : Recapture}

/-- The transitions that a recapture appends on a channel. -/
def Recapture.new (r : Recapture) : Ch → List Sample
  | .a => r.newA
  | .b => r.newB

theorem Recapture.Beyond.new {H : Sample} (b : r.Beyond H) (c : Ch) : ∀ y ∈ r.new c, H ≤ y := by
  cases c
  · exact b.newA
  · exact b.newB

@[simp] theorem State.recapture_cur (c : Ch) : (s.recapture r).cur c = s.cur c := by cases c <;> rfl
@[simp] theorem State.recapture_position (c : Ch) : (s.recapture r).position c = s.position c := by
  cases c <;> rfl
@[simp] theorem State.recapture_level (c : Ch) : (s.recapture r).level c = s.level c := by
  cases c <;> rfl
@[simp] theorem State.recapture_horizon : (s.recapture r).horizon = r.horizon := rfl
theorem State.recapture_trans (c : Ch) :
    ((s.recapture r).trace c).trans = (s.trace c).trans ++ r.new c := by cases c <;> rfl
theorem State.recapture_setCur (c : Ch) (v : Cursor) :
    (s.recapture r).setCur c v = (s.setCur c v).recapture r := by cases c <;> rfl
theorem State.recapture_setPhase (p : Eoc) :
    (s.recapture r).setPhase p = (s.setPhase p).recapture r := rfl
theorem State.recapture_resync (err : ErrCode) :
    (s.recapture r).resync err = (s.resync err).recapture r := rfl
theorem State.recapture_emit (e : Event) : (s.recapture r).emit e = (s.emit e).recapture r := rfl
theorem State.recapture_beginPacket :
    beginPacket x (s.recapture r) = (beginPacket x s).recapture r := rfl
theorem State.recapture_sampleBit (k : BitVec 3) :
    sampleBit k x y (s.recapture r) = (sampleBit k x y s).recapture r := by
  simp only [sampleBit_eq, State.recapture_level]
  rfl
theorem State.recapture_neutralTest : neutralTest (s.recapture r) = (neutralTest s).recapture r := by
  simp only [neutralTest_eq, State.recapture_level, State.recapture_setPhase]

/-- A next transition that is captured stays the next one (R102). -/
theorem State.upcoming_recapture_of_some (h : s.upcoming c = some y) :
    (s.recapture r).upcoming c = some y := by
  simp only [State.upcoming, State.recapture_trans, State.recapture_cur] at h ⊢
  exact (List.getElem?_append_left (List.getElem?_eq_some_iff.1 h).1).trans h

/-- A next transition that was not captured lies beyond the old horizon (R51, R102). -/
theorem State.le_upcoming_recapture_of_none (b : r.Beyond s.horizon) (h : s.upcoming c = none)
    (hy : (s.recapture r).upcoming c = some y) : s.horizon ≤ y := by
  simp only [State.upcoming, State.recapture_trans, State.recapture_cur] at h hy
  rw [List.getElem?_append_right (List.getElem?_eq_none_iff.1 h)] at hy
  exact b.new c y (List.mem_of_getElem? hy)

/-- The crossings of a move to a captured sample stay the same (R104). -/
theorem State.crossings_recapture (b : r.Beyond s.horizon) (hx : x < s.horizon) :
    (s.recapture r).crossings c x = s.crossings c x := by
  simp only [State.crossings, State.recapture_trans, State.recapture_cur, List.drop_append,
    countUpTo_append]
  have : countUpTo ((r.new c).drop ((s.cur c).idx.toNat - (s.trace c).trans.length)) x = 0 :=
    countUpTo_eq_zero fun y hy => sample_lt_of_lt_of_le hx (b.new c y (List.mem_of_mem_drop hy))
  omega

/-! ## The rules on another capture -/

/-- A piece of a rule goes through, ends or faults on the recaptured state as it did, and nothing is asked
where it was Blocked. All its states have the horizon `H`. -/
inductive Flow.Alike (r : Recapture) (H : Sample) {α : Type} : Flow α → Flow α → Prop
  | ok {a : α} {t : State} (ht : t.horizon = H) : Alike r H (.ok a t) (.ok a (t.recapture r))
  | ended {t : State} : Alike r H (.ended t) (.ended (t.recapture r))
  | blocked {f : Flow α} : Alike r H .blocked f
  | fault {e : Fault} : Alike r H (.fault e) (.fault e)

variable {H : Sample}

theorem Flow.Alike.andThen {α β : Type} {f f' : Flow α} {g g' : α → State → Flow β}
    (h : f.Alike r H f') (hg : ∀ a t, t.horizon = H → (g a t).Alike r H (g' a (t.recapture r))) :
    (f.andThen g).Alike r H (f'.andThen g') := by
  cases h with
  | ok ht => exact hg _ _ ht
  | ended => exact .ended
  | blocked => exact .blocked
  | fault => exact .fault

theorem peekNext_alike (hs : s.horizon = H) :
    (peekNext c s).Alike r H (peekNext c (s.recapture r)) := by
  cases h : s.upcoming c with
  | none => rw [peekNext_eq_blocked.2 h]; exact .blocked
  | some y =>
    rw [peekNext_eq_ok.2 ⟨h, rfl⟩, peekNext_eq_ok.2 ⟨State.upcoming_recapture_of_some h, rfl⟩]
    exact .ok hs

theorem goNext_alike (hs : s.horizon = H) : (goNext c s).Alike r H (goNext c (s.recapture r)) := by
  cases h : s.upcoming c with
  | none => rw [goNext_eq_blocked.2 h]; exact .blocked
  | some y =>
    have hnext : goNext c (s.recapture r) =
        .ok () ((s.setCur c ⟨y, (s.cur c).idx + 1⟩).recapture r) :=
      goNext_eq_ok.2 ⟨y, State.upcoming_recapture_of_some h, by
        rw [← State.recapture_setCur, State.recapture_cur]⟩
    rw [(goNext_eq_ok (a := ())).2 ⟨y, h, rfl⟩, hnext]
    exact .ok (by simpa using hs)

theorem advanceTo_alike (b : r.Beyond H) (hs : s.horizon = H) :
    (advanceTo c x s).Alike r H (advanceTo c x (s.recapture r)) := by
  subst hs
  unfold advanceTo
  by_cases h1 : x < s.position c
  · simp only [State.recapture_position, if_pos h1]
    exact .fault
  by_cases h2 : s.horizon ≤ x
  · simp only [if_neg h1, if_pos h2]
    exact .blocked
  have hx : x < s.horizon := BitVec.not_le.1 h2
  have h3 : ¬ r.horizon ≤ x := BitVec.not_le.2 (sample_lt_of_lt_of_le hx b.horizon)
  simp only [State.recapture_position, State.recapture_horizon, State.recapture_cur,
    State.recapture_setCur, State.crossings_recapture b hx, if_neg h1, if_neg h2, if_neg h3]
  exact .ok (by simp)

theorem wouldCross_alike (b : r.Beyond H) (hs : s.horizon = H) :
    (wouldCross c x s).Alike r H (wouldCross c x (s.recapture r)) := by
  subst hs
  cases h : wouldCross c x s with
  | blocked => exact .blocked
  | ended t => exact absurd h wouldCross_ne_ended
  | fault e => exact absurd h wouldCross_ne_fault
  | ok z t =>
    obtain ⟨rfl, hz⟩ := wouldCross_eq_ok.1 h
    have h' : wouldCross c x (t.recapture r) = .ok z (t.recapture r) := by
      refine wouldCross_eq_ok.2 ⟨rfl, ?_⟩
      rcases hz with ⟨rfl, y, hy, hyx⟩ | ⟨rfl, hq, hx⟩
      · exact .inl ⟨rfl, y, State.upcoming_recapture_of_some hy, hyx⟩
      · refine .inr ⟨rfl, fun y hy => ?_, sample_lt_of_lt_of_le hx b.horizon⟩
        cases hu : t.upcoming c with
        | none => exact sample_lt_of_lt_of_le hx (State.le_upcoming_recapture_of_none b hu hy)
        | some w =>
          rw [State.upcoming_recapture_of_some hu] at hy
          exact hq y (hu.trans hy)
    rw [h']
    exact .ok rfl

theorem alignTo_alike (b : r.Beyond H) (hs : s.horizon = H) :
    (alignTo c d s).Alike r H (alignTo c d (s.recapture r)) := by
  unfold alignTo
  rw [State.recapture_position]
  exact (advanceTo_alike b hs).andThen fun _ _ ht => .ok ht

theorem alignPositions_alike (b : r.Beyond H) (hs : s.horizon = H) :
    (alignPositions s).Alike r H (alignPositions (s.recapture r)) := by
  unfold alignPositions
  simp only [State.recapture_position]
  split
  · exact alignTo_alike b hs
  · split
    · exact alignTo_alike b hs
    · exact .ok hs

theorem raiseLow_alike (b : r.Beyond H) (hs : s.horizon = H) :
    (raiseLow c s).Alike r H (raiseLow c (s.recapture r)) := by
  unfold raiseLow
  rw [State.recapture_level]
  split
  · exact (goNext_alike hs).andThen fun _ _ ht => alignTo_alike b ht
  · exact .ok hs

theorem alignRule_alike (b : r.Beyond H) (hs : s.horizon = H) :
    (alignRule s).Alike r H (alignRule (s.recapture r)) := by
  refine (alignPositions_alike b hs).andThen fun _ t ht => ?_
  refine (raiseLow_alike b ht).andThen fun _ u hu => ?_
  refine (raiseLow_alike b hu).andThen fun _ v hv => ?_
  rw [State.recapture_neutralTest]
  exact .ok (by simpa [neutralTest_eq] using hv)

theorem startWindow_alike (hs : s.horizon = H) :
    (startWindow s).Alike r H (startWindow (s.recapture r)) := by
  refine (goNext_alike hs).andThen fun _ t ht => ?_
  refine (peekNext_alike ht).andThen fun e u hu => ?_
  rw [State.recapture_position]
  exact .ok hu

theorem burstToggle_alike {first : Bool} (hs : s.horizon = H) :
    (burstToggle x y first s).Alike r H (burstToggle x y first (s.recapture r)) := by
  refine (peekNext_alike hs).andThen fun z t ht => ?_
  split
  · exact .ended
  · split
    · exact .ended
    · exact goNext_alike ht

theorem startBurst_alike {n : Nat} {first : Bool} (hs : s.horizon = H) :
    (startBurst x y n first s).Alike r H (startBurst x y n first (s.recapture r)) := by
  induction n generalizing s first with
  | zero => exact .ok hs
  | succ n ih => exact (burstToggle_alike hs).andThen fun _ _ ht => ih ht

theorem noFifthToggle_alike (b : r.Beyond H) (hs : s.horizon = H) :
    (noFifthToggle x s).Alike r H (noFifthToggle x (s.recapture r)) := by
  refine (wouldCross_alike b hs).andThen fun crosses t ht => ?_
  split
  · exact .ended
  · exact .ok ht

theorem refinedEnd_alike (hs : s.horizon = H) :
    (refinedEnd s).Alike r H (refinedEnd (s.recapture r)) := by
  refine (goNext_alike hs).andThen fun _ t ht => ?_
  rw [State.recapture_position]
  exact .ok ht

theorem quietUntil_alike (b : r.Beyond H) (hs : s.horizon = H) :
    (quietUntil x s).Alike r H (quietUntil x (s.recapture r)) := by
  refine (goNext_alike hs).andThen fun _ t ht => ?_
  refine (wouldCross_alike b ht).andThen fun crosses u hu => ?_
  split
  · exact .ended
  · exact .ok hu

theorem startRule_alike (b : r.Beyond H) (hs : s.horizon = H) :
    (startRule s).Alike r H (startRule (s.recapture r)) := by
  refine (startWindow_alike hs).andThen fun w s1 h1 => ?_
  refine (startBurst_alike h1).andThen fun _ s2 h2 => ?_
  refine (noFifthToggle_alike b h2).andThen fun _ s3 h3 => ?_
  refine (refinedEnd_alike h3).andThen fun z s4 h4 => ?_
  refine (quietUntil_alike b h4).andThen fun _ s5 h5 => ?_
  refine (advanceTo_alike b h5).andThen fun _ s6 h6 => ?_
  rw [State.recapture_beginPacket]
  exact .ok h6

theorem clockEdge_alike {k : BitVec 3} (hs : s.horizon = H) :
    (clockEdge k s).Alike r H (clockEdge k (s.recapture r)) := by
  have hskip : (skipLow (clockOf k) s).Alike r H (skipLow (clockOf k) (s.recapture r)) := by
    unfold skipLow
    rw [State.recapture_level]
    split
    · exact goNext_alike hs
    · exact .ok hs
  refine hskip.andThen fun _ t ht => ?_
  refine (goNext_alike ht).andThen fun _ u hu => ?_
  rw [State.recapture_position]
  exact .ok hu

theorem judgeBit_alike {k : BitVec 3} {n : Count} (hs : s.horizon = H) :
    (judgeBit k x y n s).Alike r H (judgeBit k x y n (s.recapture r)) := by
  unfold judgeBit
  rw [State.recapture_sampleBit, State.recapture_setPhase]
  have hsample : (sampleBit k x y s).horizon = H := by simpa using hs
  split
  · split
    · exact .ok hsample
    · exact .ok hs
    · exact .ended
    · exact .ended
  · split
    · exact .ended
    · exact .ok hsample

theorem bitRule_alike {k : BitVec 3} (b : r.Beyond H) (hs : s.horizon = H) :
    (bitRule k s).Alike r H (bitRule k (s.recapture r)) := by
  refine (clockEdge_alike hs).andThen fun ce t ht => ?_
  refine (advanceTo_alike b ht).andThen fun n u hu => ?_
  rw [State.recapture_position]
  exact judgeBit_alike hu

theorem countClock_alike {left cnt : Nat} (hs : s.horizon = H) :
    (countClock x left cnt s).Alike r H (countClock x left cnt (s.recapture r)) := by
  induction left generalizing s cnt with
  | zero => exact .ok hs
  | succ left ih =>
    refine (peekNext_alike hs).andThen fun z t ht => ?_
    split
    · exact (goNext_alike ht).andThen fun _ _ hu => ih hu
    · exact .ok ht

theorem fourthClock_alike {n : Nat} (b : r.Beyond H) (hs : s.horizon = H) :
    (fourthClock n x s).Alike r H (fourthClock n x (s.recapture r)) := by
  unfold fourthClock
  split
  · exact wouldCross_alike b hs
  · exact .ok hs

theorem endPacket_alike (b : r.Beyond H) (hs : s.horizon = H) :
    (endPacket x s).Alike r H (endPacket x (s.recapture r)) := by
  unfold endPacket
  simp only [State.recapture_emit]
  refine (advanceTo_alike b (by simpa using hs)).andThen fun _ t ht => ?_
  refine (advanceTo_alike b ht).andThen fun _ u hu => ?_
  exact .ok hu

theorem classifyRule_alike (b : r.Beyond H) (hs : s.horizon = H) :
    (classifyRule s).Alike r H (classifyRule (s.recapture r)) := by
  refine (peekNext_alike hs).andThen fun me t ht => ?_
  refine (countClock_alike ht).andThen fun cnt u hu => ?_
  refine (fourthClock_alike b hu).andThen fun crosses v hv => ?_
  split
  · exact endPacket_alike b hv
  · exact .ended
  · exact .ended

/-- ASSEMBLE does not look at the capture (R161). -/
theorem assembleRule_alike (hs : s.horizon = H) :
    (assembleRule s).Alike r H (assembleRule (s.recapture r)) := by
  have hr : assembleByte (s.recapture r).modeReg (s.recapture r).shift (s.recapture r).byteStart
      (s.recapture r).byteEnd (s.recapture r).ps =
      assembleByte s.modeReg s.shift s.byteStart s.byteEnd s.ps := rfl
  unfold assembleRule
  rw [hr]
  split
  · exact .fault
  · exact .ok hs

/-! ## The operations and the run loop on another capture -/

/-- An operation on the extended capture goes on or faults as it did, unless it was Blocked. -/
def AnswersAlike (uA uB : List Sample) (h : Sample) (fin : Bool)
    (o o' : Host.Outcome State Fault Refusal) : Prop :=
  (∀ t, o = .next t → t.answer ≠ .blocked → o' = .next (extendTrace uA uB h fin t)) ∧
    ∀ e, o = .fault e → o' = .fault e

/-- As `AnswersAlike`, for the extension that a recapture makes. -/
abbrev Recapture.Answers (r : Recapture) (o o' : Host.Outcome State Fault Refusal) : Prop :=
  AnswersAlike r.newA r.newB r.horizon r.final o o'

theorem Flow.Alike.settle {f f' : Flow Answer} (h : f.Alike r H f') :
    r.Answers (settle s f) (settle (s.recapture r) f') := by
  cases h with
  | ok | ended => exact ⟨fun t e _ => by cases e; rfl, fun e h => by cases h⟩
  | blocked => exact ⟨fun t e ha => by cases e; exact absurd rfl ha, fun e h => by cases h⟩
  | fault => exact ⟨fun t e => (by cases e), fun e h => h⟩

theorem Flow.Alike.answer {α : Type} {f f' : Flow α} (h : f.Alike r H f') (g : α → Answer) :
    (f.andThen fun a t => .ok (g a) t).Alike r H (f'.andThen fun a t => .ok (g a) t) :=
  h.andThen fun _ _ ht => .ok ht

theorem answer_alike {a a' : Answer} (h : a' = a) :
    r.Answers (Machine.settle s (.ok a s)) (Machine.settle (s.recapture r) (.ok a' (s.recapture r))) :=
  h ▸ (Flow.Alike.ok (H := s.horizon) rfl).settle

/-- An engine operation or a cursor command is no host operation (R70, R75). -/
theorem not_isHost (h : i.isEngine = true ∨ i.isCursor = true) : i.isHost = false := by
  by_contra hn
  obtain ⟨he, hc⟩ := not_isEngine_of_isHost (by simpa using hn)
  simp [he, hc] at h

/-- Engine operations and cursor commands answer on a longer capture what they answered (R53, R188). -/
theorem exec_recapture (b : r.Beyond s.horizon) (hi : i.isHost = false) :
    r.Answers (exec i s) (exec i (s.recapture r)) := by
  cases i with
  | level c => exact answer_alike (congrArg Answer.bit (State.recapture_level c))
  | pos c => exact answer_alike (congrArg Answer.sample (State.recapture_position c))
  | peek c => exact ((peekNext_alike rfl).answer .sample).settle
  | next c => exact ((goNext_alike rfl).answer fun _ => .done).settle
  | adv c x => exact ((advanceTo_alike b rfl).answer .count).settle
  | wcross c x => exact ((wouldCross_alike b rfl).answer .bit).settle
  | align => exact (alignRule_alike b rfl).settle
  | start => exact (startRule_alike b rfl).settle
  | bit k => exact (bitRule_alike b rfl).settle
  | classify => exact (classifyRule_alike b rfl).settle
  | assemble => exact (assembleRule_alike (H := s.horizon) rfl).settle
  | _ => cases hi

/-- Settles O52: an EXTEND is a recapture with the same answer, and it lies beyond the horizon. -/
theorem extensionChangesNoAnswer : Obligations.ExtensionChangesNoAnswer :=
  fun _ _ _ _ fin s _ ok hi =>
    exec_recapture (beyond_of_extendAccepted (fin := fin) (a := s.answer) ok) hi

theorem releaseCommand_alike {o o' : Host.Outcome State Fault Refusal} (h : r.Answers o o') :
    r.Answers (releaseCommand o) (releaseCommand o') := by
  refine ⟨fun t ht ha => ?_, fun e he => ?_⟩
  · obtain ⟨u, hu, rfl⟩ := releaseCommand_eq_next.1 ht
    have hn : u.answer ≠ .blocked := fun hb => by rw [if_pos hb] at ha; exact ha hb
    rw [if_neg hn]
    exact releaseCommand_eq_next.2 ⟨_, h.1 u hu hn, (if_neg hn).symm⟩
  · exact releaseCommand_eq_fault.2 (h.2 e (releaseCommand_eq_fault.1 he))

/-- With nothing offered and outside HALTED, so does the step (R181). -/
theorem step_recapture (b : r.Beyond s.horizon) (hb : s.inbox = []) (hh : s.phase ≠ eocHalted) :
    r.Answers (step s) (step (s.recapture r)) := by
  have hb' : (s.recapture r).inbox = [] := hb
  have hp : (s.recapture r).phase = s.phase := rfl
  have hk : (s.recapture r).k = s.k := rfl
  have hc : (s.recapture r).command = s.command := rfl
  simp only [step, fetch, hb, hb', fetchEngine, hp, hk, hc, if_neg hh]
  cases hd : decodePhase s.phase s.k with
  | none => exact ⟨fun t e => (by cases e), fun e h => h⟩
  | some i =>
    rcases s.command with _ | ⟨w, o⟩
    · exact exec_recapture b (not_isHost (.inl (decodePhase_isEngine hd)))
    · simp only [fetchCommand]
      cases he : decodeCcw w o with
      | ok j =>
        exact releaseCommand_alike (exec_recapture b (not_isHost (.inr (decodeCcw_isCursor he))))
      | error e =>
        cases e with
        | illegalCommand => exact ⟨fun t e => (by cases e), fun e h => h⟩
        | _ => exact ⟨fun t h _ => by cases h; rfl, fun e h => by cases h⟩

/-! ## Runs -/

theorem run_succ_of_next (n : Nat) (h : step s = .next t) :
    Host.Core.run Sys2Proof.core (n + 1) s = Host.Core.run Sys2Proof.core n t := by
  have h' : Sys2Proof.core.step s = .next t := h
  simp only [Host.Core.run, h']

theorem run_succ_eq_next {n : Nat} (h : Host.Core.run Sys2Proof.core (n + 1) s = .next t) :
    ∃ u, step s = .next u ∧ Host.Core.run Sys2Proof.core n u = .next t := by
  have hstep : Sys2Proof.core.step s = step s := rfl
  simp only [Host.Core.run, hstep] at h
  cases hs : step s with
  | next u => exact ⟨u, rfl, by rwa [hs] at h⟩
  | fault e => simp [hs] at h
  | refused e => simp [hs] at h

/-- A step that changes nothing repeats itself for ever. -/
theorem run_of_step_eq (h : step s = .next s) (n : Nat) : Host.Core.run Sys2Proof.core n s = .next s := by
  induction n with
  | zero => rfl
  | succ n ih => rw [run_succ_of_next n h, ih]

/-- With nothing offered, nothing comes to be offered, and the horizon stays (R51, R180). -/
theorem step_quiet_frame (hb : s.inbox = []) (h : step s = .next t) :
    t.inbox = [] ∧ t.horizon = s.horizon := by
  have frame {i : Instr} {u : State} (hi : i.isHost = false) (h : exec i s = .next u) :
      u.inbox = [] ∧ u.horizon = s.horizon := by
    obtain ⟨-, -, -, hcap, -, hin, -⟩ := writersOfEachRegister i s u h
    refine ⟨hin.trans hb, ?_⟩
    rcases hcap with ⟨-, -, hh, -⟩ | ⟨_, _, _, _, rfl⟩
    · exact hh
    · cases hi
  rcases step_eq_next h with ⟨-, -, rfl⟩ | ⟨p, rest, r, hb', -⟩ | ⟨p, rest, i, hb', -⟩ |
    ⟨w, o, r, -, -, -, -, rfl⟩ | ⟨w, o, i, -, -, -, hd, h⟩ | ⟨i, -, -, -, hd, h⟩
  · exact ⟨hb, rfl⟩
  · simp [hb] at hb'
  · simp [hb] at hb'
  · exact ⟨hb, rfl⟩
  · obtain ⟨u, hu, rfl⟩ := releaseCommand_eq_next.1 h
    have hf := frame (not_isHost (.inr (decodeCcw_isCursor hd))) hu
    split <;> exact hf
  · exact frame (not_isHost (.inl (decodePhase_isEngine hd))) h

/-- The recapture that changes nothing but the answer. -/
def State.recaptured (s : State) (a : Answer) : Recapture := ⟨[], [], s.horizon, s.final, a⟩

theorem State.recapture_recaptured (a : Answer) : s.recapture (s.recaptured a) = s.answered a := by
  simp [State.recapture, State.recaptured, extendTrace]

theorem State.recaptured_beyond (a : Answer) : (s.recaptured a).Beyond s.horizon :=
  ⟨fun _ h => (by cases h), fun _ h => (by cases h), BitVec.le_refl _⟩

/-- A Blocked step is Blocked again: what it found does not depend on the answer in place (R35, R53). -/
theorem step_answered_blocked (hb : s.inbox = []) (hh : s.phase ≠ eocHalted)
    (h : step s = .next (s.answered .blocked)) :
    step (s.answered .blocked) = .next (s.answered .blocked) := by
  have alike := step_recapture (s := s.answered .blocked)
    (State.recaptured_beyond (s := s.answered .blocked) s.answer) hb hh
  rw [State.recapture_recaptured, State.answered_answered] at alike
  have hself : s.answered s.answer = s := rfl
  rw [hself, h] at alike
  cases ht : step (s.answered .blocked) with
  | next t =>
    by_cases ha : t.answer = .blocked
    · rw [step_blocked (s := s.answered .blocked) hb ht ha, State.answered_answered]
    · have he := alike.1 t ht ha
      injection he with he
      exact absurd (congrArg State.answer he).symm ha
  | fault e => cases alike.2 e ht
  | refused e => exact absurd ht step_ne_refused

/-- In HALTED, with nothing offered, no step is taken (R181, R183). -/
theorem step_of_halted (hb : s.inbox = []) (hh : s.phase = eocHalted) : step s = .next s := by
  simp [step, fetch, hb, fetchEngine, hh]

/-- A run that meets a Blocked step ends Blocked (R186). -/
theorem run_answer_of_blocked {u : State} {n : Nat} (hb : s.inbox = []) (h : step s = .next u)
    (hu : u.answer = .blocked) (hr : Host.Core.run Sys2Proof.core n u = .next t) :
    t.answer = .blocked := by
  have hself : step u = .next u := by
    by_cases hh : s.phase = eocHalted
    · have he := step_of_halted hb hh
      rw [h] at he
      cases he
      exact h
    · have he := step_blocked hb h hu
      rw [he] at h ⊢
      exact step_answered_blocked hb hh h
  rw [run_of_step_eq hself] at hr
  cases hr
  exact hu

/-- With nothing offered, a step that is not Blocked is the same step on the extended trace (R53, R188). -/
theorem step_extendTrace {uA uB : List Sample} {h : Sample} {fin : Bool}
    (b : Recapture.Beyond ⟨uA, uB, h, fin, s.answer⟩ s.horizon) (hb : s.inbox = [])
    (ht : step s = .next t) (ha : t.answer ≠ .blocked) :
    step (extendTrace uA uB h fin s) = .next (extendTrace uA uB h fin t) := by
  by_cases hh : s.phase = eocHalted
  · rw [step_of_halted hb hh] at ht
    cases ht
    exact step_of_halted hb hh
  · exact (step_recapture b hb hh).1 t ht ha

/-- Settles O53, by induction on the first part's steps: none of them is Blocked, since a run that meets a
Blocked step ends Blocked. -/
theorem incrementalRunIsTheWholeRun : Obligations.IncrementalRunIsTheWholeRun := by
  intro n m uA uB h fin s t cap hb ok hr ha
  have b : ∀ a, Recapture.Beyond ⟨uA, uB, h, fin, a⟩ s.horizon := fun _ => beyond_of_extendAccepted ok
  clear cap ok
  induction n generalizing s with
  | zero =>
    cases hr
    rw [Nat.zero_add]
  | succ n ih =>
    obtain ⟨u, hu, hr'⟩ := run_succ_eq_next hr
    have hua : u.answer ≠ .blocked := fun e => ha (run_answer_of_blocked hb hu e hr')
    obtain ⟨hb', hh⟩ := step_quiet_frame hb hu
    rw [Nat.succ_add, run_succ_of_next _ (step_extendTrace (b _) hb hu hua)]
    exact ih u hb' hr' fun a => hh ▸ b a

end Sys2Proof.Machine
end

section
/-! Transition records at the input boundary (R51, R52, R182, R184): when a list of records is a
transition sequence, the levels it gives its line, and the trace that an offered EXTEND meets. -/

namespace Sys2Proof.Machine

variable {s t : State}

/-! ## Records -/

/-- Records are converted exactly when each new level differs from the one before it, and then their
samples are the transitions (R52). -/
theorem recordSamples_eq_some {lvl : Bool} {records : List (Sample × Bool)} {l : List Sample} :
    recordSamples lvl records = some l ↔
      (lvl :: records.map Prod.snd).IsChain (· ≠ ·) ∧ l = records.map Prod.fst := by
  induction records generalizing lvl l with
  | nil => simp [recordSamples, eq_comm]
  | cons rec rest ih =>
    obtain ⟨x, b⟩ := rec
    unfold recordSamples
    by_cases hb : b = lvl
    · simp [hb]
    · simp only [if_neg hb, Option.map_eq_some_iff, ih, List.map_cons, List.isChain_cons_cons]
      constructor
      · rintro ⟨m, ⟨hc, rfl⟩, rfl⟩
        exact ⟨⟨fun e => hb e.symm, hc⟩, rfl⟩
      · rintro ⟨⟨-, hc⟩, rfl⟩
        exact ⟨_, ⟨hc, rfl⟩, rfl⟩

/-- On a line whose records rise in sample and alternate in level, the level at each record's sample is
the record's: each record before it has flipped the level once (R52). -/
theorem levelAfter_countUpTo_record {lvl : Bool} {records : List (Sample × Bool)}
    (hl : (records.map Prod.fst).Pairwise (· < ·))
    (hc : (lvl :: records.map Prod.snd).IsChain (· ≠ ·)) :
    ∀ r ∈ records, levelAfter lvl (countUpTo (records.map Prod.fst) r.1) = r.2 := by
  induction records generalizing lvl with
  | nil => simp
  | cons rec rest ih =>
    obtain ⟨x, b⟩ := rec
    simp only [List.map_cons, List.pairwise_cons, List.isChain_cons_cons] at hl hc
    obtain ⟨hx, hl⟩ := hl
    obtain ⟨hne, hc⟩ := hc
    have hb : b = !lvl := by cases b <;> cases lvl <;> simp_all
    subst hb
    intro r hr
    rw [List.map_cons, countUpTo_cons]
    rcases List.mem_cons.1 hr with rfl | hr
    · rw [countUpTo_eq_zero hx, if_pos (BitVec.le_refl x)]
      simp
    · have hlt := hx r.1 (List.mem_map_of_mem hr)
      rw [if_pos (sample_le_of_lt hlt), levelAfter_succ, ← levelAfter_not]
      exact ih hl hc r hr

theorem readTrace_eq_ok {init : Bool} {records : List (Sample × Bool)} {h : Sample} {tr : Trace} :
    readTrace init records h = .ok tr ↔ (init :: records.map Prod.snd).IsChain (· ≠ ·) ∧
      (records.map Prod.fst).Pairwise (· < ·) ∧ (∀ r ∈ records, r.1 < h) ∧
      tr = ⟨init, records.map Prod.fst⟩ := by
  unfold readTrace
  cases hr : recordSamples init records with
  | none =>
    have hn : ¬ (init :: records.map Prod.snd).IsChain (· ≠ ·) := fun hc => by
      simp [recordSamples_eq_some.2 ⟨hc, rfl⟩] at hr
    simp [hn]
  | some l =>
    obtain ⟨hc, rfl⟩ := recordSamples_eq_some.1 hr
    have hok : (strictlyIncreasing (records.map Prod.fst) && allBelow h (records.map Prod.fst)) = true ↔
        (records.map Prod.fst).Pairwise (· < ·) ∧ ∀ r ∈ records, r.1 < h := by
      rw [Bool.and_eq_true, strictlyIncreasing_iff, allBelow_iff, List.forall_mem_map]
    by_cases ho : (records.map Prod.fst).Pairwise (· < ·) ∧ ∀ r ∈ records, r.1 < h
    · simp only [if_pos (hok.2 ho), Except.ok.injEq]
      exact ⟨fun e => ⟨hc, ho.1, ho.2, e.symm⟩, fun e => e.2.2.2.symm⟩
    · simp only [if_neg (mt hok.1 ho), reduceCtorEq, false_iff]
      exact fun e => ho ⟨e.2.1, e.2.2.1⟩

/-- Settles O38: the three checks of `readTrace` are the three conditions, and the transitions read are
the records' samples. -/
theorem traceRecordsAreRead : Obligations.TraceRecordsAreRead := by
  intro init records h
  refine ⟨⟨?_, ?_⟩, ?_⟩
  · rintro ⟨tr, e⟩
    obtain ⟨hc, hl, hb, -⟩ := readTrace_eq_ok.1 e
    exact ⟨hl, hb, hc⟩
  · rintro ⟨hl, hb, hc⟩
    exact ⟨_, readTrace_eq_ok.2 ⟨hc, hl, hb, rfl⟩⟩
  · intro tr e
    obtain ⟨hc, hl, -, rfl⟩ := readTrace_eq_ok.1 e
    exact ⟨rfl, rfl, levelAfter_countUpTo_record hl hc⟩

theorem extendOfRecords_eq_ok {recordsA recordsB : List (Sample × Bool)} {h : Sample} {fin : Bool}
    {i : Instr} : extendOfRecords s recordsA recordsB h fin = .ok i ↔
      (s.withOfferedExtends.traceA.lastLevel :: recordsA.map Prod.snd).IsChain (· ≠ ·) ∧
      (s.withOfferedExtends.traceB.lastLevel :: recordsB.map Prod.snd).IsChain (· ≠ ·) ∧
      i = .extend (recordsA.map Prod.fst) (recordsB.map Prod.fst) h fin := by
  unfold extendOfRecords
  constructor
  · intro e
    dsimp only at e
    split at e
    next uA uB hA hB =>
      cases e
      obtain ⟨cA, rfl⟩ := recordSamples_eq_some.1 hA
      obtain ⟨cB, rfl⟩ := recordSamples_eq_some.1 hB
      exact ⟨cA, cB, rfl⟩
    next => cases e
  · rintro ⟨hA, hB, rfl⟩
    simp only [recordSamples_eq_some.2 ⟨hA, rfl⟩, recordSamples_eq_some.2 ⟨hB, rfl⟩]

/-! ## The offered EXTENDs -/

/-- Two states that hold the same capture (R51). -/
structure SameCapture (s t : State) : Prop where
  traceA : s.traceA = t.traceA
  traceB : s.traceB = t.traceB
  horizon : s.horizon = t.horizon
  final : s.final = t.final

/-- What an offered operation does to the capture depends on nothing but the capture (R182). -/
theorem SameCapture.growBy (h : SameCapture s t) (p : Packet) :
    SameCapture (growBy s p) (growBy t p) := by
  have ok : ∀ uA uB x, extendAccepted s uA uB x = extendAccepted t uA uB x := fun uA uB x => by
    simp only [extendAccepted, extensionOk, h.horizon, h.final]
  unfold Machine.growBy
  cases decode p with
  | error r => exact h
  | ok i =>
    cases i with
    | extend uA uB x fin =>
      simp only [ok]
      split
      · exact ⟨by simp [h.traceA], by simp [h.traceB], rfl, rfl⟩
      · exact h
    | _ => exact h

theorem SameCapture.foldl_growBy (h : SameCapture s t) (ps : List Packet) :
    SameCapture (ps.foldl Machine.growBy s) (ps.foldl Machine.growBy t) := by
  induction ps generalizing s t with
  | nil => exact h
  | cons p ps ih => exact ih (h.growBy p)

/-- Taking everything that is offered is one step each, and leaves the capture that the offered EXTENDs
leave (R184). -/
theorem run_inbox (s : State) : ∃ t, Host.Core.run Sys2Proof.core s.inbox.length s = .next t ∧
    t.inbox = [] ∧ SameCapture t s.withOfferedExtends := by
  obtain ⟨ps, hb⟩ : ∃ ps, s.inbox = ps := ⟨_, rfl⟩
  unfold State.withOfferedExtends
  rw [hb]
  induction ps generalizing s with
  | nil => exact ⟨s, rfl, hb, ⟨rfl, rfl, rfl, rfl⟩⟩
  | cons p ps ih =>
    obtain ⟨u, hu⟩ := step_offered hb
    obtain ⟨hbu, hA, hB, hh, hf⟩ := step_offered_trace hb hu
    obtain ⟨t, hr, hbt, hsame⟩ := ih u hbu
    have hgrow := SameCapture.foldl_growBy ⟨hA, hB, hh, hf⟩ ps
    refine ⟨t, ?_, hbt, ⟨hsame.traceA.trans hgrow.traceA, hsame.traceB.trans hgrow.traceB,
      hsame.horizon.trans hgrow.horizon, hsame.final.trans hgrow.final⟩⟩
    rw [List.length_cons, run_succ_of_next _ hu, hr]

/-- Settles O57: the two conversions succeed exactly on alternating levels, and the trace they are read
against is the one that the offered operations leave, one step each. -/
theorem extendRecordsAreRead : Obligations.ExtendRecordsAreRead := by
  intro s recordsA recordsB h fin
  refine ⟨⟨?_, ?_⟩, ?_, ?_⟩
  · rintro ⟨i, e⟩
    obtain ⟨hA, hB, -⟩ := extendOfRecords_eq_ok.1 e
    exact ⟨hA, hB⟩
  · rintro ⟨hA, hB⟩
    exact ⟨_, extendOfRecords_eq_ok.2 ⟨hA, hB, rfl⟩⟩
  · intro i e
    obtain ⟨-, -, hi⟩ := extendOfRecords_eq_ok.1 e
    exact hi
  · obtain ⟨t, hr, hb, hsame⟩ := run_inbox s
    exact ⟨t, hr, hb, hsame.traceA, hsame.traceB, hsame.horizon, hsame.final⟩

end Sys2Proof.Machine
end

section
/-! The decoder's two formats: an equation for each word of the tables, every word as one of these, and
the agreement of decoder, encoder and code tables (R70 to R83, R87, R88). -/

namespace Sys2Proof

variable {i : Instr} {o : Option Sample} {e : Eoc} {p : Ports} {r : Reject}

/-! ## The code tables -/

@[simp] theorem chOfCode_code (c : Ch) : chOfCode c.code = c := by cases c <;> rfl

@[simp] theorem modeOfCode_code (m : Mode) : modeOfCode m.code = m := by cases m <;> rfl

@[simp] theorem code_modeOfCode (b : BitVec 2) : (modeOfCode b).code = b := by
  revert b
  decide

theorem classResultOfCode_code (c : ClassResult) : classResultOfCode c.code = some c := by
  cases c <;> rfl

theorem clsOfCode_code (c : Cls) : clsOfCode c.code = some c := by cases c <;> rfl

theorem markerKindOfCode_code (k : MarkerKind) : markerKindOfCode k.code = some k := by
  cases k <;> rfl

/-- Settles O4: the values are the tables' rows, and each reader is checked on each code. -/
theorem codeTablesAgree : Obligations.CodeTablesAgree :=
  ⟨⟨rfl, rfl, rfl⟩, ⟨rfl, rfl, rfl⟩, ⟨rfl, rfl, rfl, rfl⟩, ⟨rfl, rfl, rfl, rfl, rfl⟩,
    ⟨rfl, rfl, rfl, rfl, rfl, rfl, rfl, rfl⟩, ⟨rfl, rfl⟩, modeOfCode_code, code_modeOfCode,
    classResultOfCode_code, rfl, clsOfCode_code, rfl, markerKindOfCode_code, rfl, chOfCode_code⟩

/-! ## Cursor command words -/

theorem ccwWord_op (c : Ch) (op : BitVec 3) : (ccwWord c op).extractLsb' 0 3 = op := by
  revert op
  cases c <;> decide

/-- A command word is its channel bit and one of the eight values of `op` (R71, R72). -/
theorem ccwWord_cases (w : Ccw) : ∃ c, w = ccwWord c 0b000#3 ∨ w = ccwWord c 0b001#3 ∨
    w = ccwWord c 0b010#3 ∨ w = ccwWord c 0b011#3 ∨ w = ccwWord c 0b100#3 ∨ w = ccwWord c 0b101#3 ∨
    w = ccwWord c 0b110#3 ∨ w = ccwWord c 0b111#3 := by
  refine ⟨chOfCode (w.extractLsb' 3 1), ?_⟩
  revert w
  decide

section
variable (c : Ch) (o : Option Sample)

@[simp] theorem decodeCcw_level : decodeCcw (ccwWord c 0b000#3) o = withoutOperand o (.level c) := by
  cases c <;> rfl
@[simp] theorem decodeCcw_pos : decodeCcw (ccwWord c 0b001#3) o = withoutOperand o (.pos c) := by
  cases c <;> rfl
@[simp] theorem decodeCcw_peek : decodeCcw (ccwWord c 0b010#3) o = withoutOperand o (.peek c) := by
  cases c <;> rfl
@[simp] theorem decodeCcw_next : decodeCcw (ccwWord c 0b011#3) o = withoutOperand o (.next c) := by
  cases c <;> rfl
@[simp] theorem decodeCcw_adv : decodeCcw (ccwWord c 0b100#3) o = withOperand o (.adv c) := by
  cases c <;> rfl
@[simp] theorem decodeCcw_wcross : decodeCcw (ccwWord c 0b101#3) o = withOperand o (.wcross c) := by
  cases c <;> rfl
@[simp] theorem decodeCcw_op110 : decodeCcw (ccwWord c 0b110#3) o = .error .illegalCommand := by
  cases c <;> rfl
@[simp] theorem decodeCcw_op111 : decodeCcw (ccwWord c 0b111#3) o = .error .illegalCommand := by
  cases c <;> rfl

end

theorem withoutOperand_eq_ok {j : Instr} : withoutOperand o j = .ok i ↔ o = none ∧ i = j := by
  cases o <;> simp [withoutOperand, eq_comm]

theorem withOperand_eq_ok {f : Sample → Instr} :
    withOperand o f = .ok i ↔ ∃ x, o = some x ∧ i = f x := by
  cases o <;> simp [withOperand, eq_comm]

/-- A wrong operand is refused under a name of its own (R88). -/
theorem withoutOperand_ne_illegalCommand : withoutOperand o i ≠ .error .illegalCommand := by
  cases o <;> simp [withoutOperand]

theorem withOperand_ne_illegalCommand {f : Sample → Instr} :
    withOperand o f ≠ .error .illegalCommand := by
  cases o <;> simp [withOperand]

/-- A command word that decodes is, with its operand, the one that the encoder writes. -/
theorem encode_of_decodeCcw {w : Ccw} (h : decodeCcw w o = .ok i) : encode i = .ccw w o := by
  obtain ⟨c, rfl | rfl | rfl | rfl | rfl | rfl | rfl | rfl⟩ := ccwWord_cases w
  · obtain ⟨rfl, rfl⟩ := withoutOperand_eq_ok.1 ((decodeCcw_level c o).symm.trans h)
    rfl
  · obtain ⟨rfl, rfl⟩ := withoutOperand_eq_ok.1 ((decodeCcw_pos c o).symm.trans h)
    rfl
  · obtain ⟨rfl, rfl⟩ := withoutOperand_eq_ok.1 ((decodeCcw_peek c o).symm.trans h)
    rfl
  · obtain ⟨rfl, rfl⟩ := withoutOperand_eq_ok.1 ((decodeCcw_next c o).symm.trans h)
    rfl
  · obtain ⟨x, rfl, rfl⟩ := withOperand_eq_ok.1 ((decodeCcw_adv c o).symm.trans h)
    rfl
  · obtain ⟨x, rfl, rfl⟩ := withOperand_eq_ok.1 ((decodeCcw_wcross c o).symm.trans h)
    rfl
  · cases (decodeCcw_op110 c o).symm.trans h
  · cases (decodeCcw_op111 c o).symm.trans h

/-- ILLEGAL_COMMAND is the name of the words with `op` 110 or 111, and of no other (R87). -/
theorem decodeCcw_eq_illegalCommand {w : Ccw} :
    decodeCcw w o = .error .illegalCommand ↔ 6 ≤ (w.extractLsb' 0 3).toNat := by
  obtain ⟨c, rfl | rfl | rfl | rfl | rfl | rfl | rfl | rfl⟩ := ccwWord_cases w <;>
    simp [ccwWord_op, withoutOperand_ne_illegalCommand, withOperand_ne_illegalCommand]

/-! ## Operation codes -/

/-- The codes that R75 lists as operations; BIT's is any with its `major` field (R76). -/
def IsOperationCode (e : Eoc) : Prop :=
  e = eocAlign ∨ e = eocStart ∨ eocMajor e = eocMajor eocBit ∨ e = eocClassify ∨ e = eocAssemble ∨
    e = eocReset ∨ e = eocExtend ∨ e = eocCancel

theorem eocMajor_bitCode (k : BitVec 3) : eocMajor (eocMajor eocBit ++ k) = eocMajor eocBit := by
  revert k
  decide

theorem eocMinor_bitCode (k : BitVec 3) : eocMinor (eocMajor eocBit ++ k) = k := by
  revert k
  decide

/-- A code with BIT's `major` field is BIT's code for the index in its `minor` field (R76). -/
theorem bitCode_of_eocMajor (h : eocMajor e = eocMajor eocBit) : eocMajor eocBit ++ eocMinor e = e := by
  revert e
  decide

/-- BIT's codes are none of those that the decoder tries before BIT, and no host operation's. -/
theorem bitCode_ne (k : BitVec 3) : (eocMajor eocBit ++ k : Eoc) ≠ eocAlign ∧
    (eocMajor eocBit ++ k : Eoc) ≠ eocStart ∧ (eocMajor eocBit ++ k : Eoc) ≠ eocReset ∧
    (eocMajor eocBit ++ k : Eoc) ≠ eocExtend := by
  revert k
  decide

section
variable (p : Ports)

@[simp] theorem decodeEoc_align : decodeEoc eocAlign p = .ok .align := rfl
@[simp] theorem decodeEoc_start : decodeEoc eocStart p = .ok .start := rfl
@[simp] theorem decodeEoc_bit (k : BitVec 3) : decodeEoc (eocMajor eocBit ++ k) p = .ok (.bit k) := by
  rw [decodeEoc, if_neg (bitCode_ne k).1, if_neg (bitCode_ne k).2.1, if_pos (eocMajor_bitCode k),
    eocMinor_bitCode]
@[simp] theorem decodeEoc_classify : decodeEoc eocClassify p = .ok .classify := rfl
@[simp] theorem decodeEoc_assemble : decodeEoc eocAssemble p = .ok .assemble := rfl
@[simp] theorem decodeEoc_reset :
    decodeEoc eocReset p = .ok (.reset (modeOfCode p.mode) p.startA p.startB) := rfl
@[simp] theorem decodeEoc_extend :
    decodeEoc eocExtend p = .ok (.extend p.newA p.newB p.horizon p.final) := rfl
@[simp] theorem decodeEoc_cancel : decodeEoc eocCancel p = .ok .cancel := rfl

end

theorem decodeEoc_reserved (h : ¬ IsOperationCode e) : decodeEoc e p = .error .illegalOperation := by
  simp only [IsOperationCode, not_or] at h
  obtain ⟨hAlign, hStart, hBit, hClassify, hAssemble, hReset, hExtend, hCancel⟩ := h
  simp only [decodeEoc, if_neg, *, not_false_eq_true]

/-- Every code is reserved or an operation's: BIT's with an index, or one of the single codes; those
that sample ports stand before those that do not (R75, R76, R84). -/
theorem eoc_cases (e : Eoc) : ¬ IsOperationCode e ∨ (∃ k : BitVec 3, e = eocMajor eocBit ++ k) ∨
    e = eocReset ∨ e = eocExtend ∨ e = eocAlign ∨ e = eocStart ∨ e = eocClassify ∨
    e = eocAssemble ∨ e = eocCancel := by
  by_cases h : IsOperationCode e
  · rcases h with h | h | hBit | h | h | h | h | h
    case inr.inr.inl => exact .inr (.inl ⟨_, (bitCode_of_eocMajor hBit).symm⟩)
    all_goals simp [h]
  · exact .inl h

/-- A code that decodes is the code that the encoder writes, and what the host drives on the ports
that the operation samples is written back (R84, R88). -/
theorem encode_of_decodeEoc (h : decodeEoc e p = .ok i) : ∃ q, encode i = .eoc e q ∧
    (e = eocReset → q.mode = p.mode ∧ q.startA = p.startA ∧ q.startB = p.startB) ∧
    (e = eocExtend → q.newA = p.newA ∧ q.newB = p.newB ∧ q.horizon = p.horizon ∧
      q.final = p.final) := by
  rcases eoc_cases e with hr | ⟨k, rfl⟩ | rfl | rfl | rfl | rfl | rfl | rfl | rfl
  · simp [decodeEoc_reserved hr] at h
  · obtain rfl : .bit k = i := by simpa using h
    obtain ⟨-, -, hReset, hExtend⟩ := bitCode_ne k
    exact ⟨_, rfl, fun h => absurd h hReset, fun h => absurd h hExtend⟩
  · cases h
    exact ⟨_, rfl, fun _ => ⟨code_modeOfCode _, rfl, rfl⟩, fun h => absurd h (by decide)⟩
  · cases h
    exact ⟨_, rfl, fun h => absurd h (by decide), fun _ => ⟨rfl, rfl, rfl, rfl⟩⟩
  all_goals
    cases h
    exact ⟨_, rfl, fun h => absurd h (by decide), fun h => absurd h (by decide)⟩

/-- A code is rejected exactly where it is none of an operation (R75, R87, R88). -/
theorem decodeEoc_eq_illegalOperation :
    decodeEoc e p = .error .illegalOperation ↔ ¬ IsOperationCode e := by
  refine ⟨fun h he => ?_, decodeEoc_reserved⟩
  rcases eoc_cases e with hr | ⟨k, rfl⟩ | rfl | rfl | rfl | rfl | rfl | rfl | rfl
  · exact hr he
  all_goals simp at h

/-! ## The decoder and the encoder -/

/-- Every operation is read back from its packet. -/
theorem decode_encode (i : Instr) : decode (encode i) = .ok i := by
  cases i with
  | level c => exact decodeCcw_level c none
  | pos c => exact decodeCcw_pos c none
  | peek c => exact decodeCcw_peek c none
  | next c => exact decodeCcw_next c none
  | adv c x => exact decodeCcw_adv c (some x)
  | wcross c x => exact decodeCcw_wcross c (some x)
  | bit k => exact decodeEoc_bit _ k
  | reset mode pA pB => simp [decode, encode]
  | align | start | classify | assemble | extend | cancel => rfl

/-- Settles O1: each word and each code of the tables is read back and written back. -/
theorem decodeAndEncodeAgree : Obligations.DecodeAndEncodeAgree :=
  ⟨decode_encode, fun _ _ _ => encode_of_decodeCcw, fun _ _ _ => encode_of_decodeEoc⟩

/-- Settles O2: the reserved command words by their `op`, the reserved codes by R75's list. -/
theorem reservedWordsRejected : Obligations.ReservedWordsRejected :=
  ⟨fun _ _ => decodeCcw_eq_illegalCommand, fun _ _ => decodeEoc_eq_illegalOperation⟩

/-- Settles O3: each word is one of the tables' words, spelled in bits. -/
theorem writtenWordsDecode : Obligations.WrittenWordsDecode :=
  ⟨decodeCcw_level .a none, decodeCcw_next .b none, decodeCcw_adv .a (some 15),
    decodeCcw_wcross .b (some 23), decodeEoc_bit Ports.idle 5, decodeEoc_assemble Ports.idle,
    decodeEoc_reset { Ports.idle with mode := 0b11, startA := 7, startB := 9 },
    decodeEoc_cancel Ports.idle⟩

end Sys2Proof
end

section
/-! The run loop's choice at a step boundary, input by input (R87, R181, R184, R196, R198, R200), and
the phases that an engine step writes (R77). -/

namespace Sys2Proof.Machine

variable {i : Instr} {s t : State} {w : Ccw} {o : Option Sample} {p : Packet} {rest : List Packet}
  {r : Reject}

/-! ## An offered packet -/

theorem fetch_offered (hb : s.inbox = p :: rest) :
    fetch s = fetchOffered p { s with inbox := rest } := by
  simp only [fetch, hb]

/-- An offered host operation is executed in the state that remains once it is taken (R184). -/
theorem step_offered_host (hb : s.inbox = p :: rest) (hd : decode p = .ok i)
    (hh : i.isHost = true) : step s = exec i { s with inbox := rest } := by
  simp only [step, fetch_offered hb, fetchOffered, hd, hh, if_true]

/-- An offered operation that is not the host's is refused (R198, R200). -/
theorem step_offered_notHost (hb : s.inbox = p :: rest) (hd : decode p = .ok i)
    (hh : i.isHost = false) :
    step s = .next { s with inbox := rest, answer := .refused .notHostOperation } := by
  simp only [step, fetch_offered hb, fetchOffered, hd, hh, Bool.false_eq_true, if_false]
  rfl

/-- An offered packet that does not decode is refused under its name (R87, R88). -/
theorem step_offered_error (hb : s.inbox = p :: rest) (hd : decode p = .error r) :
    step s = .next { s with inbox := rest, answer := .refused r } := by
  simp only [step, fetch_offered hb, fetchOffered, hd]
  rfl

/-! ## A command word at the cursor units' port -/

section
variable (hb : s.inbox = []) (hp : (decodePhase s.phase s.k).isSome = true)
  (hc : s.command = some (w, o))
include hb hp hc

theorem fetch_command : fetch s = fetchCommand w o s := by
  have hh : s.phase ≠ eocHalted := fun h => by simp [h] at hp
  obtain ⟨j, hj⟩ := Option.isSome_iff_exists.1 hp
  simp only [fetch, hb, fetchEngine, if_neg hh, hj, hc]

/-- A command that decodes is executed, and leaves the port unless it is Blocked (R53). -/
theorem step_command (hd : decodeCcw w o = .ok i) : step s = releaseCommand (exec i s) := by
  simp only [step, fetch_command hb hp hc, fetchCommand, hd]

/-- A reserved word at the port faults (R87, R196). -/
theorem step_command_illegal (hd : decodeCcw w o = .error .illegalCommand) :
    step s = .fault .illegalCommand := by
  simp only [step, fetch_command hb hp hc, fetchCommand, hd]

/-- A word refused under another name is dropped (R88). -/
theorem step_command_error (hd : decodeCcw w o = .error r) (hr : r ≠ .illegalCommand) :
    step s = .next { s with command := none, answer := .refused r } := by
  cases r with
  | illegalCommand => exact absurd rfl hr
  | _ =>
    simp only [step, fetch_command hb hp hc, fetchCommand, hd]
    rfl

end

/-! ## The obligations about the run loop -/

/-- Settles O5: the three sources of a step are an offered packet, `phase` and the port. -/
theorem stepRunsDecodedOperation : Obligations.StepRunsDecodedOperation := by
  refine ⟨fun s p rest i => step_offered_host, fun s hb hc => ?_, fun s w o i hb hp hc hd => ?_⟩
  · have engine {i : Instr} : decodePhase s.phase s.k = some i → step s = exec i s :=
      step_engine hb hc
    exact ⟨fun h => engine (by rw [h]; rfl), fun h => engine (by rw [h]; rfl),
      fun h => engine (by rw [h]; rfl), fun h => engine (by rw [h]; rfl),
      fun h => engine (by rw [h]; rfl), fun _ _ => engine⟩
  · rw [step_command hb hp hc hd]
    refine ⟨fun t ht ha => ?_, fun t ht ha => ?_, fun r hr => ?_⟩
    · rw [releaseCommand_eq_next]
      exact ⟨t, ht, (if_neg ha).symm⟩
    · rw [releaseCommand_eq_next]
      exact ⟨t, ht, (if_pos ha).symm⟩
    · exact releaseCommand_eq_fault.2 hr

/-- Settles O6: an offer is refused by `fetchOffered`, a word at the port by `fetchCommand`. -/
theorem badInputsLeaveTheCore : Obligations.BadInputsLeaveTheCore :=
  ⟨fun _ _ _ hb => ⟨fun _ => step_offered_notHost hb, fun _ => step_offered_error hb⟩,
    fun _ _ _ hb hp hc =>
      ⟨step_command_illegal hb hp hc, fun _ => step_command_error hb hp hc⟩⟩

/-! ## The phases that an engine step writes -/

section
variable (ha : t.answer ≠ .blocked)
include ha

theorem Effect.align_phase (e : Effect s .align t) : t.phase = eocAlign ∨ t.phase = eocStart := by
  cases e with
  | blocked => exact absurd rfl ha
  | refused h | commanded h => cases h
  | alignStays => exact .inl rfl
  | alignHandsOver => exact .inr rfl
  | resynced hi => simp at hi

theorem Effect.start_phase (e : Effect s .start t) :
    t.phase = eocAlign ∨ (t.phase = eocBit ∧ t.k = 0) := by
  cases e with
  | blocked => exact absurd rfl ha
  | refused h | commanded h => cases h
  | started => exact .inr ⟨rfl, rfl⟩
  | resynced => exact .inl rfl

/-- BIT k samples its bit, which enters the next BIT or, after the last, ASSEMBLE; resyncs; or, at the
first bit, enters CLASSIFY. -/
theorem Effect.bit_phase {k : BitVec 3} (e : Effect s (.bit k) t) :
    (k ≠ 7 ∧ t.phase = eocBit ∧ t.k = k + 1) ∨ (k = 7 ∧ t.phase = eocAssemble) ∨
      (k = 0 ∧ t.phase = eocClassify) ∨ t.phase = eocAlign := by
  cases e with
  | blocked => exact absurd rfl ha
  | refused h | commanded h => cases h
  | resynced => exact .inr (.inr (.inr rfl))
  | sampled =>
    by_cases h7 : k = 7
    · exact .inr (.inl ⟨h7, by rw [State.answered_phase, sampleBit_phase, if_pos h7]⟩)
    · exact .inl ⟨h7, by rw [State.answered_phase, sampleBit_phase, if_neg h7],
        by rw [State.answered_k, sampleBit_k, if_neg h7]⟩
  | ambiguous => exact .inr (.inr (.inl ⟨rfl, rfl⟩))

theorem Effect.classify_phase (e : Effect s .classify t) : t.phase = eocAlign := by
  cases e with
  | blocked => exact absurd rfl ha
  | refused h | commanded h => cases h
  | resynced | packetEnds => rfl

theorem Effect.assemble_phase (e : Effect s .assemble t) : t.phase = eocBit ∧ t.k = 0 := by
  cases e with
  | blocked => exact absurd rfl ha
  | refused h | commanded h => cases h
  | resynced hi => simp at hi
  | assembled => exact ⟨rfl, rfl⟩

end

/-- Settles O44: each engine operation's effects, and HALTED from the writers of `phase`. -/
theorem phaseSuccessors : Obligations.PhaseSuccessors := by
  intro i s t h ha
  have e := exec_effect h
  refine ⟨?_, ?_, ?_, ?_, ?_, ?_, ?_⟩
  · rintro rfl
    exact e.align_phase ha
  · rintro rfl
    exact e.start_phase ha
  · rintro k rfl h7
    rcases e.bit_phase ha with ⟨-, hp⟩ | ⟨hk, -⟩ | ⟨hk, hp⟩ | hp
    · exact .inl hp
    · exact absurd hk h7
    · exact .inr (.inl ⟨hp, hk⟩)
    · exact .inr (.inr hp)
  · rintro rfl
    rcases e.bit_phase ha with ⟨hk, -⟩ | ⟨-, hp⟩ | ⟨hk, -⟩ | hp
    · exact absurd rfl hk
    · exact .inl hp
    · exact absurd hk (by decide)
    · exact .inr hp
  · rintro rfl
    exact e.classify_phase ha
  · rintro rfl
    exact e.assemble_phase ha
  · intro hp
    exact (e.phase_halted hp).imp_left fun hs => hp.trans hs.symm

end Sys2Proof.Machine
end

section
/-! The cursor commands, answer by answer (R100 to R106), what each leaves unchanged (R107), the laws
between them (R108), and which steps of the run loop move a cursor (R198, R200, R203). -/

namespace Sys2Proof.Machine

variable {i : Instr} {s t : State} {c : Ch} {x y : Sample}

/-! ## From a command's flow to its answer -/

section
variable {α : Type} {f : Flow α} {g : α → Answer}

/-- A command that goes through answers its value (R74). -/
theorem settle_andThen_of_ok {a : α} (h : f = .ok a t) :
    settle s (f.andThen fun b v => .ok (g b) v) = .next (t.answered (g a)) := by
  rw [h]
  rfl

/-- A command that is Blocked answers so, and has no effect (R53). -/
theorem settle_andThen_of_blocked (h : f = .blocked) :
    settle s (f.andThen fun b v => .ok (g b) v) = .next (s.answered .blocked) := by
  rw [h]
  rfl

/-- A command whose flow leaves only the cursor of `c` moved leaves only that and the answer. -/
theorem settle_andThen_frame (hok : ∀ a u, f = .ok a u → ∃ v, u = s.setCur c v)
    (hend : ∀ u, f ≠ .ended u) (h : settle s (f.andThen fun b v => .ok (g b) v) = .next t) :
    ∃ v a, t = (s.setCur c v).answered a := by
  cases hf : f with
  | ok a u =>
    obtain ⟨v, rfl⟩ := hok a u hf
    rw [settle_andThen_of_ok hf] at h
    exact ⟨v, _, (Host.Outcome.next.inj h).symm⟩
  | ended u => exact absurd hf (hend u)
  | blocked =>
    rw [settle_andThen_of_blocked hf] at h
    exact ⟨s.cur c, _, by rw [State.setCur_self]; exact (Host.Outcome.next.inj h).symm⟩
  | fault r =>
    rw [hf] at h
    cases h

end

/-! ## LEVEL and POS -/

theorem exec_level (c : Ch) (s : State) :
    exec (.level c) s = .next (s.answered (.bit (s.level c))) := rfl

theorem exec_pos (c : Ch) (s : State) :
    exec (.pos c) s = .next (s.answered (.sample (s.position c))) := rfl

/-- Settles O11: the level counts the transitions passed, which a sound cursor's count is. -/
theorem levelReadsTheLine : Obligations.LevelReadsTheLine := by
  refine fun c s => ⟨rfl, exec_level c s, fun ⟨hidx, _⟩ => ?_⟩
  simp only [State.level, Trace.levelAt, hidx]

/-- Settles O12: POS has one outcome. -/
theorem posReadsTheSample : Obligations.PosReadsTheSample :=
  fun c s => ⟨rfl, exec_pos c s⟩

/-! ## PEEK -/

theorem exec_peek_of_some (h : s.upcoming c = some y) :
    exec (.peek c) s = .next (s.answered (.sample y)) :=
  settle_andThen_of_ok (peekNext_eq_ok.2 ⟨h, rfl⟩)

theorem exec_peek_of_none (h : s.upcoming c = none) :
    exec (.peek c) s = .next (s.answered .blocked) :=
  settle_andThen_of_blocked (peekNext_eq_blocked.2 h)

theorem exec_extend_of_not_accepted {uA uB : List Sample} {h : Sample} {fin : Bool}
    (hn : ¬ extendAccepted s uA uB h = true) :
    exec (.extend uA uB h fin) s = .next (s.refuse .badExtend) :=
  if_neg hn

/-- With FINAL set nothing more is captured (R182). -/
theorem not_extendAccepted_of_final (hf : s.final = true) (uA uB : List Sample) (h : Sample) :
    ¬ extendAccepted s uA uB h = true := by
  simp [extendAccepted_iff, hf]

/-- Settles O13: the next transition of a sound cursor lies after its position, and with FINAL set no
EXTEND brings a missing one. -/
theorem peekReadsTheNextTransition : Obligations.PeekReadsTheNextTransition := by
  refine fun c s => ⟨rfl, fun t ht => ?_, fun hn => ?_⟩
  · exact ⟨exec_peek_of_some ht, fun inv => (inv.lt_upcoming ht).1⟩
  · exact ⟨exec_peek_of_none hn, fun hf uA uB h _ =>
      exec_extend_of_not_accepted (not_extendAccepted_of_final hf uA uB h)⟩

/-! ## NEXT -/

theorem exec_next_of_some (h : s.upcoming c = some y) :
    exec (.next c) s = .next ((s.setCur c ⟨y, (s.cur c).idx + 1⟩).answered .done) :=
  settle_andThen_of_ok (g := fun _ => .done) (goNext_eq_ok (a := ()).2 ⟨y, h, rfl⟩)

theorem exec_next_of_none (h : s.upcoming c = none) :
    exec (.next c) s = .next (s.answered .blocked) :=
  settle_andThen_of_blocked (g := fun _ => .done) (goNext_eq_blocked.2 h)

/-- A cursor that stands at a sample has the line's level there (R22, R52). -/
theorem State.CaptureInv.level_setCur (inv : s.CaptureInv) (c : Ch) (x : Sample) :
    (s.setCur c (cursorAt (s.trace c) x)).level c = (s.trace c).levelAt x := by
  simp only [State.level, State.setCur_trace, State.setCur_cur, (inv.wf c).idx_toNat, Trace.levelAt]

/-- Settles O14: one more transition passed flips the level in any state; a sound cursor then stands at
the transition. -/
theorem nextCrossesOneTransition : Obligations.NextCrossesOneTransition := by
  refine fun c s => ⟨rfl, fun t ht => ?_, exec_next_of_none⟩
  refine ⟨exec_next_of_some ht, (level_next (goNext_eq_ok (a := ()).2 ⟨t, ht, rfl⟩)).1, fun inv => ?_⟩
  rw [inv.next_cursor ht]
  exact inv.level_setCur c t

/-! ## ADV -/

theorem exec_adv_of_backward (h : x < s.position c) :
    exec (.adv c x) s = .fault .cursorBackward :=
  settle_eq_fault.2 (Flow.andThen_eq_fault.2 (.inl (advanceTo_eq_fault.2 ⟨h, rfl⟩)))

theorem exec_adv_of_uncaptured (hp : s.position c ≤ x) (hx : s.horizon ≤ x) :
    exec (.adv c x) s = .next (s.answered .blocked) :=
  settle_andThen_of_blocked (advanceTo_eq_blocked.2 ⟨hp, hx⟩)

theorem exec_adv_of_captured (hp : s.position c ≤ x) (hx : x < s.horizon) :
    exec (.adv c x) s =
      .next ((s.setCur c ⟨x, (s.cur c).idx + BitVec.ofNat 64 (s.crossings c x)⟩).answered
        (.count (saturate (s.crossings c x)))) :=
  settle_andThen_of_ok (advanceTo_eq_ok.2 ⟨hp, hx, rfl, rfl⟩)

/-- ADV of a sound cursor leaves the cursor that stands at the target (R104). -/
theorem State.CaptureInv.exec_adv (inv : s.CaptureInv) (hp : s.position c ≤ x)
    (hx : x < s.horizon) :
    exec (.adv c x) s = .next ((s.setCur c (cursorAt (s.trace c) x)).answered
      (.count (saturate (s.crossings c x)))) := by
  rw [exec_adv_of_captured hp hx, inv.advance_cursor hp]

/-- The transitions counted are those that a filter keeps. -/
theorem length_filter_eq_countUpTo (l : List Sample) (x : Sample) :
    (l.filter (· ≤ x)).length = countUpTo l x :=
  List.countP_eq_length_filter.symm

/-- A move to the position crosses nothing (R104). -/
theorem State.CaptureInv.crossings_position (inv : s.CaptureInv) (c : Ch) :
    s.crossings c (s.position c) = 0 := by
  rw [inv.crossings_eq (BitVec.le_refl _), Nat.sub_self]

/-- Settles O15: the three outcomes of `advanceTo`; the transitions in `(pos, x]` are the crossings. -/
theorem advMovesForward : Obligations.AdvMovesForward := by
  refine fun c x s => ⟨rfl, exec_adv_of_backward, exec_adv_of_uncaptured, fun hp hx => ?_⟩
  simp only [length_filter_eq_countUpTo]
  refine ⟨exec_adv_of_captured hp hx, fun inv => ⟨?_, ?_⟩⟩
  · have hcur := inv.advance_cursor hp
    unfold State.crossings at hcur
    rw [hcur]
    exact inv.level_setCur c x
  · rintro rfl
    exact inv.crossings_position c

/-! ## WCROSS -/

theorem exec_wcross_of_crossing (h : ∃ y, s.upcoming c = some y ∧ y ≤ x) :
    exec (.wcross c x) s = .next (s.answered (.bit true)) :=
  settle_andThen_of_ok (wouldCross_eq_ok.2 ⟨rfl, .inl ⟨rfl, h⟩⟩)

theorem exec_wcross_of_clear (h : ∀ y, s.upcoming c = some y → x < y) (hx : x < s.horizon) :
    exec (.wcross c x) s = .next (s.answered (.bit false)) :=
  settle_andThen_of_ok (wouldCross_eq_ok.2 ⟨rfl, .inr ⟨rfl, h, hx⟩⟩)

theorem exec_wcross_of_uncaptured (h : ∀ y, s.upcoming c = some y → x < y) (hx : s.horizon ≤ x) :
    exec (.wcross c x) s = .next (s.answered .blocked) :=
  settle_andThen_of_blocked (wouldCross_eq_blocked.2 ⟨h, hx⟩)

/-- Settles O16: a sound cursor's next transition lies after its position, and its position below the
horizon, so at or before the position the answer is 0. -/
theorem wcrossTestsWithoutMoving : Obligations.WcrossTestsWithoutMoving := by
  refine fun c x s => ⟨rfl, exec_wcross_of_crossing, exec_wcross_of_clear, exec_wcross_of_uncaptured,
    fun inv hp => exec_wcross_of_clear (fun y hy => ?_) ?_⟩
  · exact sample_lt_of_le_of_lt hp (inv.lt_upcoming hy).1
  · exact sample_lt_of_le_of_lt hp (inv.position_lt c)

/-- On a captured sample WCROSS answers 1 exactly where the next transition is at or before it. -/
theorem exec_wcross_true_iff (hx : x < s.horizon) :
    exec (.wcross c x) s = .next (s.answered (.bit true)) ↔
      ∃ y, s.upcoming c = some y ∧ y ≤ x := by
  refine ⟨fun h => ?_, exec_wcross_of_crossing⟩
  by_contra hn
  have clear : ∀ y, s.upcoming c = some y → x < y := fun y hy =>
    BitVec.not_le.1 fun hle => hn ⟨y, hy, hle⟩
  rw [exec_wcross_of_clear clear hx] at h
  have answers := congrArg State.answer (Host.Outcome.next.inj h)
  cases answers

/-! ## What a command leaves unchanged -/

/-- A cursor command moves its own cursor at most, and answers (R107). -/
theorem exec_cursor_frame (hc : cursorChannel i = some c) (h : exec i s = .next t) :
    ∃ v a, t = (s.setCur c v).answered a := by
  cases i with
  | level | pos =>
    cases hc
    cases h
    exact ⟨s.cur c, _, by rw [State.setCur_self]⟩
  | peek =>
    cases hc
    refine settle_andThen_frame (fun a u e => ⟨s.cur c, ?_⟩) (fun _ => peekNext_ne_ended) h
    rw [State.setCur_self]
    exact (peekNext_eq_ok.1 e).2
  | next =>
    cases hc
    refine settle_andThen_frame (g := fun _ => .done) (fun a u e => ?_) (fun _ => goNext_ne_ended) h
    obtain ⟨y, -, rfl⟩ := goNext_eq_ok.1 e
    exact ⟨_, rfl⟩
  | adv =>
    cases hc
    refine settle_andThen_frame (fun a u e => ?_) (fun _ => advanceTo_ne_ended) h
    obtain ⟨-, -, -, rfl⟩ := advanceTo_eq_ok.1 e
    exact ⟨_, rfl⟩
  | wcross =>
    cases hc
    refine settle_andThen_frame (fun a u e => ⟨s.cur c, ?_⟩) (fun _ => wouldCross_ne_ended) h
    rw [State.setCur_self]
    exact (wouldCross_eq_ok.1 e).1
  | _ => cases hc

/-- Settles O17: the rest of the state is that of a cursor write and an answer. -/
theorem cursorCommandFrame : Obligations.CursorCommandFrame := by
  intro i c s t hc h
  obtain ⟨v, a, rfl⟩ := exec_cursor_frame hc h
  simp only [State.answered_cur, State.setCur_cur, State.setCur_cur_other, and_true]
  rfl

/-! ## The laws between the commands -/

/-- A move would cross a transition exactly where the next one is at or before its target: the
transitions ahead are in order. -/
theorem State.CaptureInv.crossings_pos_iff (inv : s.CaptureInv) :
    0 < s.crossings c x ↔ ∃ y, s.upcoming c = some y ∧ y ≤ x := by
  have hup : s.upcoming c = ((s.trace c).trans.drop (s.cur c).idx.toNat)[0]? := by
    simp [State.upcoming, List.getElem?_drop]
  have hl : ((s.trace c).trans.drop (s.cur c).idx.toNat).Pairwise (· < ·) :=
    (inv.wf c).increasing.drop
  rw [hup, State.crossings]
  generalize (s.trace c).trans.drop (s.cur c).idx.toNat = l at hl
  constructor
  · intro h
    have hy : l[0]? = some (l[0]'(Nat.lt_of_lt_of_le h (countUpTo_le_length l x))) :=
      List.getElem?_eq_getElem _
    exact ⟨_, hy, (le_iff_lt_countUpTo hl hy x).2 h⟩
  · rintro ⟨y, hy, hle⟩
    exact (le_iff_lt_countUpTo hl hy x).1 hle

/-- Saturation never changes whether a count is 0 (R104). -/
theorem one_le_saturate (n : Nat) : 1 ≤ saturate n ↔ 0 < n := by
  have h1 : (1 : Count).toNat = 1 := rfl
  rw [BitVec.le_def, h1]
  simp only [saturate, BitVec.toNat_ofNat]
  omega

/-- The crossings of two moves in a row are those of the whole move (R108). -/
theorem State.CaptureInv.crossings_add (inv : s.CaptureInv) (hp : s.position c ≤ x) (hxy : x ≤ y)
    (hx : x < s.horizon) :
    s.crossings c x + (s.setCur c (cursorAt (s.trace c) x)).crossings c y = s.crossings c y := by
  have hpos : (s.setCur c (cursorAt (s.trace c) x)).position c = x := by simp [State.position]
  rw [inv.crossings_eq hp, inv.crossings_eq (BitVec.le_trans hp hxy),
    (inv.setCur hx).crossings_eq (hpos.symm ▸ hxy), hpos, State.setCur_trace]
  have := countUpTo_mono (s.trace c).trans hp
  have := countUpTo_mono (s.trace c).trans hxy
  omega

/-- Settles O18: WCROSS and ADV both look at the first transition ahead; a sound cursor is determined by
its position, so the way there does not matter. -/
theorem cursorLaws : Obligations.CursorLaws := by
  refine ⟨fun c x s inv hp hx => ?_, fun c x y s inv hp hxy hy => ?_⟩
  · refine (exec_wcross_true_iff hx).trans (inv.crossings_pos_iff.symm.trans ?_)
    rw [exec_adv_of_captured hp hx]
    constructor
    · exact fun h => ⟨_, _, rfl, rfl, (one_le_saturate _).2 h⟩
    · rintro ⟨n, u, hu, hn, hle⟩
      cases hu
      cases hn
      exact (one_le_saturate _).1 hle
  · have hx : x < s.horizon := sample_lt_of_le_of_lt hxy hy
    have inv' : ((s.setCur c (cursorAt (s.trace c) x)).answered
        (.count (saturate (s.crossings c x)))).CaptureInv := inv.setCur hx
    refine ⟨_, _, _, inv.exec_adv hp hx, inv'.exec_adv (c := c) (x := y) ?_ ?_,
      inv.exec_adv (BitVec.le_trans hp hxy) hy, ?_, ?_⟩
    · simpa [State.position] using hxy
    · simpa using hy
    · simp
    · rw [State.answered_crossings]
      exact inv.crossings_add hp hxy hx

/-! ## The steps that move a cursor -/

/-- An empty port stays empty (R200, R203). -/
theorem step_command_none (hc : s.command = none) (h : step s = .next t) : t.command = none :=
  step_keeps (P := fun s => s.command = none) (fun _ _ p => p) (fun _ _ => rfl) (fun _ _ p => p)
    (fun _ _ _ p _ e => e.command.trans p) hc h

/-- The only host operation that moves a cursor is an accepted RESET (R182, R183, R185, R210). -/
theorem exec_host_moves (hh : i.isHost = true) (h : exec i s = .next t) (hm : t.cur c ≠ s.cur c) :
    ∃ m pA pB, i = .reset m pA pB ∧ resetAccepted s pA pB = true := by
  rcases exec_host_next hh h with ⟨r, rfl⟩ | ⟨m, pA, pB, rfl, ok, -⟩ | ⟨uA, uB, x, fin, -, -, rfl⟩ |
    ⟨-, rfl⟩
  · exact absurd (State.answered_cur ..) hm
  · exact ⟨m, pA, pB, rfl, ok⟩
  · exact absurd (by cases c <;> rfl) hm
  · exact absurd (by simp) hm

/-- Settles O58: with the port empty a step executes the engine operation at `phase` or a host
operation, or moves nothing. -/
theorem cursorsMoveOnlyForTheEngine : Obligations.CursorsMoveOnlyForTheEngine := by
  refine fun s t hc h => ⟨step_command_none hc h, fun c hm => ?_⟩
  rcases step_eq_next h with ⟨-, -, rfl⟩ | ⟨p, rest, r, -, rfl⟩ | ⟨p, rest, i, hb, hd, hh, hx⟩ |
    ⟨w, o, r, -, -, hw, -⟩ | ⟨w, o, i, -, -, hw, -⟩ | ⟨i, hb, -, -, hd, hx⟩
  · exact absurd rfl hm
  · exact absurd (by cases c <;> rfl) hm
  · have hm' : t.cur c ≠ ({ s with inbox := rest } : State).cur c := by cases c <;> exact hm
    obtain ⟨m, pA, pB, rfl, ok⟩ := exec_host_moves hh hx hm'
    exact .inr ⟨p, rest, m, pA, pB, hb, hd, ok⟩
  · simp [hc] at hw
  · simp [hc] at hw
  · exact .inl ⟨hb, i, decodePhase_isEngine hd, hd, hx⟩

end Sys2Proof.Machine
end

section
/-! One iteration of ALIGN and one attempt of START as moves of sound cursors (R120 to R132): where
each leaves the cursors, which check ends it, and where it is Blocked (R53, R194). -/

namespace Sys2Proof.Machine

variable {s t : State} {c : Ch} {x y : Sample}

/-! ## Sound cursors that move -/

/-- The state with the cursor of `c` at a sample. -/
def State.moveTo (s : State) (c : Ch) (x : Sample) : State := s.setCur c (cursorAt (s.trace c) x)

@[simp] theorem State.moveTo_horizon (s : State) (c : Ch) (x : Sample) :
    (s.moveTo c x).horizon = s.horizon :=
  State.setCur_horizon ..

@[simp] theorem State.moveTo_trace (s : State) (c d : Ch) (x : Sample) :
    (s.moveTo c x).trace d = s.trace d :=
  State.setCur_trace ..

@[simp] theorem State.moveTo_cur (s : State) (c : Ch) (x : Sample) :
    (s.moveTo c x).cur c = cursorAt (s.trace c) x :=
  State.setCur_cur ..

@[simp] theorem State.moveTo_cur_other (s : State) (c : Ch) (x : Sample) :
    (s.moveTo c x).cur (other c) = s.cur (other c) :=
  State.setCur_cur_other ..

@[simp] theorem State.moveTo_position (s : State) (c : Ch) (x : Sample) :
    (s.moveTo c x).position c = x := by
  simp [State.position]

@[simp] theorem State.moveTo_position_other (s : State) (c : Ch) (x : Sample) :
    (s.moveTo c x).position (other c) = s.position (other c) := by
  simp [State.position]

@[simp] theorem State.moveTo_moveTo (s : State) (c : Ch) (x y : Sample) :
    (s.moveTo c x).moveTo c y = s.moveTo c y := by
  simp [State.moveTo]

theorem State.CaptureInv.moveTo (inv : s.CaptureInv) (hx : x < s.horizon) :
    (s.moveTo c x).CaptureInv :=
  inv.setCur hx

theorem State.CaptureInv.moveTo_self (inv : s.CaptureInv) (c : Ch) :
    s.moveTo c (s.position c) = s := by
  rw [State.moveTo, ← inv.cur_eq, State.setCur_self]

/-- A captured transition lies below the horizon (R51). -/
theorem State.CaptureInv.lt_horizon (inv : s.CaptureInv) {n : Nat}
    (h : (s.trace c).trans[n]? = some x) : x < s.horizon :=
  (inv.wf c).below x (List.mem_of_getElem? h)

/-- NEXT moves a sound cursor to the next transition (R103). -/
theorem State.CaptureInv.goNext_eq (inv : s.CaptureInv) (h : s.upcoming c = some x) :
    goNext c s = .ok () (s.moveTo c x) :=
  goNext_eq_ok.2 ⟨x, h, by rw [inv.next_cursor h, State.moveTo]⟩

/-- ADV moves a sound cursor forward to any captured sample (R104). -/
theorem State.CaptureInv.advanceTo_eq (inv : s.CaptureInv) (hp : s.position c ≤ x)
    (hx : x < s.horizon) :
    advanceTo c x s = .ok (saturate (s.crossings c x)) (s.moveTo c x) :=
  advanceTo_eq_ok.2 ⟨hp, hx, rfl, by rw [inv.advance_cursor hp, State.moveTo]⟩

theorem State.CaptureInv.alignTo_eq (inv : s.CaptureInv) {d : Ch}
    (hp : s.position c ≤ s.position d) : alignTo c d s = .ok () (s.moveTo c (s.position d)) := by
  rw [alignTo, inv.advanceTo_eq hp (inv.position_lt d), Flow.andThen_ok_left]

/-! ## Both cursors at one sample -/

/-- The state with both cursors at a sample. -/
def State.bothAt (s : State) (x : Sample) : State := (s.moveTo .a x).moveTo .b x

theorem State.bothAt_cur (s : State) (x : Sample) (c : Ch) :
    (s.bothAt x).cur c = cursorAt (s.trace c) x := by cases c <;> rfl

@[simp] theorem State.bothAt_trace (s : State) (x : Sample) (c : Ch) :
    (s.bothAt x).trace c = s.trace c := by simp [State.bothAt]

@[simp] theorem State.bothAt_position (s : State) (x : Sample) (c : Ch) :
    (s.bothAt x).position c = x := by rw [State.position, s.bothAt_cur, cursorAt_pos]

theorem State.moveTo_both (s : State) (x y : Sample) (c : Ch) :
    ((s.bothAt x).moveTo c y).moveTo (other c) y = s.bothAt y := by cases c <;> rfl

theorem State.CaptureInv.bothAt (inv : s.CaptureInv) (hx : x < s.horizon) :
    (s.bothAt x).CaptureInv :=
  (inv.moveTo hx).moveTo hx

theorem State.CaptureInv.bothAt_level (inv : s.CaptureInv) (x : Sample) (c : Ch) :
    (s.bothAt x).level c = (s.trace c).levelAt x := by
  rw [State.level, s.bothAt_cur, s.bothAt_trace, (inv.wf c).idx_toNat, Trace.levelAt]

theorem State.CaptureInv.bothAt_upcoming (inv : s.CaptureInv) (x : Sample) (c : Ch) :
    (s.bothAt x).upcoming c = (s.trace c).nextAfter x := by
  rw [State.upcoming, s.bothAt_cur, s.bothAt_trace, (inv.wf c).idx_toNat, nextAfter_eq (inv.wf c)]

/-! ## ALIGN -/

/-- The ahead cursor's sample (R120). -/
def State.aheadPosition (s : State) : Sample :=
  if s.curA.pos < s.curB.pos then s.curB.pos else s.curA.pos

theorem State.CaptureInv.aheadPosition_lt (inv : s.CaptureInv) : s.aheadPosition < s.horizon := by
  unfold State.aheadPosition
  split
  · exact inv.position_lt .b
  · exact inv.position_lt .a

/-- Where one branch of (b) leads from a sample at which both cursors stand: a low line's next
transition, or nowhere (R120). -/
def Trace.RaisesTo (tr : Trace) (x y : Sample) : Prop :=
  if tr.levelAt x = false then tr.nextAfter x = some y else y = x

/-- Branch (a) brings the behind cursor to the ahead one (R120). -/
theorem State.CaptureInv.alignPositions_eq (inv : s.CaptureInv) :
    alignPositions s = .ok () (s.bothAt s.aheadPosition) := by
  unfold alignPositions
  by_cases hab : s.position .a < s.position .b
  · have hm : s.aheadPosition = s.position .b := if_pos hab
    have hb : (s.moveTo .a (s.position .b)).moveTo .b (s.position .b) =
        s.moveTo .a (s.position .b) :=
      (inv.moveTo (inv.position_lt .b)).moveTo_self .b
    rw [if_pos hab, inv.alignTo_eq (sample_le_of_lt hab), hm, State.bothAt, hb]
  · have hm : s.aheadPosition = s.position .a := if_neg hab
    rw [if_neg hab, hm, State.bothAt, inv.moveTo_self]
    by_cases hba : s.position .b < s.position .a
    · rw [if_pos hba, inv.alignTo_eq (sample_le_of_lt hba)]
    · rw [if_neg hba, ← sample_eq_of_le_of_not_lt (BitVec.not_lt.1 hab) hba, inv.moveTo_self]

theorem State.CaptureInv.raisesTo_lt (inv : s.CaptureInv) (hx : x < s.horizon)
    (h : (s.trace c).RaisesTo x y) : y < s.horizon := by
  unfold Trace.RaisesTo at h
  split at h
  · rw [nextAfter_eq (inv.wf c)] at h
    exact inv.lt_horizon h
  · exact h ▸ hx

/-- A branch of (b), where it goes through, brings both cursors to where it leads (R120). -/
theorem State.CaptureInv.raiseLow_bothAt_eq_ok (inv : s.CaptureInv) (hx : x < s.horizon) :
    raiseLow c (s.bothAt x) = .ok () t ↔ ∃ y, (s.trace c).RaisesTo x y ∧ t = s.bothAt y := by
  have invx := inv.bothAt hx
  simp only [raiseLow, inv.bothAt_level, Trace.RaisesTo]
  by_cases hl : (s.trace c).levelAt x = false
  · simp only [if_pos hl]
    cases hn : (s.trace c).nextAfter x with
    | none => simp [goNext_eq_blocked.2 ((inv.bothAt_upcoming x c).trans hn)]
    | some y =>
      have hu := (inv.bothAt_upcoming x c).trans hn
      have hxy : x < y := by simpa using (invx.lt_upcoming hu).1
      have invy := invx.moveTo (c := c) (invx.lt_upcoming hu).2
      rw [invx.goNext_eq hu, Flow.andThen_ok_left,
        invy.alignTo_eq (by simpa using sample_le_of_lt hxy), State.moveTo_position, State.moveTo_both]
      simp [eq_comm]
  · simp only [if_neg hl, Flow.ok.injEq, true_and, exists_eq_left]
    exact eq_comm

theorem State.CaptureInv.raiseLow_bothAt_eq_blocked (inv : s.CaptureInv) (hx : x < s.horizon) :
    raiseLow c (s.bothAt x) = .blocked ↔
      (s.trace c).levelAt x = false ∧ (s.trace c).nextAfter x = none := by
  rw [raiseLow_eq_blocked (inv.bothAt hx), inv.bothAt_level, inv.bothAt_upcoming]

/-- One whole iteration: A's branch from the ahead sample, then B's from where A's led (R120). -/
theorem State.CaptureInv.alignRule_eq (inv : s.CaptureInv)
    (hx : s.traceA.RaisesTo s.aheadPosition x) (hy : s.traceB.RaisesTo x y) :
    alignRule s = .ok .done (neutralTest (s.bothAt y)) := by
  have hm := inv.aheadPosition_lt
  have hxh := inv.raisesTo_lt (c := .a) hm hx
  rw [alignRule, inv.alignPositions_eq, Flow.andThen_ok_left,
    (inv.raiseLow_bothAt_eq_ok (c := .a) hm).2 ⟨x, hx, rfl⟩, Flow.andThen_ok_left,
    (inv.raiseLow_bothAt_eq_ok (c := .b) hxh).2 ⟨y, hy, rfl⟩, Flow.andThen_ok_left]

/-- ALIGN is Blocked in one of its branches of (b) (R53, R120). -/
theorem State.CaptureInv.alignRule_eq_blocked (inv : s.CaptureInv) : alignRule s = .blocked ↔
    (s.traceA.levelAt s.aheadPosition = false ∧ s.traceA.nextAfter s.aheadPosition = none) ∨
      ∃ x, s.traceA.RaisesTo s.aheadPosition x ∧
        s.traceB.levelAt x = false ∧ s.traceB.nextAfter x = none := by
  have hm := inv.aheadPosition_lt
  simp only [alignRule, inv.alignPositions_eq, Flow.andThen_ok_left, Flow.andThen_eq_blocked,
    inv.raiseLow_bothAt_eq_blocked hm, inv.raiseLow_bothAt_eq_ok hm, reduceCtorEq, and_false,
    exists_false, or_false, State.trace_a]
  refine or_congr_right ⟨?_, ?_⟩
  · rintro ⟨_, _, ⟨x, hx, rfl⟩, hb⟩
    exact ⟨x, hx, (inv.raiseLow_bothAt_eq_blocked (inv.raisesTo_lt (c := .a) hm hx)).1 hb⟩
  · rintro ⟨x, hx, hb⟩
    exact ⟨(), _, ⟨x, hx, rfl⟩,
      (inv.raiseLow_bothAt_eq_blocked (inv.raisesTo_lt (c := .a) hm hx)).2 hb⟩

theorem exec_align_eq (s : State) : exec .align s = settle s (alignRule s) := rfl

theorem State.CaptureInv.exec_align (inv : s.CaptureInv)
    (hx : s.traceA.RaisesTo s.aheadPosition x) (hy : s.traceB.RaisesTo x y) :
    exec .align s = .next (((s.bothAt y).setPhase
      (if s.traceA.levelAt y = true ∧ s.traceB.levelAt y = true then eocStart
        else eocAlign)).answered .done) := by
  rw [exec_align_eq, inv.alignRule_eq hx hy, neutralTest_eq, inv.bothAt_level, inv.bothAt_level]
  rfl

/-- A rule that answers something else than `blocked` is settled as blocked exactly where it is
Blocked (R53). -/
theorem settle_eq_blocked {f : Flow Answer} (hf : ∀ u, f ≠ .ok .blocked u) :
    settle s f = .next (s.answered .blocked) ↔ f = .blocked := by
  refine ⟨fun h => ?_, fun h => h ▸ rfl⟩
  rcases settle_eq_next.1 h with ⟨a, u, hok, e⟩ | ⟨u, -, e⟩ | ⟨hb, -⟩
  · have ha : a = .blocked := (congrArg State.answer e).symm
    exact absurd (ha ▸ hok) (hf u)
  · cases congrArg State.answer e
  · exact hb

theorem alignRule_ne_answer_blocked (u : State) : alignRule s ≠ .ok .blocked u :=
  fun h => by cases (alignRule_ok h).1

/-- What ALIGN leaves where it is not Blocked (R120, R121). -/
theorem exec_align_cases (h : exec .align s = .next t) (ha : t.answer ≠ .blocked) :
    ∃ u, alignRule s = .ok .done u ∧ t = u.answered .done := by
  rcases exec_engine_next rfl h with rfl | ⟨u, rfl, hu⟩
  · exact absurd rfl ha
  · exact ⟨u, by simpa using hu, rfl⟩

/-- Settles O20: the iteration is a move of both cursors for each branch, and the test reads the
lines where they end. -/
theorem alignWaitsForTheLowLine : Obligations.AlignWaitsForTheLowLine := by
  rintro s m x y inv rfl hx hy
  exact inv.exec_align hx hy

/-- Settles O19: at neutral neither branch of (b) moves, and the test finds both lines high. -/
theorem alignHandsOverAtNeutral : Obligations.AlignHandsOverAtNeutral := by
  intro s m inv hm hA hB
  have h := alignWaitsForTheLowLine s m m m inv hm (by simp [hA]) (by simp [hB])
  rwa [if_pos ⟨hA, hB⟩] at h

/-- Settles O21: the frame and the hand-over are the termination test's, from any state; under the
capture invariant ALIGN is Blocked in A's branch or in B's. -/
theorem alignOutcome : Obligations.AlignOutcome := by
  refine ⟨fun s t h ha => ?_, ?_⟩
  · obtain ⟨v, hv, rfl⟩ := exec_align_cases h ha
    obtain ⟨-, u, f, hp, rfl, -⟩ := alignRule_ok hv
    obtain ⟨v, w, rfl⟩ := f.exists_withCursors
    rw [neutralTest_eq]
    exact ⟨hp, rfl, rfl⟩
  · rintro s m inv rfl
    exact (settle_eq_blocked alignRule_ne_answer_blocked).trans inv.alignRule_eq_blocked

/-- Settles O22: the test writes ALIGN only where a line is low, and then a branch of (b) has passed
a transition. -/
theorem alignThatStaysConsumes : Obligations.AlignThatStaysConsumes := by
  intro s t inv h ha hphase
  obtain ⟨v, hv, rfl⟩ := exec_align_cases h ha
  obtain ⟨-, u, -, -, rfl, hpass⟩ := alignRule_ok hv
  rw [neutralTest_eq] at hphase ⊢
  refine hpass inv fun hl => ?_
  rw [if_pos hl] at hphase
  exact phase_codes_differ.1 hphase.symm

end Sys2Proof.Machine
end

section
/-! One attempt of START as moves of sound cursors (R123 to R132): its stages one by one, the check
that ends a failed attempt and where it leaves the cursors (R130, R194), and where an attempt is
Blocked (R53, D26). -/

namespace Sys2Proof.Machine

variable {s t : State} {c : Ch} {x y z : Sample} {first : Bool}

/-! ## Transitions and cursors -/

theorem exists_getElem?_of_le {α : Type} {l : List α} {m n : Nat} {a : α} (h : l[n]? = some a)
    (hmn : m ≤ n) : ∃ b, l[m]? = some b :=
  ⟨_, List.getElem?_eq_getElem (Nat.lt_of_le_of_lt hmn (List.getElem?_eq_some_iff.1 h).1)⟩

/-- A later transition lies at a later sample (R51). -/
theorem State.CaptureInv.lt_of_getElem? (inv : s.CaptureInv) {m n : Nat} (hmn : m < n)
    (hm : (s.trace c).trans[m]? = some x) (hn : (s.trace c).trans[n]? = some y) : x < y := by
  obtain ⟨hm', rfl⟩ := List.getElem?_eq_some_iff.1 hm
  obtain ⟨hn', rfl⟩ := List.getElem?_eq_some_iff.1 hn
  exact List.pairwise_iff_getElem.1 (inv.wf c).increasing m n hm' hn' hmn

/-- A transition at or before a sample, with the next one beyond, is the last one passed there. -/
theorem countUpTo_of_between {l : List Sample} (hl : l.Pairwise (· < ·)) {n : Nat}
    (hn : l[n]? = some y) (hy : y ≤ x) (hnext : ∀ z, l[n + 1]? = some z → x < z) :
    countUpTo l x = n + 1 := by
  have hle : n + 1 ≤ countUpTo l x := (le_iff_lt_countUpTo hl hn x).1 hy
  refine Nat.le_antisymm (Nat.not_lt.1 fun hlt => ?_) hle
  have hz := List.getElem?_eq_getElem (Nat.lt_of_lt_of_le hlt (countUpTo_le_length l x))
  exact BitVec.not_le.2 (hnext _ hz) ((le_iff_lt_countUpTo hl hz x).2 hlt)

/-- The cursor that stands between the transitions number `j` and `j + 1` ahead (R21, R23). -/
theorem State.CaptureInv.cursorAt_between (inv : s.CaptureInv) {j : Nat}
    (hj : (s.trace c).trans[(s.cur c).idx.toNat + j]? = some y) (hy : y ≤ x)
    (hnext : ∀ z, (s.trace c).trans[(s.cur c).idx.toNat + (j + 1)]? = some z → x < z) :
    cursorAt (s.trace c) x = ⟨x, (s.cur c).idx + BitVec.ofNat 64 (j + 1)⟩ := by
  rw [cursorAt, countUpTo_of_between (inv.wf c).increasing hj hy hnext, Nat.add_assoc,
    BitVec.ofNat_add, BitVec.ofNat_toNat, BitVec.setWidth_eq]

/-- The cursor that stands at the transition number `j` ahead. -/
theorem State.CaptureInv.cursorAt_ahead (inv : s.CaptureInv) {j : Nat}
    (hj : (s.trace c).trans[(s.cur c).idx.toNat + j]? = some x) :
    cursorAt (s.trace c) x = ⟨x, (s.cur c).idx + BitVec.ofNat 64 (j + 1)⟩ :=
  inv.cursorAt_between hj (BitVec.le_refl x) fun _ hz =>
    inv.lt_of_getElem? (Nat.lt_succ_self _) hj hz

/-- From a transition, the next one is the one after it (R102). -/
theorem State.CaptureInv.upcoming_moveTo (inv : s.CaptureInv) {n : Nat}
    (h : (s.trace c).trans[n]? = some x) :
    (s.moveTo c x).upcoming c = (s.trace c).trans[n + 1]? := by
  rw [State.upcoming, State.moveTo_cur, State.moveTo_trace, (inv.wf c).idx_toNat,
    countUpTo_getElem? (inv.wf c).increasing h]

/-! ## The window (R124) -/

/-- S1 and S2 take A's next transition and look at the one after it. -/
theorem State.CaptureInv.startWindow_eq_ok (inv : s.CaptureInv) : startWindow s = .ok (x, y) t ↔
    s.traceA.trans[s.curA.idx.toNat]? = some x ∧ s.traceA.trans[s.curA.idx.toNat + 1]? = some y ∧
      t = s.moveTo .a x := by
  constructor
  · intro h
    obtain ⟨-, rfl, hy, hg⟩ := startWindow_ok h
    have hx : s.upcoming .a = some (t.position .a) := (position_next hg).1
    rw [inv.goNext_eq hx] at hg
    have ht : s.moveTo .a (t.position .a) = t := (Flow.ok.inj hg).2
    exact ⟨hx, (inv.upcoming_moveTo (c := .a) hx).symm.trans (ht ▸ hy), ht.symm⟩
  · rintro ⟨hx, hy, rfl⟩
    have hrise := (inv.upcoming_moveTo (c := .a) hx).trans hy
    rw [startWindow, inv.goNext_eq (c := .a) hx, Flow.andThen_ok_left,
      peekNext_eq_ok.2 ⟨hrise, rfl⟩, Flow.andThen_ok_left, State.moveTo_position]

/-! ## The burst (R125) -/

theorem Flow.andThen_assoc {α β γ : Type} (f : Flow α) (g : α → State → Flow β)
    (h : β → State → Flow γ) :
    (f.andThen g).andThen h = f.andThen fun a u => (g a u).andThen h := by
  cases f <;> rfl

/-- A burst is its first toggles, one at least, and then the others. -/
theorem startBurst_add (m n : Nat) : startBurst x y (n + (m + 1)) first s =
    (startBurst x y (m + 1) first s).andThen fun _ u => startBurst x y n false u := by
  induction m generalizing s first with
  | zero => simp only [startBurst, Flow.andThen_assoc, Flow.andThen_ok_left]
  | succ m ih =>
    rw [startBurst, Flow.andThen_assoc]
    exact congrArg _ (funext fun _ => funext fun _ => ih)

theorem startBurst_early (n : Nat) (h : s.upcoming .b = some z) (hz : z < x) :
    startBurst x y (n + 1) true s = .ended (s.resync .startEarly) := by
  rw [startBurst, burstToggle, peekNext_eq_ok.2 ⟨h, rfl⟩, Flow.andThen_ok_left, if_pos ⟨rfl, hz⟩,
    Flow.andThen_ended_left]

theorem startBurst_short (n : Nat) (h : s.upcoming .b = some z) (hx : first = true → x ≤ z)
    (hz : y ≤ z) : startBurst x y (n + 1) first s = .ended (s.resync .startShort) := by
  rw [startBurst, burstToggle, peekNext_eq_ok.2 ⟨h, rfl⟩, Flow.andThen_ok_left,
    if_neg fun he => BitVec.not_lt.2 (hx he.1) he.2, if_pos hz, Flow.andThen_ended_left]

/-- Toggles in the window take B to the last of them. -/
theorem State.CaptureInv.startBurst_eq_ok (inv : s.CaptureInv) {j : Nat} {b : Sample}
    (hb : s.traceB.trans[s.curB.idx.toNat]? = some b)
    (hz : s.traceB.trans[s.curB.idx.toNat + j]? = some z) (hx : first = true → x ≤ b) (hy : z < y) :
    startBurst x y (j + 1) first s = .ok () (s.moveTo .b z) := by
  have hg := inv.goNext_eq (c := .b) hb
  induction j generalizing s first b with
  | zero =>
    obtain rfl : b = z := Option.some.inj (hb.symm.trans hz)
    rw [startBurst, burstToggle_eq_ok.2 ⟨b, hb, hx, hy, hg⟩]
    rfl
  | succ j ih =>
    have hby : b < y := BitVec.lt_trans (inv.lt_of_getElem? (c := .b) (by omega) hb hz) hy
    obtain ⟨b', hb'⟩ := exists_getElem?_of_le hz (show s.curB.idx.toNat + 1 ≤ _ by omega)
    have inv' := inv.moveTo (c := .b) (inv.lt_horizon (c := .b) hb)
    have hb'' := (ahead_next inv hg 0).trans hb'
    rw [startBurst, burstToggle_eq_ok.2 ⟨b, hb, hx, hby, hg⟩, Flow.andThen_ok_left,
      ih inv' hb'' ((ahead_next inv hg j).trans hz) (fun h => by cases h) (inv'.goNext_eq hb''),
      State.moveTo_moveTo]

/-- The burst blocks where B's transitions run out, all of them in the window: the first one is
tested against its start, and the later ones lie after the first. -/
theorem State.CaptureInv.startBurst_eq_blocked (inv : s.CaptureInv) {n : Nat} :
    startBurst x y n true s = .blocked ↔
      ∃ j, j < n ∧ s.traceB.trans[s.curB.idx.toNat + j]? = none ∧
        ∀ m, m < j → ∃ b, s.traceB.trans[s.curB.idx.toNat + m]? = some b ∧ x ≤ b ∧ b < y := by
  rw [Machine.startBurst_eq_blocked inv]
  refine exists_congr fun j => and_congr_right fun _ => and_congr_right fun _ => ⟨?_, ?_⟩
  · intro hall m hm
    obtain ⟨b, hb, hfirst, hy⟩ := hall m hm
    refine ⟨b, hb, ?_, hy⟩
    cases m with
    | zero => exact hfirst rfl rfl
    | succ m =>
      obtain ⟨b1, hb1, h1, -⟩ := hall 0 (Nat.zero_lt_of_lt hm)
      have hlt : b1 < b := inv.lt_of_getElem? (c := .b) (by omega) hb1 hb
      exact BitVec.le_trans (h1 rfl rfl) (sample_le_of_lt hlt)
  · intro hall m hm
    obtain ⟨b, hb, hx, hy⟩ := hall m hm
    exact ⟨b, hb, fun _ _ => hx, hy⟩

/-! ## After the burst (R126 to R129) -/

/-- Stages S4 to S7 and the start of the packet. -/
def afterBurst (startSample windowEnd : Sample) (s : State) : Flow Answer :=
  (noFifthToggle windowEnd s).andThen fun _ s =>
  (refinedEnd s).andThen fun trueEnd s =>
  (quietUntil trueEnd s).andThen fun _ s =>
  (advanceTo .a trueEnd s).andThen fun _ s =>
  .ok .done (beginPacket startSample s)

theorem beginPacket_eq (x : Sample) (s : State) : beginPacket x s = { s with
    out := s.out ++ [.marker .start .a x, .marker .start .b x]
    ps := PacketState.init
    k := 0
    shift := 0
    phase := eocBit } := by
  simp [beginPacket, State.emit]

theorem startRule_eq (s : State) : startRule s = (startWindow s).andThen fun w u =>
    (startBurst w.1 w.2 Config.burst true u).andThen fun _ v => afterBurst w.1 w.2 v := rfl

theorem noFifthToggle_eq_ok (h : ∀ z, s.upcoming .b = some z → y < z) (hy : y < s.horizon) :
    noFifthToggle y s = .ok () s := by
  rw [noFifthToggle, wouldCross_eq_ok.2 ⟨rfl, .inr ⟨rfl, h, hy⟩⟩]
  rfl

theorem afterBurst_long (h : s.upcoming .b = some z) (hz : z ≤ y) :
    afterBurst x y s = .ended (s.resync .startLong) := by
  rw [afterBurst, noFifthToggle, wouldCross_eq_ok.2 ⟨rfl, .inl ⟨rfl, z, h, hz⟩⟩]
  rfl

/-- With no fifth toggle in the window, B's next transition is the refined end. -/
theorem State.CaptureInv.afterBurst_eq (inv : s.CaptureInv) (h : s.upcoming .b = some z)
    (hz : y < z) : afterBurst x y s =
      (quietUntil z (s.moveTo .b z)).andThen fun _ u => (advanceTo .a z u).andThen fun _ v =>
        .ok .done (beginPacket x v) := by
  have hfifth : ∀ w, s.upcoming .b = some w → y < w :=
    fun w hw => Option.some.inj (h.symm.trans hw) ▸ hz
  rw [afterBurst, noFifthToggle_eq_ok hfifth (BitVec.lt_trans hz (inv.lt_upcoming h).2),
    Flow.andThen_ok_left, refinedEnd, inv.goNext_eq h, Flow.andThen_ok_left, State.moveTo_position,
    Flow.andThen_ok_left]

theorem State.CaptureInv.quietUntil_eq_ok (inv : s.CaptureInv) (h : s.upcoming .a = some y)
    (hq : ∀ w, (s.moveTo .a y).upcoming .a = some w → z < w) (hz : z < s.horizon) :
    quietUntil z s = .ok () (s.moveTo .a y) := by
  rw [quietUntil, inv.goNext_eq h, Flow.andThen_ok_left,
    wouldCross_eq_ok.2 ⟨rfl, .inr ⟨rfl, hq, hz⟩⟩]
  rfl

theorem State.CaptureInv.quietUntil_eq_ended (inv : s.CaptureInv) (h : s.upcoming .a = some y)
    {w : Sample} (hw : (s.moveTo .a y).upcoming .a = some w) (hz : w ≤ z) :
    quietUntil z s = .ended ((s.moveTo .a y).resync .startTrail) := by
  rw [quietUntil, inv.goNext_eq h, Flow.andThen_ok_left,
    wouldCross_eq_ok.2 ⟨rfl, .inl ⟨rfl, w, hw, hz⟩⟩]
  rfl

/-- With A's rise captured, what follows the burst blocks exactly for want of B's fifth transition
(R127, R194). -/
theorem State.CaptureInv.afterBurst_eq_blocked (inv : s.CaptureInv)
    (hrise : s.upcoming .a = some y) : afterBurst x y s = .blocked ↔ s.upcoming .b = none := by
  cases hb : s.upcoming .b with
  | none =>
    rw [afterBurst, noFifthToggle_eq_ok (by simp [hb]) (inv.lt_upcoming hrise).2,
      Flow.andThen_ok_left, refinedEnd_eq_blocked.2 hb]
    simp
  | some z =>
    by_cases hz : z ≤ y
    · simp [afterBurst_long hb hz]
    · have hzh := (inv.lt_upcoming hb).2
      have hrise' : (s.moveTo .b z).upcoming .a = some y := hrise
      rw [inv.afterBurst_eq hb (BitVec.not_le.1 hz), Flow.andThen_eq_blocked,
        quietUntil_eq_blocked (by simpa using hzh), hrise']
      simp only [reduceCtorEq, false_or, iff_false, not_exists, not_and]
      intro _ u hu hadv
      obtain ⟨-, -, hzu⟩ := quietUntil_ok hu
      simp [Flow.andThen_eq_blocked, advanceTo_eq_blocked, BitVec.not_le.2 hzu] at hadv

/-! ## One attempt -/

section
variable {a1 a2 : Sample} (inv : s.CaptureInv)
  (hA1 : s.traceA.trans[s.curA.idx.toNat]? = some a1)
  (hA2 : s.traceA.trans[s.curA.idx.toNat + 1]? = some a2)
include inv hA1 hA2

/-- With A's fall and rise captured, the burst begins with A at its fall. -/
theorem State.CaptureInv.startRule_eq_burst :
    startRule s = (startBurst a1 a2 Config.burst true (s.moveTo .a a1)).andThen fun _ u =>
      afterBurst a1 a2 u := by
  rw [startRule_eq, inv.startWindow_eq_ok.2 ⟨hA1, hA2, rfl⟩, Flow.andThen_ok_left]

/-- A first toggle before A's fall leaves B unmoved (R125, R130). -/
theorem State.CaptureInv.startRule_early {b1 : Sample}
    (hB1 : s.traceB.trans[s.curB.idx.toNat]? = some b1) (h1 : b1 < a1) :
    startRule s = .ended ((s.moveTo .a a1).resync .startEarly) := by
  have hburst : startBurst a1 a2 Config.burst true (s.moveTo .a a1) = _ := startBurst_early 3 hB1 h1
  rw [inv.startRule_eq_burst hA1 hA2, hburst, Flow.andThen_ended_left]

/-- A first toggle at or beyond the window's end leaves B unmoved (R125, R130). -/
theorem State.CaptureInv.startRule_empty {b1 : Sample}
    (hB1 : s.traceB.trans[s.curB.idx.toNat]? = some b1) (h2 : a2 ≤ b1) :
    startRule s = .ended ((s.moveTo .a a1).resync .startShort) := by
  have ha : a1 < a2 := inv.lt_of_getElem? (c := .a) (Nat.lt_succ_self _) hA1 hA2
  have hburst : startBurst a1 a2 Config.burst true (s.moveTo .a a1) = _ :=
    startBurst_short 3 hB1 (fun _ => sample_le_of_lt (sample_lt_of_lt_of_le ha h2)) h2
  rw [inv.startRule_eq_burst hA1 hA2, hburst, Flow.andThen_ended_left]

/-- A later toggle at or beyond the window's end leaves B at the one before it (R125, R130). -/
theorem State.CaptureInv.startRule_short {j : Nat} {b1 b b' : Sample} (hj : j < 3)
    (hB1 : s.traceB.trans[s.curB.idx.toNat]? = some b1)
    (hb : s.traceB.trans[s.curB.idx.toNat + j]? = some b)
    (hb' : s.traceB.trans[s.curB.idx.toNat + (j + 1)]? = some b')
    (h1 : a1 ≤ b1) (h2 : b < a2) (h3 : a2 ≤ b') :
    startRule s = .ended (((s.moveTo .a a1).moveTo .b b).resync .startShort) := by
  have inv' := inv.moveTo (c := .a) (inv.lt_horizon (c := .a) hA1)
  obtain ⟨n, hn⟩ : ∃ n, Config.burst = (n + 1) + (j + 1) :=
    ⟨2 - j, by simp only [Config.burst]; omega⟩
  rw [inv.startRule_eq_burst hA1 hA2, hn, startBurst_add,
    inv'.startBurst_eq_ok hB1 hb (fun _ => h1) h2, Flow.andThen_ok_left,
    startBurst_short n ((inv'.upcoming_moveTo (c := .b) hb).trans hb') (fun h => by cases h) h3,
    Flow.andThen_ended_left]

section
variable {b1 b4 b5 : Sample} (hB1 : s.traceB.trans[s.curB.idx.toNat]? = some b1)
  (hB4 : s.traceB.trans[s.curB.idx.toNat + 3]? = some b4) (h1 : a1 ≤ b1) (h4 : b4 < a2)
include hB1 hB4 h1 h4

/-- Four toggles in the window are a burst; A is still at its fall. -/
theorem State.CaptureInv.startRule_eq_afterBurst :
    startRule s = afterBurst a1 a2 ((s.moveTo .a a1).moveTo .b b4) := by
  have inv' := inv.moveTo (c := .a) (inv.lt_horizon (c := .a) hA1)
  have hburst : startBurst a1 a2 Config.burst true (s.moveTo .a a1) = _ :=
    inv'.startBurst_eq_ok (j := 3) hB1 hB4 (fun _ => h1) h4
  rw [inv.startRule_eq_burst hA1 hA2, hburst, Flow.andThen_ok_left]

variable (hB5 : s.traceB.trans[s.curB.idx.toNat + 4]? = some b5)
include hB5

/-- A fifth toggle at or before the window's end (R126). -/
theorem State.CaptureInv.startRule_long (h5 : b5 ≤ a2) :
    startRule s = .ended (((s.moveTo .a a1).moveTo .b b4).resync .startLong) := by
  have invA := inv.moveTo (c := .a) (inv.lt_horizon (c := .a) hA1)
  rw [inv.startRule_eq_afterBurst hA1 hA2 hB1 hB4 h1 h4,
    afterBurst_long ((invA.upcoming_moveTo (c := .b) hB4).trans hB5) h5]

/-- A validated start (R128, R129, R132). -/
theorem State.CaptureInv.startRule_valid (h5 : a2 < b5)
    (hq : ∀ a3, s.traceA.trans[s.curA.idx.toNat + 2]? = some a3 → b5 < a3) :
    startRule s = .ok .done (beginPacket a1 (s.bothAt b5)) := by
  have hh5 := inv.lt_horizon (c := .b) hB5
  have invA := inv.moveTo (c := .a) (inv.lt_horizon (c := .a) hA1)
  have invB := invA.moveTo (c := .b) (inv.lt_horizon (c := .b) hB4)
  have inv5 := invB.moveTo (c := .b) hh5
  have invE := inv5.moveTo (c := .a) (inv.lt_horizon (c := .a) hA2)
  have hfifth := (invA.upcoming_moveTo (c := .b) hB4).trans hB5
  have hrise := (inv.upcoming_moveTo (c := .a) hA1).trans hA2
  have hquiet : ∀ w, ((((s.moveTo .a a1).moveTo .b b4).moveTo .b b5).moveTo .a a2).upcoming .a =
      some w → b5 < w := fun w hw => hq w ((inv5.upcoming_moveTo (c := .a) hA2).symm.trans hw)
  rw [inv.startRule_eq_afterBurst hA1 hA2 hB1 hB4 h1 h4, invB.afterBurst_eq hfifth h5,
    inv5.quietUntil_eq_ok hrise hquiet hh5, Flow.andThen_ok_left,
    invE.advanceTo_eq (by simpa using sample_le_of_lt h5) hh5]
  rfl

/-- A third transition of A up to the refined end (R128). -/
theorem State.CaptureInv.startRule_trail {a3 : Sample} (h5 : a2 < b5)
    (hA3 : s.traceA.trans[s.curA.idx.toNat + 2]? = some a3) (h3 : a3 ≤ b5) :
    startRule s = .ended (((s.moveTo .b b5).moveTo .a a2).resync .startTrail) := by
  have invA := inv.moveTo (c := .a) (inv.lt_horizon (c := .a) hA1)
  have invB := invA.moveTo (c := .b) (inv.lt_horizon (c := .b) hB4)
  have inv5 := invB.moveTo (c := .b) (inv.lt_horizon (c := .b) hB5)
  have hfifth := (invA.upcoming_moveTo (c := .b) hB4).trans hB5
  have hrise := (inv.upcoming_moveTo (c := .a) hA1).trans hA2
  have htrail := (inv5.upcoming_moveTo (c := .a) hA2).trans hA3
  rw [inv.startRule_eq_afterBurst hA1 hA2 hB1 hB4 h1 h4, invB.afterBurst_eq hfifth h5,
    inv5.quietUntil_eq_ended hrise htrail h3]
  rfl

end

end

/-- An attempt is Blocked at A's fall or rise, or for want of a B transition of the burst or of the
one that ends it: that is, where a burst of one toggle more would be. -/
theorem State.CaptureInv.startRule_eq_blocked (inv : s.CaptureInv) : startRule s = .blocked ↔
    startWindow s = .blocked ∨
      ∃ w u, startWindow s = .ok w u ∧ startBurst w.1 w.2 (Config.burst + 1) true u = .blocked := by
  rw [startRule_eq, Flow.andThen_eq_blocked]
  refine or_congr_right (exists_congr fun w => exists_congr fun u => and_congr_right fun hw => ?_)
  have hone : startBurst w.1 w.2 (Config.burst + 1) true u =
      (startBurst w.1 w.2 Config.burst true u).andThen fun _ v => startBurst w.1 w.2 1 false v :=
    startBurst_add 3 1
  obtain ⟨fw, -, hrise, -⟩ := startWindow_ok hw
  rw [hone, Flow.andThen_eq_blocked, Flow.andThen_eq_blocked]
  refine or_congr_right (exists_congr fun _ => exists_congr fun v => and_congr_right fun hv => ?_)
  obtain ⟨fv, hA⟩ := startBurst_ok hv
  rw [((fw.trans fv).inv inv).afterBurst_eq_blocked
    ((upcoming_congr (fv.trace .a) hA).trans hrise)]
  simp [startBurst, Flow.andThen_eq_blocked, burstToggle_eq_blocked]

theorem exec_start_eq (s : State) : exec .start s = settle s (startRule s) := rfl

/-- Settles O23: the attempt, stage by stage; each cursor that stands at a transition has passed the
ones up to it. -/
theorem startCharacterized : Obligations.StartCharacterized := by
  intro s a1 a2 inv _ _ _ hA1 hA2
  have cA1 : cursorAt s.traceA a1 = ⟨a1, s.curA.idx + 1⟩ :=
    inv.cursorAt_ahead (c := .a) (j := 0) hA1
  have cA2 : cursorAt s.traceA a2 = ⟨a2, s.curA.idx + 2⟩ :=
    inv.cursorAt_ahead (c := .a) (j := 1) hA2
  refine ⟨fun b1 b4 b5 hB1 hB4 hB5 => ?_, fun b1 hB1 h1 => ?_, fun b1 hB1 h2 => ?_,
    fun j b1 c b hj hB1 hc hb h1 h2 h3 => ?_⟩
  · have cB4 : cursorAt s.traceB b4 = ⟨b4, s.curB.idx + 4⟩ :=
      inv.cursorAt_ahead (c := .b) (j := 3) hB4
    have cB5 : cursorAt s.traceB b5 = ⟨b5, s.curB.idx + 5⟩ :=
      inv.cursorAt_ahead (c := .b) (j := 4) hB5
    refine ⟨fun h1 h4 h5 hq => ?_, fun h1 h4 h5 => ?_, fun a3 h1 h4 h5 hA3 h3 => ?_⟩
    · have cA5 : cursorAt s.traceA b5 = ⟨b5, s.curA.idx + 2⟩ :=
        inv.cursorAt_between (c := .a) (j := 1) hA2 (sample_le_of_lt h5) hq
      rw [exec_start_eq, inv.startRule_valid hA1 hA2 hB1 hB4 h1 h4 hB5 h5 hq, beginPacket_eq,
        ← cA5, ← cB5]
      rfl
    · rw [exec_start_eq, inv.startRule_long hA1 hA2 hB1 hB4 h1 h4 hB5 h5, ← cA1, ← cB4]
      rfl
    · rw [exec_start_eq, inv.startRule_trail hA1 hA2 hB1 hB4 h1 h4 hB5 h5 hA3 h3, ← cA2, ← cB5]
      rfl
  · rw [exec_start_eq, inv.startRule_early hA1 hA2 hB1 h1, ← cA1]
    rfl
  · rw [exec_start_eq, inv.startRule_empty hA1 hA2 hB1 h2, ← cA1]
    rfl
  · have cC : cursorAt s.traceB c = ⟨c, s.curB.idx + BitVec.ofNat 64 (j + 1)⟩ :=
      inv.cursorAt_ahead (c := .b) hc
    rw [exec_start_eq, inv.startRule_short hA1 hA2 hj hB1 hc hb h1 h2 h3, ← cA1, ← cC]
    rfl

theorem startRule_ne_answer_blocked (u : State) : startRule s ≠ .ok .blocked u :=
  fun h => by cases (startRule_ok h).1

/-- Settles O24: a START that goes on validates or resyncs, after moves of the cursors alone; under
the capture invariant it is Blocked at the window, or at a B transition of the burst or the next. -/
theorem startOutcomes : Obligations.StartOutcomes := by
  refine ⟨fun s t h => ?_, fun s inv => ?_⟩
  · rcases exec_engine_next rfl h with rfl | ⟨u, rfl, hu⟩
    · exact .inl rfl
    obtain hu | hu : startRule s = .ok .done u ∨ startRule s = .ended u := by simpa using hu
    · obtain ⟨-, v, w, g, f, hp, rfl⟩ := startRule_ok hu
      obtain ⟨p, q, rfl⟩ := ((forward_next g).trans f).exists_withCursors
      rw [beginPacket_eq]
      exact .inr (.inr ⟨v.position .a, hp, rfl⟩)
    · obtain ⟨v, w, err, g, f, he, rfl⟩ := startRule_ended hu
      obtain ⟨p, q, rfl⟩ := ((forward_next g).trans f).exists_withCursors
      exact .inr (.inl ⟨err, he, rfl⟩)
  · rw [exec_start_eq]
    refine (settle_eq_blocked startRule_ne_answer_blocked).trans ?_
    rw [inv.startRule_eq_blocked, startWindow_eq_blocked inv, or_assoc]
    refine or_congr_right (or_congr_right ⟨?_, ?_⟩)
    · rintro ⟨⟨a1, a2⟩, u, hw, hb⟩
      obtain ⟨hA1, hA2, rfl⟩ := inv.startWindow_eq_ok.1 hw
      have invA := inv.moveTo (c := .a) (inv.lt_horizon (c := .a) hA1)
      obtain ⟨j, hj, hrun⟩ := invA.startBurst_eq_blocked.1 hb
      exact ⟨a1, a2, j, hA1, hA2, Nat.le_of_lt_succ hj, hrun⟩
    · rintro ⟨a1, a2, j, hA1, hA2, hj, hrun⟩
      have invA := inv.moveTo (c := .a) (inv.lt_horizon (c := .a) hA1)
      exact ⟨(a1, a2), _, inv.startWindow_eq_ok.2 ⟨hA1, hA2, rfl⟩,
        invA.startBurst_eq_blocked.2 ⟨j, Nat.lt_succ_of_le hj, hrun⟩⟩

end Sys2Proof.Machine
end

section
/-! BIT k as moves of sound cursors to the clock's falling edge, judged by the data line's crossings up
to it (R140 to R145, R151), CLASSIFY as clock transitions counted before the data line's next one
(R146 to R149), where each is Blocked (R53, R194), and the two together (R150). -/

namespace Sys2Proof.Machine

variable {s t u : State} {c : Ch} {k : BitVec 3} {f me x y z : Sample} {j n left cnt : Nat}

/-! ## Transitions ahead -/

/-- Any transition ahead of a sound cursor lies after its position (R23). -/
theorem State.CaptureInv.position_lt_ahead (inv : s.CaptureInv)
    (h : (s.trace c).trans[(s.cur c).idx.toNat + j]? = some x) : s.position c < x := by
  have hle := le_iff_lt_countUpTo (inv.wf c).increasing h (s.position c)
  rw [← inv.idx_eq] at hle
  exact BitVec.not_le.1 fun hx => absurd (hle.1 hx) (by omega)

/-- The transitions in `(x, y]` are those up to `y` without those up to `x`. -/
theorem countUpTo_add_length_filter (l : List Sample) (h : x ≤ y) :
    countUpTo l x + (l.filter fun v => x < v ∧ v ≤ y).length = countUpTo l y := by
  induction l with
  | nil => rfl
  | cons v l ih =>
    rw [countUpTo_cons, countUpTo_cons, List.filter_cons]
    by_cases hx : v ≤ x
    · have hy : v ≤ y := BitVec.le_trans hx h
      simp only [hx, hy, BitVec.not_lt.2 hx, false_and, decide_false, Bool.false_eq_true, if_true,
        if_false]
      omega
    · have hv : x < v := BitVec.not_le.1 hx
      by_cases hy : v ≤ y
      · simp only [hx, hv, hy, and_self, decide_true, if_true, if_false, List.length_cons]
        omega
      · simp only [hx, hv, hy, and_false, decide_false, Bool.false_eq_true, if_false]
        omega

/-- The crossings of a forward move are the transitions in `(pos, x]` (R104). -/
theorem State.CaptureInv.crossings_eq_length_filter (inv : s.CaptureInv) (h : s.position c ≤ x) :
    s.crossings c x =
      ((s.trace c).trans.filter fun v => s.position c < v ∧ v ≤ x).length := by
  have hsum := countUpTo_add_length_filter (s.trace c).trans h
  have hcross := inv.crossings_eq h
  omega

/-! ## The clock's falling edge (R140, R145) -/

/-- The clock is A for an even index and B for an odd one (R145). -/
theorem clockOf_eq (k : BitVec 3) : clockOf k = if k.toNat % 2 = 0 then .a else .b := by
  revert k
  decide

theorem dataOf_eq (k : BitVec 3) : dataOf k = if k.toNat % 2 = 0 then .b else .a := by
  revert k
  decide

/-- The clock's falling edge is `f`: its next transition, or the one after where the clock is low
(R140). -/
abbrev State.FallsAt (s : State) (c : Ch) (f : Sample) : Prop :=
  (s.trace c).trans[(s.cur c).idx.toNat + (if s.level c = true then 0 else 1)]? = some f

theorem State.CaptureInv.clockEdge_eq_ok (inv : s.CaptureInv) (hf : s.FallsAt (clockOf k) f) :
    clockEdge k s = .ok f (s.moveTo (clockOf k) f) := by
  simp only [State.FallsAt] at hf
  unfold clockEdge skipLow
  generalize clockOf k = c at hf ⊢
  cases hl : s.level c with
  | true =>
    have hup : s.upcoming c = some f := by rwa [hl, if_pos rfl] at hf
    simp only [Bool.true_eq_false, if_false, Flow.andThen_ok_left, inv.goNext_eq hup,
      State.moveTo_position]
  | false =>
    have hfall : (s.trace c).trans[(s.cur c).idx.toNat + 1]? = some f := by simpa [hl] using hf
    obtain ⟨r, hrise⟩ := exists_getElem?_of_le hfall (Nat.le_succ _)
    have hup := (inv.upcoming_moveTo hrise).trans hfall
    have invr := inv.moveTo (c := c) (inv.lt_horizon hrise)
    simp only [if_true, inv.goNext_eq hrise, Flow.andThen_ok_left, invr.goNext_eq hup,
      State.moveTo_moveTo, State.moveTo_position]

theorem moveTo_other (s : State) (c : Ch) (x : Sample) :
    (s.moveTo c x).moveTo (other c) x = s.bothAt x := by cases c <;> rfl

/-- BIT k brings both cursors to the clock's falling edge, and judges the data line's crossings on the
way (R140). -/
theorem State.CaptureInv.bitRule_eq (inv : s.CaptureInv) (hp : s.position .a = s.position .b)
    (hf : s.FallsAt (clockOf k) f) : bitRule k s =
      judgeBit k (s.position .a) f (saturate (s.crossings (dataOf k) f)) (s.bothAt f) := by
  have hfh := inv.lt_horizon hf
  have hpf : s.position (dataOf k) ≤ f := by
    rw [position_eq hp (dataOf k) (clockOf k)]
    exact sample_le_of_lt (inv.position_lt_ahead hf)
  unfold bitRule dataOf at *
  rw [inv.clockEdge_eq_ok hf, Flow.andThen_ok_left,
    (inv.moveTo hfh).advanceTo_eq (by simpa using hpf) (by simpa using hfh), Flow.andThen_ok_left,
    moveTo_other]
  simp only [State.crossings, State.moveTo_trace, State.moveTo_cur_other]

/-! ## The judgement (R141, R142) -/

theorem saturate_toNat (n : Nat) : (saturate n).toNat = min n (2 ^ 32 - 1) := by
  rw [saturate, BitVec.toNat_ofNat]
  omega

theorem saturate_le_one_iff : saturate n ≤ 1 ↔ n ≤ 1 := by
  have h1 : (1 : Count).toNat = 1 := rfl
  rw [BitVec.le_def, saturate_toNat, h1]
  omega

theorem saturate_eq_two_iff : saturate n = 2 ↔ n = 2 := by
  have h2 : (2 : Count).toNat = 2 := rfl
  rw [← BitVec.toNat_inj, saturate_toNat, h2]
  omega

/-- At most one crossing is a bit (R141, R142). -/
theorem judgeBit_of_le_one (hn : n ≤ 1) :
    judgeBit k x y (saturate n) s = .ok .done (sampleBit k x y s) := by
  have h := saturate_le_one_iff.2 hn
  simp only [judgeBit, classifyCount, if_pos h, if_neg (BitVec.not_lt.2 h), ite_self]

/-- Two crossings in bit 0 are left to CLASSIFY (R141). -/
theorem judgeBit_zero_two : judgeBit 0 x y (saturate 2) s = .ok .done (s.setPhase eocClassify) := rfl

/-- More crossings are an error (R141, R142). -/
theorem judgeBit_of_many (hn : 1 < n) (h : k = 0 → n ≠ 2) : judgeBit k x y (saturate n) s =
    .ended (s.resync (if k = 0 then .endTooMany else .bitTiming)) := by
  have h1 : ¬ saturate n ≤ 1 := fun h' => absurd (saturate_le_one_iff.1 h') (by omega)
  by_cases hk : k = 0
  · have h2 : saturate n ≠ 2 := fun h' => h hk (saturate_eq_two_iff.1 h')
    simp only [judgeBit, classifyCount, if_pos hk, if_neg h1, if_neg h2]
  · simp only [judgeBit, if_neg hk, if_pos (BitVec.not_le.1 h1)]

/-- The shift register's new bit, written as a number (R26, R143). -/
theorem shiftIn_eq (sh : Byte) (b : Bool) :
    shiftIn sh b = (sh <<< 1) ||| (if b = true then 1 else 0) := by
  cases b <;> rfl

theorem exec_bit_eq (k : BitVec 3) (s : State) : exec (.bit k) s = settle s (bitRule k s) := rfl

/-- Settles O26: both cursors reach the clock's falling edge, and the crossings that are judged are the
data line's transitions on the way. -/
theorem bitSamplesAtTheClockEdge : Obligations.BitSamplesAtTheClockEdge := by
  rintro s k p f n inv rfl hpB
  simp only [← clockOf_eq, ← dataOf_eq]
  intro hf hn
  have hp : s.position .a = s.position .b := hpB.symm
  have hD : s.curA.pos = s.position (dataOf k) := position_eq hp .a (dataOf k)
  have hpf : s.position (dataOf k) ≤ f :=
    position_eq hp (clockOf k) (dataOf k) ▸ sample_le_of_lt (inv.position_lt_ahead hf)
  rw [hD, ← inv.crossings_eq_length_filter hpf] at hn
  have hrule := inv.bitRule_eq hp hf
  rw [← hn] at hrule
  rw [exec_bit_eq, hrule]
  refine ⟨fun h1 => ?_, ?_, fun hk h2 => ?_, fun hk h1 => ?_⟩
  · rw [judgeBit_of_le_one h1, sampleBit_eq, inv.bothAt_level, shiftIn_eq]
    rfl
  · rintro rfl rfl
    rw [judgeBit_zero_two]
    rfl
  · rw [judgeBit_of_many (by omega) (fun _ => by omega), if_pos hk]
    rfl
  · rw [judgeBit_of_many h1 (fun h => absurd h hk), if_neg hk]
    rfl

/-! ## All that BIT k can do -/

theorem bitRule_ne_answer_blocked (u : State) : bitRule k s ≠ .ok .blocked u :=
  fun h => by cases (bitRule_ok h).1

/-- BIT k is Blocked exactly where its clock edge is: the edge is captured, so the data cursor's move
to it is (R104, R140). -/
theorem State.CaptureInv.bitRule_eq_blocked (inv : s.CaptureInv) :
    bitRule k s = .blocked ↔ clockEdge k s = .blocked := by
  simp only [bitRule, Flow.andThen_eq_blocked, judgeBit_ne_blocked, advanceTo_eq_blocked, and_false,
    exists_false, or_false, or_iff_left_iff_imp]
  rintro ⟨z, u, hedge, -, hz⟩
  obtain ⟨v, fv, -, hnext, rfl, -⟩ := clockEdge_ok hedge
  have invu := (fv.trans (forward_next hnext)).inv inv
  exact absurd hz (BitVec.not_le.2 (invu.position_lt _))

/-- Settles O27: after moves of the cursors alone, BIT k writes one of the three judgements; under the
capture invariant it is Blocked at the clock's edge. -/
theorem bitOutcomes : Obligations.BitOutcomes := by
  refine ⟨fun k s t h => ?_, fun k s inv => ?_⟩
  · rcases exec_engine_next rfl h with rfl | ⟨u, rfl, hu⟩
    · exact .inl rfl
    obtain hu | hu : bitRule k s = .ok .done u ∨ bitRule k s = .ended u := by simpa using hu
    · obtain ⟨-, z, n, v, w, hedge, hadv, hw⟩ := bitRule_ok hu
      obtain ⟨p, q, rfl⟩ := (bitRule_moves hedge hadv).1.exists_withCursors
      rcases hw with rfl | ⟨hk, rfl⟩
      · rw [sampleBit_eq]
        exact .inr (.inr (.inr ⟨_, z, rfl⟩))
      · exact .inr (.inl ⟨hk, rfl⟩)
    · obtain ⟨z, n, v, w, hedge, hadv, rfl⟩ := bitRule_ended hu
      obtain ⟨p, q, rfl⟩ := (bitRule_moves hedge hadv).1.exists_withCursors
      exact .inr (.inr (.inl rfl))
  · simp only [← clockOf_eq]
    rw [exec_bit_eq]
    exact (settle_eq_blocked bitRule_ne_answer_blocked).trans
      (inv.bitRule_eq_blocked.trans (clockEdge_eq_blocked inv))

/-! ## The counting loop (R146) -/

/-- A clock transition at or after `me` ends the count. -/
theorem countClock_stop (h : s.upcoming .a = some x) (hx : me ≤ x) :
    countClock me (left + 1) cnt s = .ok cnt s := by
  rw [countClock, peekNext_eq_ok.2 ⟨h, rfl⟩, Flow.andThen_ok_left, if_neg (BitVec.not_lt.2 hx)]

/-- The clock transitions up to one before `me` are counted and consumed. -/
theorem State.CaptureInv.countClock_add (inv : s.CaptureInv)
    (hx : s.traceA.trans[s.curA.idx.toNat + j]? = some x) (hme : x < me) :
    countClock me (left + (j + 1)) cnt s = countClock me left (cnt + (j + 1)) (s.moveTo .a x) := by
  induction j generalizing s cnt with
  | zero =>
    have hup : s.upcoming .a = some x := hx
    rw [countClock, peekNext_eq_ok.2 ⟨hup, rfl⟩, Flow.andThen_ok_left, if_pos hme,
      inv.goNext_eq hup, Flow.andThen_ok_left]
  | succ j ih =>
    obtain ⟨y, hy⟩ := exists_getElem?_of_le hx (Nat.le_add_right _ (j + 1))
    have hyme : y < me := BitVec.lt_trans (inv.lt_of_getElem? (c := .a) (by omega) hy hx) hme
    have hup : s.upcoming .a = some y := hy
    have hg := inv.goNext_eq hup
    have invy := inv.moveTo (c := .a) (inv.lt_horizon (c := .a) hy)
    rw [← Nat.add_assoc left, countClock, peekNext_eq_ok.2 ⟨hup, rfl⟩, Flow.andThen_ok_left,
      if_pos hyme, hg, Flow.andThen_ok_left, ih invy ((ahead_next inv hg j).trans hx),
      State.moveTo_moveTo, Nat.add_assoc cnt, Nat.add_comm 1]

/-! ## From the count to the outcome (R146 to R149) -/

section
variable (hme : s.upcoming .b = some me)
include hme

/-- Fewer than three clock transitions before `me` are ambiguous (R148). -/
theorem classifyRule_few (h : countClock me Config.endClk 0 s = .ok n u) (hn : n ≠ Config.endClk) :
    classifyRule s = .ended (u.resync .endAmbig) := by
  simp only [classifyRule, peekNext_eq_ok.2 ⟨hme, rfl⟩, Flow.andThen_ok_left, h, fourthClock,
    classifyEnd, hn, false_and, if_false]

/-- A fourth clock transition up to `me` is ambiguous (R148). -/
theorem classifyRule_fourth (h : countClock me Config.endClk 0 s = .ok Config.endClk u)
    (hx : u.upcoming .a = some x) (hle : x ≤ me) :
    classifyRule s = .ended (u.resync .endAmbig) := by
  have hcross : wouldCross .a me u = .ok true u := wouldCross_eq_ok.2 ⟨rfl, .inl ⟨rfl, x, hx, hle⟩⟩
  simp only [classifyRule, peekNext_eq_ok.2 ⟨hme, rfl⟩, Flow.andThen_ok_left, h, fourthClock,
    if_true, hcross, classifyEnd, Bool.true_eq_false, and_false, if_false]

/-- Three clock transitions before `me` and no fourth up to it are the end (R147). -/
theorem classifyRule_end (h : countClock me Config.endClk 0 s = .ok Config.endClk u)
    (hx : ∀ x, u.upcoming .a = some x → me < x) (hh : me < u.horizon) :
    classifyRule s = endPacket me u := by
  have hcross : wouldCross .a me u = .ok false u := wouldCross_eq_ok.2 ⟨rfl, .inr ⟨rfl, hx, hh⟩⟩
  simp only [classifyRule, peekNext_eq_ok.2 ⟨hme, rfl⟩, Flow.andThen_ok_left, h, fourthClock,
    if_true, hcross, classifyEnd, and_self]

end

/-- End from sound cursors (R147). -/
theorem State.CaptureInv.endPacket_eq (inv : s.CaptureInv) (hA : s.position .a ≤ me)
    (hB : s.position .b ≤ me) (hh : me < s.horizon) :
    endPacket me s = .ok .done { s.bothAt me with
      out := s.out ++ [.marker .stop .a me, .marker .stop .b me]
      phase := eocAlign } := by
  have hemit : ((s.emit (.marker .stop .a me)).emit (.marker .stop .b me)).CaptureInv := inv
  rw [endPacket, hemit.advanceTo_eq hA hh, Flow.andThen_ok_left,
    (hemit.moveTo (c := .a) hh).advanceTo_eq hB hh, Flow.andThen_ok_left]
  simp [State.bothAt, State.moveTo, State.setCur, State.emit, State.setPhase, State.trace]

theorem exec_classify_eq (s : State) : exec .classify s = settle s (classifyRule s) := rfl

/-- Settles O28: the clock stands at the last transition counted, and the outcome is read off the
count and the transition after it. -/
theorem classifyDecidesTheEnd : Obligations.ClassifyDecidesTheEnd := by
  intro s me a1 a2 a3 inv hme h1 h2 h3
  have c1 : cursorAt s.traceA a1 = ⟨a1, s.curA.idx + 1⟩ :=
    inv.cursorAt_ahead (c := .a) (j := 0) h1
  have c2 : cursorAt s.traceA a2 = ⟨a2, s.curA.idx + 2⟩ :=
    inv.cursorAt_ahead (c := .a) (j := 1) h2
  have c3 : cursorAt s.traceA a3 = ⟨a3, s.curA.idx + 3⟩ :=
    inv.cursorAt_ahead (c := .a) (j := 2) h3
  have hall (h : a3 < me) : countClock me Config.endClk 0 s = .ok Config.endClk (s.moveTo .a a3) :=
    inv.countClock_add (j := 2) (left := 0) h3 h
  rw [exec_classify_eq]
  refine ⟨fun h hno => ?_, fun h hfourth => ?_, fun h h' => ?_, fun h h' => ?_, fun h => ?_⟩
  · obtain ⟨hb, hh⟩ := inv.lt_upcoming hme
    have cA : cursorAt s.traceA me = ⟨me, s.curA.idx + 3⟩ :=
      inv.cursorAt_between (c := .a) (j := 2) h3 (sample_le_of_lt h) hno
    have cB : cursorAt s.traceB me = ⟨me, s.curB.idx + 1⟩ :=
      inv.cursorAt_ahead (c := .b) (j := 0) hme
    have inv3 := inv.moveTo (c := .a) (inv.lt_horizon (c := .a) h3)
    rw [classifyRule_end hme (hall h)
        (fun x hx => hno x ((inv.upcoming_moveTo (c := .a) h3).symm.trans hx)) hh,
      inv3.endPacket_eq (by simpa using sample_le_of_lt h) (sample_le_of_lt hb) hh, ← cA, ← cB]
    rfl
  · obtain ⟨a4, h4, hle⟩ := hfourth
    rw [classifyRule_fourth hme (hall h) ((inv.upcoming_moveTo (c := .a) h3).trans h4) hle, ← c3]
    rfl
  · have hcount : countClock me Config.endClk 0 s = .ok 2 (s.moveTo .a a2) :=
      (inv.countClock_add (j := 1) (left := 1) h2 h').trans
        (countClock_stop ((inv.upcoming_moveTo (c := .a) h2).trans h3) h)
    rw [classifyRule_few hme hcount (by decide), ← c2]
    rfl
  · have hcount : countClock me Config.endClk 0 s = .ok 1 (s.moveTo .a a1) :=
      (inv.countClock_add (j := 0) (left := 2) h1 h').trans
        (countClock_stop ((inv.upcoming_moveTo (c := .a) h1).trans h2) h)
    rw [classifyRule_few hme hcount (by decide), ← c1]
    rfl
  · rw [classifyRule_few hme (countClock_stop (left := 2) h1 h) (by decide)]
    rfl

/-! ## All that CLASSIFY can do -/

theorem classifyRule_ne_answer_blocked (u : State) : classifyRule s ≠ .ok .blocked u :=
  fun h => by cases (classifyRule_ok h).1

/-- The moves of End to a captured sample never block (R104). -/
theorem endPacket_ne_blocked (hh : me < s.horizon) : endPacket me s ≠ .blocked := by
  simp only [endPacket, ne_eq, Flow.andThen_eq_blocked, advanceTo_eq_blocked, reduceCtorEq, and_false,
    exists_false, or_false, not_or]
  refine ⟨fun h => BitVec.not_le.2 hh h.2, ?_⟩
  rintro ⟨m, u, hu, -, hle⟩
  exact BitVec.not_le.2 hh ((forward_advance hu).horizon ▸ hle)

/-- CLASSIFY is Blocked exactly where the data line's next transition is not captured, or the counting
loop before it is Blocked (R146, R194). -/
theorem State.CaptureInv.classifyRule_eq_blocked (inv : s.CaptureInv) : classifyRule s = .blocked ↔
    s.upcoming .b = none ∨
      ∃ me, s.upcoming .b = some me ∧ countClock me Config.endClk 0 s = .blocked := by
  rw [classifyRule, Flow.andThen_eq_blocked, peekNext_eq_blocked]
  simp only [peekNext_eq_ok]
  refine or_congr_right ⟨?_, ?_⟩
  · rintro ⟨me, _, ⟨hme, rfl⟩, h⟩
    refine ⟨me, hme, ?_⟩
    rcases Flow.andThen_eq_blocked.1 h with h | ⟨n, u, hn, h⟩
    · exact h
    obtain ⟨f, -⟩ := countClock_ok hn
    have hh : me < u.horizon := f.horizon ▸ (inv.lt_upcoming hme).2
    rcases Flow.andThen_eq_blocked.1 h with h | ⟨b, v, hb, hjudge⟩
    · exact absurd h (fourthClock_ne_blocked hh)
    obtain rfl := fourthClock_ok hb
    split at hjudge
    · exact absurd hjudge (endPacket_ne_blocked hh)
    · cases hjudge
    · cases hjudge
  · rintro ⟨me, hme, h⟩
    exact ⟨me, s, ⟨hme, rfl⟩, Flow.andThen_eq_blocked.2 (.inl h)⟩

/-- Settles O29: End and the resync write what their rules say after moves of the cursors alone; under
the capture invariant CLASSIFY is Blocked at `me` or in the counting loop. -/
theorem classifyOutcomes : Obligations.ClassifyOutcomes := by
  refine ⟨fun s t h => ?_, fun s inv => ?_⟩
  · rcases exec_engine_next rfl h with rfl | ⟨u, rfl, hu⟩
    · exact .inl rfl
    obtain hu | hu : classifyRule s = .ok .done u ∨ classifyRule s = .ended u := by simpa using hu
    · obtain ⟨-, me, v, -, fv, hA, hB, rfl⟩ := classifyRule_ok hu
      obtain ⟨p, q, rfl⟩ := fv.exists_withCursors
      exact .inr (.inr ⟨me, hA, hB, rfl⟩)
    · obtain ⟨v, fv, hB, rfl⟩ := classifyRule_ended hu
      obtain ⟨p, q, rfl⟩ := fv.exists_withCursors
      obtain rfl : q = s.curB := hB
      exact .inr (.inl rfl)
  · rw [exec_classify_eq]
    refine (settle_eq_blocked classifyRule_ne_answer_blocked).trans ?_
    simp only [inv.classifyRule_eq_blocked, countClock_eq_blocked inv]
    exact or_congr_right
      ⟨fun ⟨me, hme, j, hrun⟩ => ⟨me, j, hme, hrun⟩, fun ⟨me, j, hme, hrun⟩ => ⟨me, hme, j, hrun⟩⟩

/-! ## The end of the packet (R150) -/

/-- CLASSIFY ends at `me` exactly with three clock transitions before it and no fourth up to it. -/
theorem State.CaptureInv.classify_end_iff {a1 a2 a3 : Sample} (inv : s.CaptureInv)
    (hme : s.upcoming .b = some me) (h1 : s.traceA.trans[s.curA.idx.toNat]? = some a1)
    (h2 : s.traceA.trans[s.curA.idx.toNat + 1]? = some a2)
    (h3 : s.traceA.trans[s.curA.idx.toNat + 2]? = some a3) :
    (∃ t, exec .classify s = .next t ∧ t.phase = eocAlign ∧ t.curA.pos = me ∧ t.curB.pos = me ∧
        t.out = s.out ++ [.marker .stop .a me, .marker .stop .b me]) ↔
      a3 < me ∧ ∀ a4, s.traceA.trans[s.curA.idx.toNat + 3]? = some a4 → me < a4 := by
  obtain ⟨hend, h4th, htwo, hone, hzero⟩ := classifyDecidesTheEnd s me a1 a2 a3 inv hme h1 h2 h3
  constructor
  · rintro ⟨t, ht, -, -, -, hout⟩
    have emits {v : State} (hv : exec .classify s = .next v) : v.out ≠ s.out := by
      obtain rfl : t = v := Host.Outcome.next.inj (ht.symm.trans hv)
      simp [hout]
    have hlt1 : a1 < me := BitVec.not_le.1 fun h => emits (hzero h) rfl
    have hlt2 : a2 < me := BitVec.not_le.1 fun h => emits (hone h hlt1) rfl
    have hlt3 : a3 < me := BitVec.not_le.1 fun h => emits (htwo h hlt2) rfl
    exact ⟨hlt3, fun a4 h4 => BitVec.not_le.1 fun h => emits (h4th hlt3 ⟨a4, h4, h⟩) rfl⟩
  · rintro ⟨hlt, hno⟩
    exact ⟨_, hend hlt hno, rfl, rfl, rfl, rfl⟩

/-- The move to `x` crosses two transitions exactly where the second ahead comes at or before `x` and
the third after it. -/
theorem State.CaptureInv.crossings_eq_two_iff (inv : s.CaptureInv) (hp : s.position c ≤ x)
    (hy : (s.trace c).trans[(s.cur c).idx.toNat + 1]? = some y)
    (hz : (s.trace c).trans[(s.cur c).idx.toNat + 2]? = some z) :
    s.crossings c x = 2 ↔ y ≤ x ∧ x < z := by
  have hcross := inv.crossings_eq hp
  rw [← inv.idx_eq] at hcross
  rw [← BitVec.not_le, le_iff_lt_countUpTo (inv.wf c).increasing hy,
    le_iff_lt_countUpTo (inv.wf c).increasing hz]
  omega

/-- What BIT 0 leaves where it hands over to CLASSIFY at the clock's edge `x` (R141). -/
def State.atClassify (s : State) (x : Sample) : State :=
  ((s.bothAt x).setPhase eocClassify).answered .done

theorem State.CaptureInv.atClassify (inv : s.CaptureInv) (hx : x < s.horizon) :
    (s.atClassify x).CaptureInv :=
  inv.bothAt hx

theorem State.CaptureInv.atClassify_idx (inv : s.CaptureInv) (x : Sample) (c : Ch) :
    ((s.atClassify x).cur c).idx.toNat = countUpTo (s.trace c).trans x := by
  rw [State.atClassify, State.answered_cur, State.setPhase_cur, State.bothAt_cur,
    (inv.wf c).idx_toNat]

/-- BIT 0 goes to CLASSIFY exactly where the data line crosses twice up to the clock's edge (R141). -/
theorem State.CaptureInv.bit_zero_classify_iff (inv : s.CaptureInv)
    (hp : s.position .a = s.position .b) (hf : s.FallsAt .a f) :
    exec (.bit 0) s = .next u ∧ u.phase = eocClassify ↔
      s.crossings .b f = 2 ∧ u = s.atClassify f := by
  rw [exec_bit_eq, inv.bitRule_eq (k := 0) hp hf]
  change settle s (judgeBit 0 _ f (saturate (s.crossings .b f)) _) = _ ∧ _ ↔ _
  generalize s.crossings .b f = n
  rcases Nat.lt_or_ge 1 n with h1 | h1
  · by_cases h2 : n = 2
    · subst h2
      rw [judgeBit_zero_two]
      exact ⟨fun h => ⟨rfl, (Host.Outcome.next.inj h.1).symm⟩, fun h => h.2 ▸ ⟨rfl, rfl⟩⟩
    · rw [judgeBit_of_many h1 fun _ => h2]
      refine ⟨fun h => ?_, fun h => absurd h.1 h2⟩
      obtain rfl := Host.Outcome.next.inj h.1
      exact absurd h.2 (by decide : eocAlign ≠ eocClassify)
  · rw [judgeBit_of_le_one h1]
    refine ⟨fun h => ?_, fun h => absurd h.1 (by omega)⟩
    obtain rfl := Host.Outcome.next.inj h.1
    exact absurd ((sampleBit_phase ..).symm.trans h.2) (by decide)

/-- Settles O30: BIT 0 hands over after two crossings, with A past the clock's edge and B past its
second transition; CLASSIFY then emits exactly on the rest of the pattern. -/
theorem endPatternCharacterized : Obligations.EndPatternCharacterized := by
  intro s j f c1 c2 c3 b1 b2 b3 inv hp hj hf h1 h2 h3 _ hb2 hb3
  have hfall : s.FallsAt .a f := by rwa [hj] at hf
  have hpf : s.position .b ≤ f :=
    position_eq hp .a .b ▸ sample_le_of_lt (inv.position_lt_ahead hfall)
  have htwo := inv.crossings_eq_two_iff (c := .b) hpf hb2 hb3
  have hA : (s.atClassify f).curA.idx.toNat = j + 1 :=
    (inv.atClassify_idx f .a).trans (countUpTo_getElem? inv.1.1.increasing hf)
  have hB (h : b2 ≤ f ∧ f < b3) : (s.atClassify f).upcoming .b = some b3 := by
    have hidx := (inv.atClassify_idx f .b).trans (countUpTo_of_between inv.1.2.increasing hb2 h.1
      fun z hz => Option.some.inj (hb3.symm.trans hz) ▸ h.2)
    exact (congrArg (s.traceB.trans[·]?) hidx).trans hb3
  have invf := inv.atClassify (inv.lt_horizon hfall)
  have hend (h : b2 ≤ f ∧ f < b3) := invf.classify_end_iff (a1 := c1) (a2 := c2) (a3 := c3) (hB h)
    (by rwa [hA]) (by rwa [hA]) (by rwa [hA])
  rw [hA] at hend
  constructor
  · rintro ⟨h2f, hf3, hpat⟩
    obtain ⟨hbit, hphase⟩ := (inv.bit_zero_classify_iff hp hfall).2 ⟨htwo.2 ⟨h2f, hf3⟩, rfl⟩
    obtain ⟨t, ht⟩ := (hend ⟨h2f, hf3⟩).2 hpat
    exact ⟨_, t, hbit, hphase, ht⟩
  · rintro ⟨u, t, hbit, hphase, ht⟩
    obtain ⟨hcross, rfl⟩ := (inv.bit_zero_classify_iff hp hfall).1 ⟨hbit, hphase⟩
    have hwin := htwo.1 hcross
    exact ⟨hwin.1, hwin.2, (hend hwin).1 ⟨t, ht⟩⟩

end Sys2Proof.Machine
end

section
/-! ASSEMBLE at a byte of a packet: the faults and the frame, the packet state in closed form and the unit
of the byte (R160 to R168, R171, R196). -/

namespace Sys2Proof.Machine

variable {s t : State} {ps ps' : PacketState} {h v : Byte} {n w : Nat} {acc : BusWord}
  {ws : Option Sample} {m : Mode} {x y : Sample} {events : List Event} {r : Fault}

/-! ## From the assembled byte to the operation -/

theorem exec_assemble_eq_next : exec .assemble s = .next t ↔ ∃ ps events,
    assembleByte s.modeReg s.shift s.byteStart s.byteEnd s.ps = .ok (ps, events) ∧
    t = { s with ps := ps, out := s.out ++ events, k := 0, shift := 0, phase := eocBit,
                 answer := .done } := by
  change settle s (assembleRule s) = _ ↔ _
  unfold assembleRule
  split
  next e => simp [settle, e]
  next ps events e => simp [settle, e, State.answered, eq_comm]

theorem exec_assemble_eq_fault : exec .assemble s = .fault r ↔
    assembleByte s.modeReg s.shift s.byteStart s.byteEnd s.ps = .error r := by
  change settle s (assembleRule s) = _ ↔ _
  rw [settle_eq_fault]
  unfold assembleRule
  split
  next e => simp [e]
  next e => simp [e]

/-- A byte that is assembled went through the four parts of the rule; only the last looks at the mode
(R160, R161, R169). -/
theorem assembleByte_eq_ok : assembleByte m v x y ps = .ok (ps', events) ↔
    ps.byteCount ≠ BitVec.allOnes 32 ∧ ∃ ps1 just cls ps2,
      countRemaining v (countByte v x ps) = .ok (ps1, just) ∧ byteClass ps1 = .ok cls ∧
      wordStep ps1 = .ok ps2 ∧ unitsOf m v cls just x y ps2 = .ok events ∧ ps' = clearWord ps2 := by
  unfold assembleByte
  split
  next hn => simp [hn]
  next hn =>
    simp only [except_bind_eq_ok, except_map_eq_ok, Prod.mk.injEq, Prod.exists]
    constructor
    · rintro ⟨ps1, just, h1, cls, h2, ps2, h3, _, h4, rfl, rfl⟩
      exact ⟨hn, ps1, just, cls, ps2, h1, h2, h3, h4, rfl⟩
    · rintro ⟨-, ps1, just, cls, ps2, h1, h2, h3, h4, rfl⟩
      exact ⟨ps1, just, h1, cls, h2, ps2, h3, _, h4, rfl, rfl⟩

/-- A byte is assembled into no event or one unit (R160, R165 to R167). -/
theorem assembleByte_events (e : assembleByte m v x y ps = .ok (ps', events)) :
    events = [] ∨ ∃ g value cls rem first last, events = [.unit g value cls rem first last] := by
  obtain ⟨-, _, _, _, _, -, -, -, h4, -⟩ := assembleByte_eq_ok.1 e
  rcases unitsOf_eq_ok h4 with rfl | ⟨g, value, cls, rem, first, rfl, -⟩
  · exact .inl rfl
  · exact .inr ⟨g, value, cls, rem, first, y, rfl⟩

/-! ## Faults and frame -/

/-- Settles O32: the limit is the rule's first test, and after the first byte the count of the bytes
remaining reads `bytesRem`. -/
theorem assembleFaults : Obligations.AssembleFaults := by
  refine fun s => ⟨fun hn => ?_, fun hn h0 hr => ?_⟩
  · have hall : s.ps.byteCount = BitVec.allOnes 32 := BitVec.eq_of_toNat_eq (by simpa using hn)
    exact exec_assemble_eq_fault.2 (if_pos hall)
  · have hall : s.ps.byteCount ≠ BitVec.allOnes 32 := fun e => hn (by simp [e])
    have hlater : s.ps.byteCount + 1 ≠ 1 := by simpa using h0
    have hcount : countRemaining s.shift (countByte s.shift s.byteStart s.ps) =
        .error .readUnknown := by
      simp only [countRemaining, countByte, if_neg hlater, hr, readKnown]
    rw [exec_assemble_eq_fault, assembleByte, if_neg hall, hcount]
    rfl

/-- Settles O33: ASSEMBLE writes what its rule says, and the byte's events are none or one unit. -/
theorem assembleFrame : Obligations.AssembleFrame := by
  intro s t e
  obtain ⟨ps, events, hb, rfl⟩ := exec_assemble_eq_next.1 e
  refine ⟨rfl, ?_⟩
  rcases assembleByte_events hb with rfl | ⟨g, value, cls, rem, first, last, rfl⟩
  · exact .inl (List.append_nil _)
  · exact .inr ⟨g, value, cls, rem, first, last, rfl⟩

/-! ## The packet state in closed form -/

/-- The packet state of a packet with header byte `h` that has counted `n` bytes and `w` words (R31,
R163, R164, R166, R171). -/
def packetAt (h : Byte) (n w : Nat) (acc : BusWord) (ws : Option Sample) : PacketState where
  byteCount := BitVec.ofNat 32 n
  wordAcc := acc
  wordStart := ws
  bytesTotal := some (BitVec.ofNat 32 (4 * h.toNat + 5))
  bytesRem := some (BitVec.ofNat 32 (4 * h.toNat + 5 - n))
  wordsTotal := some (BitVec.ofNat 32 (h.toNat + 1))
  wordsRem := some (BitVec.ofNat 32 (h.toNat + 1 - w))

/-- The packet states of a packet are the closed form at their own byte count. -/
theorem PacketState.InPacket.eq_packetAt (p : ps.InPacket h) :
    ps = packetAt h ps.byteCount.toNat (ps.byteCount.toNat / 4) ps.wordAcc ps.wordStart := by
  obtain ⟨hbt, hbr, hwt, hwr, -⟩ := p
  cases ps
  simp_all [packetAt]

/-- The start of the group after a byte at `x` is counted (R162). -/
def groupStart (n : Nat) (x : Sample) (ws : Option Sample) : Option Sample :=
  if n % 4 = 1 then some x else ws

/-- The header byte opens the packet (R162, R163). -/
theorem countRemaining_init (v : Byte) (x : Sample) :
    countRemaining v (countByte v x PacketState.init) =
      .ok (packetAt v 1 0 (foldByte 0 v) (some x), false) := by
  have hrem : headerBytes v - 1 = BitVec.ofNat 32 (4 * v.toNat + 5 - 1) := by
    have := v.isLt
    apply BitVec.eq_of_toNat_eq
    simp [headerBytes, Config.hdrMul, Config.hdrAdd]
    omega
  have hc : countRemaining v (countByte v x PacketState.init) = .ok (⟨1, foldByte 0 v, some x,
      some (headerBytes v), some (headerBytes v - 1), some (headerWords v),
      some (headerWords v)⟩, false) := rfl
  rw [hc, hrem]
  rfl

/-- The bytes remaining of a packet fit the counter (R163). -/
theorem bytesRemaining_eq_iff (h : Byte) (n : Nat) {c : Nat} (hc : c < 2 ^ 32) :
    BitVec.ofNat 32 (4 * h.toNat + 5 - n) = BitVec.ofNat 32 c ↔ 4 * h.toNat + 5 - n = c := by
  have := h.isLt
  rw [BitVec.toNat_eq, BitVec.toNat_ofNat, BitVec.toNat_ofNat, Nat.mod_eq_of_lt hc,
    Nat.mod_eq_of_lt (by omega)]

/-- A byte after the first takes one from the bytes remaining, while there are any (R164). -/
theorem countRemaining_later {rem : Count} (h1 : ps.byteCount ≠ 1) (hr : ps.bytesRem = some rem) :
    countRemaining v ps =
      .ok ({ ps with bytesRem := some (if 0 < rem then rem - 1 else rem) }, decide (rem = 1)) := by
  simp only [countRemaining, if_neg h1, hr, readKnown]
  by_cases hpos : 0 < rem
  · simp only [if_pos hpos, sub_eq_zero]
  · have hne : rem ≠ 1 := fun e => hpos (e ▸ by decide)
    rw [if_neg hpos, if_neg hpos, ← hr, decide_eq_false hne]

/-- The fold of a byte below the limit (R161, R162). -/
theorem countByte_packetAt (hn : n + 1 < 2 ^ 32) : countByte v x (packetAt h n w acc ws) =
    { packetAt h (n + 1) w (foldByte acc v) (groupStart (n + 1) x ws) with
      bytesRem := some (BitVec.ofNat 32 (4 * h.toNat + 5 - n)) } := by
  simp only [countByte, packetAt, groupStart, BitVec.ofNat_add_ofNat, BitVec.ofNat_eq_ofNat,
    BitVec.toNat_ofNat, Nat.mod_eq_of_lt hn, Config.wordBytes]

/-- A later byte in closed form; the bytes remaining have just reached 0 at the last byte of the packet
(R163, R164). -/
theorem countRemaining_packetAt (h0 : n ≠ 0) (hn : n + 1 < 2 ^ 32) :
    countRemaining v (countByte v x (packetAt h n w acc ws)) =
      .ok (packetAt h (n + 1) w (foldByte acc v) (groupStart (n + 1) x ws),
        decide (n + 1 = 4 * h.toNat + 5)) := by
  have hlater : BitVec.ofNat 32 (n + 1) ≠ 1 := fun e => by
    have hone := congrArg BitVec.toNat e
    rw [BitVec.toNat_ofNat, Nat.mod_eq_of_lt hn] at hone
    exact h0 (Nat.succ.inj hone)
  have hlast : BitVec.ofNat 32 (4 * h.toNat + 5 - n) = 1 ↔ n + 1 = 4 * h.toNat + 5 :=
    (bytesRemaining_eq_iff h n (c := 1) (by decide)).trans (by omega)
  have hh := h.isLt
  rw [countByte_packetAt hn, countRemaining_later hlater rfl, ofNat_sub_succ (by omega)]
  simp only [hlast]
  rfl

/-! ## The byte's classification, the word step and the units -/

theorem packetAt_byteCount_toNat (hn : n < 2 ^ 32) : (packetAt h n w acc ws).byteCount.toNat = n := by
  rw [packetAt, BitVec.toNat_ofNat, Nat.mod_eq_of_lt hn]

theorem isFourth_packetAt (hn : n < 2 ^ 32) :
    isFourth (packetAt h n w acc ws) = decide (n % 4 = 0) := by
  rw [isFourth, packetAt_byteCount_toNat hn, Config.wordBytes]

/-- The classification of byte `n` of a packet with header byte `h`: the first four bytes are the frame
header's; the CRC byte is the one at the length, and every byte beyond it counts as one too (R165,
R171). -/
def packetCls (h : Byte) (n : Nat) : Cls :=
  if n ≤ 4 then .frameHeader else if 4 * h.toNat + 5 ≤ n then .crc else .payload

theorem byteClass_packetAt (hn : n < 2 ^ 32) :
    byteClass (packetAt h n w acc ws) = .ok (packetCls h n) := by
  have hhead : (packetAt h n w acc ws).byteCount ≤ 4 ↔ n ≤ 4 := by
    rw [BitVec.le_def, packetAt_byteCount_toNat hn]
    rfl
  have hlast : BitVec.ofNat 32 (4 * h.toNat + 5 - n) = 0 ↔ 4 * h.toNat + 5 ≤ n :=
    (bytesRemaining_eq_iff h n (c := 0) (by decide)).trans Nat.sub_eq_zero_iff_le
  unfold byteClass packetCls
  simp only [hhead]
  split
  next => rfl
  next => simp only [packetAt, readKnown, hlast]

/-- A 4th byte takes one from the words remaining, and the words counted are those of the bytes
(R166). -/
theorem wordStep_packetAt (hn : n + 1 < 2 ^ 32) : wordStep (packetAt h (n + 1) (n / 4) acc ws) =
    .ok (packetAt h (n + 1) ((n + 1) / 4) acc ws) := by
  unfold wordStep
  rw [isFourth_packetAt hn]
  by_cases h4 : (n + 1) % 4 = 0
  · have hdiv : (n + 1) / 4 = n / 4 + 1 := by omega
    have hh := h.isLt
    have hrem := ofNat_sub_succ (m := h.toNat + 1) (n := n / 4) (by omega)
    simp only [h4, decide_true, if_true, countWord, packetAt, readKnown, hdiv]
    split at hrem
    next hw => rw [if_pos hw, hrem]
    next hw => rw [if_neg hw, hrem]
  · have hdiv : (n + 1) / 4 = n / 4 := by omega
    simp only [h4, decide_false, Bool.false_eq_true, if_false, hdiv]

theorem clearWord_packetAt (hn : n < 2 ^ 32) : clearWord (packetAt h n w acc ws) =
    packetAt h n w (if n % 4 = 0 then 0 else acc) ws := by
  unfold clearWord
  rw [isFourth_packetAt hn]
  by_cases h4 : n % 4 = 0
  · simp [h4, packetAt]
  · simp [h4]

/-- The events that a mode materializes at byte `n` of a packet: the byte's unit, or the word's at a 4th
byte and the CRC's at the length, or none (R160, R165 to R167). -/
def packetUnits (m : Mode) (h v : Byte) (n : Nat) (acc : BusWord) (first x y : Sample) : List Event :=
  if m = .byte then
    [.unit .byte (v.setWidth 32) (packetCls h n) (BitVec.ofNat 32 (4 * h.toNat + 5 - n)) x y]
  else if n % 4 = 0 then
    [.unit .word acc (if n = 4 then .frameHeader else .payload)
      (BitVec.ofNat 32 (h.toNat + 1 - n / 4)) first y]
  else if n = 4 * h.toNat + 5 then
    [.unit .byte (v.setWidth 32) .crc 0 x y]
  else []

theorem unitsOf_packetAt (hn : n < 2 ^ 32) (first : Sample) :
    unitsOf m v (packetCls h n) (decide (n = 4 * h.toNat + 5)) x y
      (packetAt h n (n / 4) acc (some first)) = .ok (packetUnits m h v n acc first x y) := by
  unfold unitsOf packetUnits
  rw [isFourth_packetAt hn]
  by_cases hm : m = .byte
  · simp [hm, byteUnits, byteUnit, packetAt, readKnown, Except.map]
  by_cases h4 : n % 4 = 0
  · have hword : (packetAt h n (n / 4) acc (some first)).byteCount = 4 ↔ n = 4 := by
      rw [BitVec.toNat_eq, packetAt_byteCount_toNat hn]
      rfl
    simp only [hm, byteUnits, h4, decide_true, decide_false, Bool.false_eq_true, if_true, if_false,
      wordUnit, hword]
    rfl
  by_cases hl : n = 4 * h.toNat + 5
  · simp [hm, ← hl, h4, byteUnits, byteUnit, packetAt, readKnown, Except.map]
  · simp [hm, h4, hl, byteUnits]

/-! ## A byte of a packet -/

/-- The rule once the bytes remaining are counted. -/
theorem assembleByte_of_counted {first : Sample} (hall : ps.byteCount ≠ BitVec.allOnes 32)
    (hn : n + 1 < 2 ^ 32)
    (hcount : countRemaining v (countByte v x ps) =
      .ok (packetAt h (n + 1) (n / 4) acc (some first), decide (n + 1 = 4 * h.toNat + 5))) :
    assembleByte m v x y ps = .ok
      (packetAt h (n + 1) ((n + 1) / 4) (if (n + 1) % 4 = 0 then 0 else acc) (some first),
        packetUnits m h v (n + 1) acc first x y) :=
  assembleByte_eq_ok.2 ⟨hall, _, _, _, _, hcount, byteClass_packetAt hn, wordStep_packetAt hn,
    unitsOf_packetAt hn first, (clearWord_packetAt hn).symm⟩

/-- The first byte is the packet's header byte, and each later one finds the closed form. -/
theorem countRemaining_of_packet (hn : ps.byteCount.toNat + 1 < 2 ^ 32)
    (hp : ps = PacketState.init ∧ h = v ∨ ps.byteCount ≠ 0 ∧ ps.InPacket h) :
    ∃ first, groupStart (ps.byteCount.toNat + 1) x ps.wordStart = some first ∧
      countRemaining v (countByte v x ps) =
        .ok (packetAt h (ps.byteCount.toNat + 1) (ps.byteCount.toNat / 4) (foldByte ps.wordAcc v)
          (some first), decide (ps.byteCount.toNat + 1 = 4 * h.toNat + 5)) := by
  rcases hp with ⟨rfl, rfl⟩ | ⟨h0, p⟩
  · have hlast : ¬ PacketState.init.byteCount.toNat + 1 = 4 * h.toNat + 5 := by
      show ¬ 1 = 4 * h.toNat + 5
      omega
    rw [decide_eq_false hlast]
    exact ⟨x, rfl, countRemaining_init h x⟩
  · have ⟨_, _, _, _, hstart⟩ := p
    have hsome : (groupStart (ps.byteCount.toNat + 1) x ps.wordStart).isSome = true := by
      unfold groupStart
      split
      next => rfl
      next => exact hstart
    obtain ⟨first, hfirst⟩ := Option.isSome_iff_exists.1 hsome
    have h0' : ps.byteCount.toNat ≠ 0 := fun e => h0 (BitVec.eq_of_toNat_eq e)
    refine ⟨first, hfirst, ?_⟩
    rw [← hfirst, ← countRemaining_packetAt h0' hn, ← p.eq_packetAt]

/-- Settles O31: the closed form steps from byte to byte, and the events are the ones of its count. -/
theorem assembleFoldsTheByte : Obligations.AssembleFoldsTheByte := by
  intro s h n hn hlt hp
  subst hn
  obtain ⟨first, hfirst, hcount⟩ := countRemaining_of_packet (x := s.byteStart) hlt hp
  have hall : s.ps.byteCount ≠ BitVec.allOnes 32 := fun e => by simp [e] at hlt
  refine exec_assemble_eq_next.2 ⟨_, _, assembleByte_of_counted hall hlt hcount, ?_⟩
  rw [groupStart] at hfirst
  simp only [hfirst]
  rfl

end Sys2Proof.Machine
end

section
/-! No engine step looks at the mode but for the units that ASSEMBLE emits: every other rule commutes with
a change of the mode, and ASSEMBLE folds the packet state before it looks (R160, R169). -/

namespace Sys2Proof.Machine

variable {s t : State} {c d : Ch} {x y : Sample} {k : BitVec 3} {m n : Mode} {i : Instr}

/-! ## A change of the mode -/

/-- The state in another mode. -/
def State.withMode (m : Mode) (s : State) : State := { s with modeReg := m }

section
variable (m : Mode) (s : State)

@[simp] theorem State.withMode_cur (c : Ch) : (s.withMode m).cur c = s.cur c := by cases c <;> rfl
@[simp] theorem State.withMode_position (c : Ch) : (s.withMode m).position c = s.position c := by
  cases c <;> rfl
@[simp] theorem State.withMode_level (c : Ch) : (s.withMode m).level c = s.level c := by
  cases c <;> rfl
@[simp] theorem State.withMode_upcoming (c : Ch) : (s.withMode m).upcoming c = s.upcoming c := by
  cases c <;> rfl
@[simp] theorem State.withMode_crossings (c : Ch) (x : Sample) :
    (s.withMode m).crossings c x = s.crossings c x := by cases c <;> rfl
@[simp] theorem State.withMode_horizon : (s.withMode m).horizon = s.horizon := rfl
@[simp] theorem State.withMode_setCur (c : Ch) (v : Cursor) :
    (s.withMode m).setCur c v = (s.setCur c v).withMode m := by cases c <;> rfl
@[simp] theorem State.withMode_setPhase (p : Eoc) :
    (s.withMode m).setPhase p = (s.setPhase p).withMode m := rfl
@[simp] theorem State.withMode_answered (a : Answer) :
    (s.withMode m).answered a = (s.answered a).withMode m := rfl
@[simp] theorem sampleBit_withMode (k : BitVec 3) (x y : Sample) :
    sampleBit k x y (s.withMode m) = (sampleBit k x y s).withMode m := by
  simp only [sampleBit_eq, State.withMode_level]
  rfl
@[simp] theorem neutralTest_withMode : neutralTest (s.withMode m) = (neutralTest s).withMode m := by
  simp only [neutralTest_eq, State.withMode_level, State.withMode_setPhase]

end

/-! ## Rules that do not look at the mode -/

/-- A piece of a rule with the mode of the state it leaves changed. -/
def Flow.withMode {α : Type} (m : Mode) : Flow α → Flow α
  | .ok a t => .ok a (t.withMode m)
  | .ended t => .ended (t.withMode m)
  | .blocked => .blocked
  | .fault r => .fault r

/-- A piece of a rule that gives the same in every mode (R169). -/
def ModeBlind {α : Type} (f : State → Flow α) : Prop :=
  ∀ m s, f (s.withMode m) = (f s).withMode m

section
variable {α β : Type} {f : State → Flow α} {g g' : α → State → Flow β}

theorem Flow.andThen_withMode {x : Flow α} (hg : ∀ a t, g' a (t.withMode m) = (g a t).withMode m) :
    (x.withMode m).andThen g' = (x.andThen g).withMode m := by
  cases x with
  | ok a t => exact hg a t
  | ended | blocked | fault => rfl

/-- What comes next may also use what it finds in the state before, if that is not the mode. -/
theorem ModeBlind.andThen_of {g : State → α → State → Flow β} (hf : ModeBlind f)
    (hg : ∀ s a, ModeBlind (g s a)) (hs : ∀ m s, g (s.withMode m) = g s) :
    ModeBlind fun s => (f s).andThen (g s) := by
  intro m s
  simp only [hf m s, hs m s]
  exact Flow.andThen_withMode fun a t => hg s a m t

theorem ModeBlind.andThen (hf : ModeBlind f) (hg : ∀ a, ModeBlind (g a)) :
    ModeBlind fun s => (f s).andThen g :=
  hf.andThen_of (g := fun _ => g) (fun _ => hg) fun _ _ => rfl

theorem ModeBlind.ite {p : State → Prop} [DecidablePred p] {f g : State → Flow α}
    (hp : ∀ m s, p (s.withMode m) ↔ p s) (hf : ModeBlind f) (hg : ModeBlind g) :
    ModeBlind fun s => if p s then f s else g s := by
  intro m s
  simp only [hp]
  split
  next => exact hf m s
  next => exact hg m s

end

theorem modeBlind_ok {α : Type} (a : α) : ModeBlind (.ok a) := fun _ _ => rfl

theorem peekNext_modeBlind : ModeBlind (peekNext c) := by
  intro m s
  unfold peekNext
  rw [State.withMode_upcoming]
  split <;> rfl

theorem goNext_modeBlind : ModeBlind (goNext c) := by
  intro m s
  unfold goNext
  rw [State.withMode_upcoming]
  split
  next => simp [Flow.withMode]
  next => rfl

theorem advanceTo_modeBlind : ModeBlind (advanceTo c x) := by
  intro m s
  unfold advanceTo
  simp only [State.withMode_position, State.withMode_horizon, State.withMode_crossings,
    State.withMode_cur, State.withMode_setCur]
  split
  · rfl
  · split <;> rfl

theorem wouldCross_modeBlind : ModeBlind (wouldCross c x) := by
  intro m s
  have hlast : ModeBlind fun s => if x < s.horizon then .ok false s else .blocked :=
    .ite (fun _ _ => .rfl) (modeBlind_ok false) fun _ _ => rfl
  unfold wouldCross
  rw [State.withMode_upcoming]
  cases s.upcoming c with
  | none => exact hlast m s
  | some y =>
    exact ModeBlind.ite (p := fun _ => y ≤ x) (fun _ _ => .rfl) (modeBlind_ok true) hlast m s

theorem modeBlind_ended {α : Type} (err : ErrCode) :
    ModeBlind (α := α) fun s => .ended (s.resync err) := fun _ _ => rfl

theorem modeBlind_ok_position (c : Ch) : ModeBlind fun s => .ok (s.position c) s := by
  intro m s
  simp only [State.withMode_position]
  rfl

theorem alignTo_modeBlind : ModeBlind (alignTo c d) := by
  have hadv : ModeBlind fun s => advanceTo c (s.position d) s := fun m s => by
    simp only [State.withMode_position]
    exact advanceTo_modeBlind m s
  exact hadv.andThen fun _ => modeBlind_ok ()

theorem alignRule_modeBlind : ModeBlind alignRule := by
  have hpos : ModeBlind alignPositions :=
    .ite (fun m s => by simp only [State.withMode_position]) alignTo_modeBlind
      (.ite (fun m s => by simp only [State.withMode_position]) alignTo_modeBlind (modeBlind_ok ()))
  have hraise (c : Ch) : ModeBlind (raiseLow c) :=
    .ite (fun m s => by simp only [State.withMode_level])
      (goNext_modeBlind.andThen fun _ => alignTo_modeBlind) (modeBlind_ok ())
  refine hpos.andThen fun _ => (hraise .a).andThen fun _ => (hraise .b).andThen fun _ m s => ?_
  rw [neutralTest_withMode]
  rfl

theorem startBurst_modeBlind {n : Nat} {first : Bool} : ModeBlind (startBurst x y n first) := by
  induction n generalizing first with
  | zero => exact modeBlind_ok ()
  | succ n ih =>
    have htoggle : ModeBlind (burstToggle x y first) := peekNext_modeBlind.andThen fun _ =>
      .ite (fun _ _ => .rfl) (modeBlind_ended _)
        (.ite (fun _ _ => .rfl) (modeBlind_ended _) goNext_modeBlind)
    exact htoggle.andThen fun _ => ih

/-- The stages that end in a quiet line (R126, R128). -/
theorem quiet_modeBlind {err : ErrCode} : ModeBlind fun s => (wouldCross c x s).andThen
    fun crosses u => if crosses = true then .ended (u.resync err) else .ok () u :=
  wouldCross_modeBlind.andThen fun _ => .ite (fun _ _ => .rfl) (modeBlind_ended err) (modeBlind_ok ())

theorem startRule_modeBlind : ModeBlind startRule := by
  have hwindow : ModeBlind startWindow := goNext_modeBlind.andThen fun _ =>
    peekNext_modeBlind.andThen fun e m s => by
      rw [State.withMode_position]
      rfl
  exact hwindow.andThen fun w => startBurst_modeBlind.andThen fun _ =>
    quiet_modeBlind.andThen fun _ =>
    (goNext_modeBlind.andThen fun _ => modeBlind_ok_position .b).andThen fun _ =>
    (goNext_modeBlind.andThen fun _ => quiet_modeBlind).andThen fun _ =>
    advanceTo_modeBlind.andThen fun _ _ _ => rfl

theorem judgeBit_modeBlind {n : Count} : ModeBlind (judgeBit k x y n) := by
  have hsample : ModeBlind fun s => .ok Answer.done (sampleBit k x y s) := fun m s => by
    simp only [sampleBit_withMode]
    rfl
  refine .ite (fun _ _ => .rfl) (fun m s => ?_) (.ite (fun _ _ => .rfl) (modeBlind_ended _) hsample)
  split
  next => exact hsample m s
  next => rfl
  next => rfl
  next => rfl

theorem bitRule_modeBlind : ModeBlind (bitRule k) := by
  have hskip : ModeBlind (skipLow (clockOf k)) :=
    .ite (fun m s => by simp only [State.withMode_level]) goNext_modeBlind (modeBlind_ok ())
  have hedge : ModeBlind (clockEdge k) :=
    hskip.andThen fun _ => goNext_modeBlind.andThen fun _ => modeBlind_ok_position _
  exact hedge.andThen_of (fun _ _ => advanceTo_modeBlind.andThen fun _ => judgeBit_modeBlind)
    fun m s => by simp only [State.withMode_position]

theorem countClock_modeBlind {left cnt : Nat} : ModeBlind (countClock x left cnt) := by
  induction left generalizing cnt with
  | zero => exact modeBlind_ok cnt
  | succ left ih =>
    exact peekNext_modeBlind.andThen fun _ =>
      .ite (fun _ _ => .rfl) (goNext_modeBlind.andThen fun _ => ih) (modeBlind_ok cnt)

theorem classifyRule_modeBlind : ModeBlind classifyRule := by
  have hfourth {n : Nat} {me : Sample} : ModeBlind (fourthClock n me) :=
    .ite (fun _ _ => .rfl) wouldCross_modeBlind (modeBlind_ok false)
  have hend {me : Sample} : ModeBlind (endPacket me) := fun m s =>
    (advanceTo_modeBlind.andThen fun _ => advanceTo_modeBlind.andThen fun _ _ _ => rfl) m
      ((s.emit (.marker .stop .a me)).emit (.marker .stop .b me))
  refine peekNext_modeBlind.andThen fun _ => countClock_modeBlind.andThen fun _ =>
    hfourth.andThen fun _ m s => ?_
  split
  next => exact hend m s
  next => rfl
  next => rfl

/-- A rule that does not look at the mode is settled alike in every mode. -/
theorem ModeBlind.settle_eq_next {f : State → Flow Answer} (hf : ModeBlind f) :
    settle (s.withMode m) (f (s.withMode m)) = .next t ↔
      ∃ u, settle s (f s) = .next u ∧ t = u.withMode m := by
  rw [hf m s]
  cases f s <;> simp [settle, Flow.withMode, eq_comm]

/-- Every engine operation but ASSEMBLE goes on alike in every mode (R169). -/
theorem exec_withMode_eq_next (he : i.isEngine = true) (hi : i ≠ .assemble) :
    exec i (s.withMode m) = .next t ↔ ∃ u, exec i s = .next u ∧ t = u.withMode m := by
  cases i with
  | align => exact alignRule_modeBlind.settle_eq_next
  | start => exact startRule_modeBlind.settle_eq_next
  | bit k => exact bitRule_modeBlind.settle_eq_next
  | classify => exact classifyRule_modeBlind.settle_eq_next
  | assemble => exact absurd rfl hi
  | _ => cases he

/-! ## ASSEMBLE -/

theorem markerEvents_append_unit (out : List Event) (g : Gran) (value : BusWord) (cls : Cls)
    (rem : Count) (first last : Sample) :
    markerEvents (out ++ [.unit g value cls rem first last]) = markerEvents out := by
  simp [markerEvents]

/-- A byte's packet state is folded before the mode is looked at (R169). -/
theorem assembleByte_ps_eq {v : Byte} {ps ps1 ps2 : PacketState} {ev1 ev2 : List Event}
    (h1 : assembleByte m v x y ps = .ok (ps1, ev1)) (h2 : assembleByte n v x y ps = .ok (ps2, ev2)) :
    ps1 = ps2 := by
  obtain ⟨-, _, _, _, _, hcount, -, hword, -, rfl⟩ := assembleByte_eq_ok.1 h1
  obtain ⟨-, _, _, _, _, hcount', -, hword', -, rfl⟩ := assembleByte_eq_ok.1 h2
  cases hcount.symm.trans hcount'
  cases hword.symm.trans hword'
  rfl

/-- The events of an assembled byte are no markers (R160, R169). -/
theorem markerEvents_append_assembled {v : Byte} {ps ps' : PacketState} {events : List Event}
    (h : assembleByte m v x y ps = .ok (ps', events)) (out : List Event) :
    markerEvents (out ++ events) = markerEvents out := by
  rcases assembleByte_events h with rfl | ⟨g, value, cls, rem, first, last, rfl⟩
  · rw [List.append_nil]
  · exact markerEvents_append_unit out g value cls rem first last

/-- Settles O34: every other engine operation commutes with a change of the mode, and ASSEMBLE differs
in its units alone. -/
theorem decodingIsModeIndependent : Obligations.DecodingIsModeIndependent := by
  intro i m n s t u he ht hu
  by_cases hi : i = .assemble
  · subst hi
    obtain ⟨ps, ev, h1, rfl⟩ := exec_assemble_eq_next.1 ht
    obtain ⟨ps', ev', h2, rfl⟩ := exec_assemble_eq_next.1 hu
    obtain rfl := assembleByte_ps_eq h1 h2
    exact ⟨rfl, (markerEvents_append_assembled h1 s.out).trans
      (markerEvents_append_assembled h2 s.out).symm⟩
  · obtain ⟨v, hv, rfl⟩ := (exec_withMode_eq_next he hi).1 ht
    obtain ⟨v', hv', rfl⟩ := (exec_withMode_eq_next he hi).1 hu
    cases hv.symm.trans hv'
    exact ⟨rfl, rfl⟩

end Sys2Proof.Machine
end

section
/-! A run over a capture ends (R186, R220): every engine step that goes on passes a transition or brings
`phase` nearer to a step that does. -/

namespace Sys2Proof.Machine

variable {i : Instr} {s t : State}

/-! ## Transitions passed and ahead -/

theorem Forward.passed_le (f : Forward s t) (inv : s.CaptureInv) : s.passed ≤ t.passed :=
  Nat.add_le_add (f.idx_le inv .a) (f.idx_le inv .b)

/-- A captured transition is passed or ahead, and not both (R23, R220). -/
theorem State.CaptureInv.passed_add_remaining (inv : s.CaptureInv) :
    s.passed + s.remaining = s.traceA.trans.length + s.traceB.trans.length := by
  have hA : s.curA.idx.toNat ≤ s.traceA.trans.length :=
    (inv.idx_eq .a).trans_le (countUpTo_le_length _ _)
  have hB : s.curB.idx.toNat ≤ s.traceB.trans.length :=
    (inv.idx_eq .b).trans_le (countUpTo_le_length _ _)
  unfold State.passed State.remaining
  omega

/-- The number of transitions passed depends on the cursors alone. -/
theorem passed_congr (hA : t.curA = s.curA) (hB : t.curB = s.curB) : t.passed = s.passed := by
  rw [State.passed, State.passed, hA, hB]

/-- What an engine step passes is no longer ahead, and nothing else comes or goes (R24, R51). -/
theorem exec_engine_passed (inv : s.CaptureInv) (he : i.isEngine = true) (h : exec i s = .next t) :
    s.passed ≤ t.passed ∧ t.passed + t.remaining = s.passed + s.remaining := by
  obtain ⟨v, f, hA, hB, htA, htB, -⟩ := exec_engine_forward he h
  have hvA : v.traceA = s.traceA := f.trace .a
  have hvB : v.traceB = s.traceB := f.trace .b
  have hp : t.passed = v.passed := passed_congr hA hB
  have hr : t.remaining = v.remaining := by
    rw [State.remaining, State.remaining, hA, hB, htA, htB, hvA, hvB]
  have hv := (f.inv inv).passed_add_remaining
  rw [hvA, hvB, ← inv.passed_add_remaining] at hv
  exact ⟨hp ▸ f.passed_le inv, by rw [hp, hr, hv]⟩

/-! ## The steps that always pass a transition -/

theorem passed_next_a (inv : s.CaptureInv) (g : goNext .a s = .ok () t) : s.passed < t.passed := by
  have hA : t.curA.idx.toNat = s.curA.idx.toNat + 1 := idx_next inv g
  have hB : t.curB = s.curB := (position_next g).2
  rw [State.passed, State.passed, hA, hB]
  omega

/-- START takes A's falling edge before anything else, whether it validates or not (R124, R130). -/
theorem exec_start_passes (inv : s.CaptureInv) (h : exec .start s = .next t)
    (ha : t.answer ≠ .blocked) : s.passed < t.passed := by
  have moved {u v : State} (g : goNext .a s = .ok () u) (f : Forward u v) : s.passed < v.passed :=
    (passed_next_a inv g).trans_le (f.passed_le ((forward_next g).inv inv))
  rcases exec_engine_next rfl h with rfl | ⟨w, rfl, hw⟩
  · exact absurd rfl ha
  · have hrule : startRule s = .ok .done w ∨ startRule s = .ended w := by simpa using hw
    rcases hrule with hok | hended
    · obtain ⟨-, u, v, g, f, -, rfl⟩ := startRule_ok hok
      exact (moved g f).trans_eq (passed_congr rfl rfl)
    · obtain ⟨u, v, err, g, f, -, rfl⟩ := startRule_ended hended
      exact (moved g f).trans_eq (passed_congr rfl rfl)

/-- BIT k ends at the clock's falling edge, which it passes, whatever it judges there (R140). -/
theorem exec_bit_passes {k : BitVec 3} (inv : s.CaptureInv) (h : exec (.bit k) s = .next t)
    (ha : t.answer ≠ .blocked) : s.passed < t.passed := by
  have moved {z : Sample} {n : Count} {u v : State} (h1 : clockEdge k s = .ok z u)
      (h2 : advanceTo (dataOf k) z u = .ok n v) : s.passed < v.passed := by
    obtain ⟨-, -, -, -, hpass⟩ := bitRule_moves h1 h2
    exact (hpass inv).2
  rcases exec_engine_next rfl h with rfl | ⟨w, rfl, hw⟩
  · exact absurd rfl ha
  · have hrule : bitRule k s = .ok .done w ∨ bitRule k s = .ended w := by simpa using hw
    rcases hrule with hok | hended
    · obtain ⟨-, z, n, u, v, h1, h2, rfl | ⟨-, rfl⟩⟩ := bitRule_ok hok
      · exact (moved h1 h2).trans_eq (passed_congr (by simp) (by simp))
      · exact (moved h1 h2).trans_eq (passed_congr rfl rfl)
    · obtain ⟨z, n, u, v, h1, h2, rfl⟩ := bitRule_ended hended
      exact (moved h1 h2).trans_eq (passed_congr rfl rfl)

/-! ## The measure of a run -/

/-- How many engine steps may follow from a `phase` before one that always passes a transition:
CLASSIFY goes to ALIGN and ALIGN to START; ASSEMBLE goes to BIT (R77, R220). -/
def idleSteps (p : Eoc) : Nat :=
  if p = eocClassify then 2 else if p = eocAlign ∨ p = eocAssemble then 1 else 0

theorem idleSteps_le (p : Eoc) : idleSteps p ≤ 2 := by
  unfold idleSteps
  split
  · exact Nat.le_refl 2
  · split <;> decide

/-- A bound on the engine steps ahead: each transition ahead can be followed by two steps that pass
none (R220). -/
def State.stepsAhead (s : State) : Nat := 3 * s.remaining + idleSteps s.phase

/-- An engine step of a run that goes on passes a transition, or fewer idle steps can follow. -/
theorem exec_passes_or_idles (inv : s.CaptureInv) (legal : s.PhaseLegal)
    (hd : decodePhase s.phase s.k = some i) (h : exec i s = .next t) (ha : t.answer ≠ .blocked) :
    s.passed < t.passed ∨ idleSteps t.phase < idleSteps s.phase := by
  have e := exec_effect h
  rcases legal with hp | hp | hp | hp | hp | hp <;> rw [hp] at hd <;> cases hd
  · rcases e.align_phase ha with hstay | hstart
    · exact .inl (alignThatStaysConsumes s t inv h ha hstay)
    · rw [hp, hstart]
      exact .inr (by decide)
  · exact .inl (exec_start_passes inv h ha)
  · exact .inl (exec_bit_passes inv h ha)
  · rw [hp, e.classify_phase ha]
    exact .inr (by decide)
  · rw [hp, (e.assemble_phase ha).1]
    exact .inr (by decide)

theorem exec_stepsAhead_lt (inv : s.CaptureInv) (legal : s.PhaseLegal)
    (hd : decodePhase s.phase s.k = some i) (h : exec i s = .next t) (ha : t.answer ≠ .blocked) :
    t.stepsAhead < s.stepsAhead := by
  obtain ⟨hle, hsum⟩ := exec_engine_passed inv (decodePhase_isEngine hd) h
  have hidle := idleSteps_le t.phase
  unfold State.stepsAhead
  rcases exec_passes_or_idles inv legal hd h ha with hpass | hfewer <;> omega

/-! ## The end of a run -/

/-- The run has come to an end in a state: the step is Blocked, the byte count is exhausted, or the
core has halted (R186). -/
def State.Ended (s : State) : Prop :=
  step s = .next (s.answered .blocked) ∨ step s = .fault .counterOverflow ∨ s.phase = eocHalted

/-- A run that has not ended takes a step, and has fewer steps ahead (R186, R220). -/
theorem State.Inv.ended_or_step (inv : s.Inv) (hb : s.inbox = []) :
    s.Ended ∨ ∃ t, step s = .next t ∧ t.stepsAhead < s.stepsAhead := by
  cases hs : step s with
  | fault r =>
    obtain ⟨rfl, -⟩ := ((onlyCounterOverflowFaults s inv).1 r).1 hs
    exact .inl (.inr (.inl hs))
  | refused r => exact absurd hs step_ne_refused
  | next t =>
    by_cases ha : t.answer = .blocked
    · exact .inl (.inl (step_blocked hb hs ha ▸ hs))
    · obtain ⟨cap, -, ⟨legal, -⟩, port⟩ := inv
      rcases step_eq_next hs with ⟨-, hh, -⟩ | ⟨p, rest, r, hb', -⟩ | ⟨p, rest, i, hb', -⟩ |
        ⟨w, o, r, -, -, hc, -⟩ | ⟨w, o, i, -, -, hc, -⟩ | ⟨i, -, -, -, hd, hx⟩
      · exact .inl (.inr (.inr hh))
      · simp [hb] at hb'
      · simp [hb] at hb'
      · simp [port] at hc
      · simp [port] at hc
      · exact .inr ⟨t, rfl, exec_stepsAhead_lt cap legal hd hx ha⟩

/-- A run ends within the steps ahead, by induction on their number (R220). -/
theorem run_ends (inv : s.Inv) (hb : s.inbox = []) :
    ∃ n t, n ≤ s.stepsAhead ∧ Host.Core.run Sys2Proof.core n s = .next t ∧ t.Ended := by
  induction hm : s.stepsAhead using Nat.strong_induction_on generalizing s with
  | _ m ih =>
    rcases inv.ended_or_step hb with hend | ⟨u, hu, hlt⟩
    · exact ⟨0, s, Nat.zero_le m, rfl, hend⟩
    · obtain ⟨n, t, hn, hr, hend⟩ := ih u.stepsAhead (hm ▸ hlt) (stepKeepsTheInvariants s u inv hu)
        (step_quiet_frame hb hu).1 rfl
      exact ⟨n + 1, t, by omega, (run_succ_of_next n hu).trans hr, hend⟩

/-- Settles O56: a run ends within `stepsAhead` steps, of which at most two are idle at its start. -/
theorem everyRunEndsOnACapture : Obligations.EveryRunEndsOnACapture := by
  intro s inv hb
  obtain ⟨n, t, hn, hr, hend⟩ := run_ends inv hb
  exact ⟨n, t, hn.trans (Nat.add_le_add_left (idleSteps_le s.phase) _), hr, hend⟩

end Sys2Proof.Machine
end

section
/-! The host's side of the run: EXTEND and end-of-data, HALTED and CANCEL, and the offers (R180 to R186,
R198, R200). -/

namespace Sys2Proof.Machine

variable {i : Instr} {s : State}

/-! ## EXTEND (R182) -/

/-- An EXTEND's requirements, on the final flag, the horizons and each channel's list (R182). -/
theorem extendAccepted_iff_requirements {uA uB : List Sample} {h : Sample} :
    extendAccepted s uA uB h = true ↔
      s.final = false ∧ s.horizon ≤ h ∧ uA.Pairwise (· < ·) ∧ uB.Pairwise (· < ·) ∧
        (∀ u ∈ uA, s.horizon ≤ u ∧ u < h) ∧ ∀ u ∈ uB, s.horizon ≤ u ∧ u < h := by
  rw [extendAccepted_iff, extensionOk_iff, extensionOk_iff]
  constructor
  · rintro ⟨hf, hh, ⟨hA, hA'⟩, hB, hB'⟩
    exact ⟨hf, hh, hA, hB, hA', hB'⟩
  · rintro ⟨hf, hh, hA, hB, hA', hB'⟩
    exact ⟨hf, hh, ⟨hA, hA'⟩, hB, hB'⟩

theorem exec_extend_accepted {uA uB : List Sample} {h : Sample} {fin : Bool}
    (ok : extendAccepted s uA uB h = true) :
    exec (.extend uA uB h fin) s = .next ((extendTrace uA uB h fin s).answered .done) :=
  if_pos ok

theorem exec_extend_refused {uA uB : List Sample} {h : Sample} {fin : Bool}
    (bad : extendAccepted s uA uB h ≠ true) :
    exec (.extend uA uB h fin) s = .next (s.refuse .badExtend) :=
  if_neg bad

/-- Settles O36: the check is the list of requirements, and each of its answers has one outcome. -/
theorem extendGrowsTheTrace : Obligations.ExtendGrowsTheTrace := by
  refine fun uA uB h fin s => ⟨fun ok => ?_, fun bad => ?_⟩
  · exact exec_extend_accepted (extendAccepted_iff_requirements.2 ok)
  · exact exec_extend_refused (mt extendAccepted_iff_requirements.1 bad)

/-! ## End-of-data (R186) -/

theorem engineStep_eq_step (hb : s.inbox = []) : engineStep s = step s := by
  rw [engineStep, ← hb]

theorem isBlocked_eq_true : s.isBlocked = true ↔
    s.phase ≠ eocHalted ∧ ∃ t, engineStep s = .next t ∧ t.answer = .blocked := by
  unfold State.isBlocked
  cases engineStep s <;> simp

theorem runState_eq_endOfData :
    s.runState = .endOfData ↔ s.isBlocked = true ∧ s.final = true := by
  unfold State.runState
  by_cases hh : s.phase = eocHalted
  · simp [hh, isBlocked_eq_true]
  · cases hbl : s.isBlocked with
    | true => cases s.final <;> simp [hh]
    | false =>
      rw [if_neg hh, if_neg Bool.false_ne_true]
      cases engineStep s <;> simp

/-- Settles O10: a run at end-of-data is Blocked with FINAL set, and an EXTEND needs FINAL clear. -/
theorem endOfDataIsStuck : Obligations.EndOfDataIsStuck := by
  intro s hb hend
  obtain ⟨hbl, hfin⟩ := runState_eq_endOfData.1 hend
  obtain ⟨-, t, ht, ha⟩ := isBlocked_eq_true.1 hbl
  rw [engineStep_eq_step hb] at ht
  obtain rfl := step_blocked hb ht ha
  refine ⟨ht, fun uA uB h fin => exec_extend_refused fun ok => ?_⟩
  have hfin' := (extendAccepted_iff.1 ok).1
  simp [hfin] at hfin'

/-! ## HALTED and CANCEL (R181, R183) -/

/-- Settles O7: the run loop looks at HALTED before the port. -/
theorem haltedTakesNoStep : Obligations.HaltedTakesNoStep :=
  fun _ hb hh => step_of_halted hb hh

/-- CANCEL writes `phase` and nothing else (R183, R185). -/
theorem exec_cancel_eq (s : State) :
    exec .cancel s = .next ((s.setPhase eocHalted).answered .done) := rfl

theorem State.setPhase_self (s : State) : s.setPhase s.phase = s := rfl

/-- Settles O37: in HALTED the write of `phase` changes nothing. -/
theorem cancelHalts : Obligations.CancelHalts := by
  refine fun s => ⟨exec_cancel_eq s, fun hh => ?_⟩
  rw [exec_cancel_eq, ← hh, State.setPhase_self]
  rfl

/-! ## Offers (R180, R200) -/

section
variable {p : Packet} {e : Reject}

/-- A host operation is no problem as an input (R180). -/
theorem inputProblem_host (hd : decode p = .ok i) (hh : i.isHost = true) : inputProblem p = none := by
  simp only [inputProblem, hd, hh, if_true]

/-- Only the run loop issues engine operations and cursor commands (R198, R200). -/
theorem inputProblem_notHost (hd : decode p = .ok i) (hh : i.isHost = false) :
    inputProblem p = some .notHostOperation := by
  simp only [inputProblem, hd, hh, Bool.false_eq_true, if_false]

/-- What does not decode is a problem under the decoder's name (R87, R88). -/
theorem inputProblem_error (hd : decode p = .error e) : inputProblem p = some e := by
  simp only [inputProblem, hd]

theorem offer_of_noProblem (h : inputProblem p = none) :
    s.offer p = .ok { s with inbox := s.inbox ++ [p] } := by
  simp only [State.offer, h]

theorem offer_of_problem (h : inputProblem p = some e) : s.offer p = .error e := by
  simp only [State.offer, h]

end

/-- Settles O39: a packet is a host operation, another operation, or none, and `inputProblem` tells
the three apart. -/
theorem offerAcceptsOperations : Obligations.OfferAcceptsOperations := by
  refine fun s p => ⟨fun i hd hh => ?_, fun i hd hh => ?_, fun e hd => ?_⟩
  · exact offer_of_noProblem (inputProblem_host hd hh)
  · exact offer_of_problem (inputProblem_notHost hd hh)
  · exact offer_of_problem (inputProblem_error hd)

end Sys2Proof.Machine
end

section
/-! Which faults an operation raises from any state, and the one that the run loop raises for `phase`
(R105, R161, R181, R196). -/

namespace Sys2Proof.Machine

variable {i : Instr} {s : State} {x y : Sample} {r : Fault}

/-! ## The faults of the engine's rules (R105, R161) -/

/-- Only a backward target faults, and where the cursors stand does not matter for that. -/
theorem alignRule_fault (h : alignRule s = .fault r) : r = .cursorBackward := by
  have raise {c : Ch} {u : State} (h : raiseLow c u = .fault r) : r = .cursorBackward := by
    unfold raiseLow at h
    split at h
    · rcases Flow.andThen_eq_fault.1 h with h | ⟨_, v, -, h⟩
      · exact absurd h goNext_ne_fault
      · exact (alignTo_eq_fault.1 h).2
    · cases h
  simp only [alignRule, Flow.andThen_eq_fault, alignPositions_ne_fault, false_or, reduceCtorEq,
    and_false, exists_false, or_false] at h
  rcases h with ⟨_, u, -, h | ⟨_, v, -, h⟩⟩
  · exact raise h
  · exact raise h

theorem bitRule_fault {k : BitVec 3} (h : bitRule k s = .fault r) : r = .cursorBackward := by
  simp only [bitRule, Flow.andThen_eq_fault, clockEdge_ne_fault, advanceTo_eq_fault, false_or] at h
  rcases h with ⟨z, u, -, ⟨-, hr⟩ | ⟨n, v, -, h⟩⟩
  · exact hr
  · rcases judgeBit_cases k (s.position .a) z n v with e | ⟨-, e⟩ | e <;> rw [e] at h <;> cases h

theorem endPacket_fault (h : endPacket x s = .fault r) : r = .cursorBackward := by
  simp only [endPacket, Flow.andThen_eq_fault, advanceTo_eq_fault, reduceCtorEq, and_false,
    exists_false, or_false] at h
  rcases h with ⟨-, hr⟩ | ⟨n, u, -, -, hr⟩ <;> exact hr

theorem classifyRule_fault (h : classifyRule s = .fault r) : r = .cursorBackward := by
  simp only [classifyRule, Flow.andThen_eq_fault, peekNext_ne_fault, countClock_ne_fault,
    fourthClock_ne_fault, false_or] at h
  obtain ⟨me, u, -, m, v, -, b, w, -, h⟩ := h
  split at h
  · exact endPacket_fault h
  · cases h
  · cases h

theorem readKnown_eq_error {α : Type} {o : Option α} (h : readKnown o = .error r) :
    r = .readUnknown := by
  cases o <;> cases h
  rfl

theorem except_bind_eq_error {ε α β : Type} {f : Except ε α} {g : α → Except ε β} {e : ε} :
    f.bind g = .error e ↔ f = .error e ∨ ∃ a, f = .ok a ∧ g a = .error e := by
  cases f <;> simp [Except.bind]

theorem except_map_eq_error {ε α β : Type} {f : Except ε α} {g : α → β} {e : ε} :
    f.map g = .error e ↔ f = .error e := by
  cases f <;> simp [Except.map]

section
variable {ps : PacketState} {v : Byte} {cls : Cls} {just : Bool} {m : Mode}

theorem countRemaining_eq_error (h : countRemaining v ps = .error r) : r = .readUnknown := by
  unfold countRemaining at h
  split at h
  · cases h
  · split at h
    next hr => cases h; exact readKnown_eq_error hr
    next => split at h <;> cases h

theorem byteClass_eq_error (h : byteClass ps = .error r) : r = .readUnknown := by
  unfold byteClass at h
  split at h
  · cases h
  · split at h
    next hr => cases h; exact readKnown_eq_error hr
    next => cases h

theorem wordStep_eq_error (h : wordStep ps = .error r) : r = .readUnknown := by
  unfold wordStep countWord at h
  split at h
  · split at h
    next hr => cases h; exact readKnown_eq_error hr
    next => cases h
  · cases h

theorem byteUnit_eq_error (h : byteUnit v cls x y ps = .error r) : r = .readUnknown := by
  unfold byteUnit at h
  split at h
  next hr => cases h; exact readKnown_eq_error hr
  next => cases h

theorem wordUnit_eq_error (h : wordUnit y ps = .error r) : r = .readUnknown := by
  unfold wordUnit at h
  split at h
  next hr => cases h; exact readKnown_eq_error hr
  next =>
    split at h
    next hr => cases h; exact readKnown_eq_error hr
    next => cases h

theorem unitsOf_eq_error (h : unitsOf m v cls just x y ps = .error r) : r = .readUnknown := by
  unfold unitsOf at h
  split at h
  · exact byteUnit_eq_error (except_map_eq_error.1 h)
  · split at h
    · exact wordUnit_eq_error (except_map_eq_error.1 h)
    · split at h
      · exact byteUnit_eq_error (except_map_eq_error.1 h)
      · cases h

/-- The four parts of the rule read fields of `ps`, and its first test is the limit (R31, R161). -/
theorem assembleByte_eq_error (h : assembleByte m v x y ps = .error r) :
    r = .counterOverflow ∨ r = .readUnknown := by
  unfold assembleByte at h
  split at h
  · cases h
    exact .inl rfl
  · simp only [except_bind_eq_error, except_map_eq_error] at h
    rcases h with h | ⟨_, -, h | ⟨_, -, h | ⟨_, -, h⟩⟩⟩
    · exact .inr (countRemaining_eq_error h)
    · exact .inr (byteClass_eq_error h)
    · exact .inr (wordStep_eq_error h)
    · exact .inr (unitsOf_eq_error h)

end

/-! ## The faults of the operations (R196) -/

/-- The operations raise ADV's fault and ASSEMBLE's two; the other two faults of R196 are the run
loop's. -/
theorem exec_fault (h : exec i s = .fault r) :
    r = .cursorBackward ∨ r = .counterOverflow ∨ r = .readUnknown := by
  cases i with
  | level | pos | cancel => cases h
  | peek | next | wcross =>
    have h' := settle_eq_fault.1 h
    simp [Flow.andThen_eq_fault, peekNext_ne_fault, goNext_ne_fault, wouldCross_ne_fault] at h'
  | adv =>
    have h' := settle_eq_fault.1 h
    simp only [Flow.andThen_eq_fault, advanceTo_eq_fault, reduceCtorEq, and_false, exists_false,
      or_false] at h'
    exact .inl h'.2
  | align => exact .inl (alignRule_fault (settle_eq_fault.1 h))
  | start => exact absurd (settle_eq_fault.1 h) startRule_ne_fault
  | bit => exact .inl (bitRule_fault (settle_eq_fault.1 h))
  | classify => exact .inl (classifyRule_fault (settle_eq_fault.1 h))
  | assemble => exact .inr (assembleByte_eq_error (exec_assemble_eq_fault.1 h))
  | reset m pA pB =>
    simp only [exec, execReset] at h
    split at h <;> cases h
  | extend uA uB z fin =>
    simp only [exec, execExtend] at h
    split at h <;> cases h

theorem exec_ne_illegalPhase : exec i s ≠ .fault .illegalPhase := by
  intro h
  simpa using exec_fault h

/-! ## ILLEGAL_PHASE (R181, R196) -/

/-- The values of `phase` that name no operation are those outside the engine group (R75, R76). -/
theorem decodePhase_eq_none {p : Eoc} {k : BitVec 3} : decodePhase p k = none ↔
    ¬ (p = eocAlign ∨ p = eocStart ∨ eocMajor p = eocMajor eocBit ∨ p = eocClassify ∨
      p = eocAssemble) := by
  simp only [Option.eq_none_iff_forall_ne_some, ne_eq, decodePhase_eq_some]
  constructor
  · intro h hp
    rcases hp with hp | hp | hp | hp | hp
    · exact h .align (by simp [hp])
    · exact h .start (by simp [hp])
    · exact h (.bit k) (by simp [hp])
    · exact h .classify (by simp [hp])
    · exact h .assemble (by simp [hp])
  · intro h i hi
    exact h (by tauto)

/-- Where `phase` names an operation, the step is that operation or a command word's, and neither
raises ILLEGAL_PHASE (R181). -/
theorem step_ne_illegalPhase (hb : s.inbox = []) (hd : decodePhase s.phase s.k = some i) :
    step s ≠ .fault .illegalPhase := by
  have hp : (decodePhase s.phase s.k).isSome = true := by rw [hd]; rfl
  cases hc : s.command with
  | none =>
    rw [step_engine hb hc hd]
    exact exec_ne_illegalPhase
  | some command =>
    obtain ⟨w, o⟩ := command
    cases hw : decodeCcw w o with
    | ok j =>
      rw [step_command hb hp hc hw]
      exact fun h => exec_ne_illegalPhase (releaseCommand_eq_fault.1 h)
    | error e =>
      by_cases he : e = .illegalCommand
      · rw [step_command_illegal hb hp hc (he ▸ hw)]
        simp
      · rw [step_command_error hb hp hc hw he]
        simp

/-- The run loop raises ILLEGAL_PHASE where `phase` names no operation and is not HALTED (R181). -/
theorem step_illegalPhase_iff (hb : s.inbox = []) : step s = .fault .illegalPhase ↔
    decodePhase s.phase s.k = none ∧ s.phase ≠ eocHalted := by
  by_cases hh : s.phase = eocHalted
  · simp [step_of_halted hb hh, hh]
  · cases hd : decodePhase s.phase s.k with
    | none => simp [step, fetch, hb, fetchEngine, hh, hd]
    | some i => simp [step_ne_illegalPhase hb hd]

/-- Settles O8: BIT's code is any with its `major` field, 010. -/
theorem illegalPhaseFaults : Obligations.IllegalPhaseFaults := by
  intro s hb
  rw [step_illegalPhase_iff hb, decodePhase_eq_none, ← not_or]
  have hmajor : eocMajor s.phase = eocMajor eocBit ↔ s.phase.extractLsb' 3 3 = 0b010 := Iff.rfl
  simp only [hmajor, or_assoc]

end Sys2Proof.Machine
end

section
/-! Which operations emit units (R161, R192): every other rule appends markers alone. -/

namespace Sys2Proof.Machine

variable {i : Instr} {s t : State}

@[simp] theorem unitEvents_append (l m : List Event) :
    unitEvents (l ++ m) = unitEvents l ++ unitEvents m := List.filter_append ..

@[simp] theorem unitEvents_nil : unitEvents [] = [] := rfl

@[simp] theorem unitEvents_marker_cons (kind : MarkerKind) (c : Ch) (x : Sample) (l : List Event) :
    unitEvents (.marker kind c x :: l) = unitEvents l := rfl

/-- A rule other than ASSEMBLE's appends markers or nothing: START's and CLASSIFY's two, BIT's one; a
resync appends nothing (R161, R192). Only RESET replaces the log. -/
theorem Effect.unitEvents_out (e : Effect s i t) (ha : i ≠ .assemble)
    (hr : ∀ m pA pB, i ≠ .reset m pA pB) : unitEvents t.out = unitEvents s.out := by
  cases e with
  | started | sampled | packetEnds => simp
  | assembled => exact absurd rfl ha
  | reset => exact absurd rfl (hr _ _ _)
  | _ => rfl

/-- Settles O42: by the cases of what an operation can leave. -/
theorem onlyAssembleEmitsUnits : Obligations.OnlyAssembleEmitsUnits :=
  fun _ _ _ ha hr h => (exec_effect h).unitEvents_out ha hr

end Sys2Proof.Machine
end

section
/-! RESET: every register written and the levels of the lines there (R210, R211), the invariants at the
state after reset (R213), and the engine steps that pass a transition (R220). -/

namespace Sys2Proof.Machine

variable {s t : State} {x pA pB : Sample} {mode : Mode}

/-! ## RESET (R210, R211) -/

theorem resetAccepted_iff : resetAccepted s pA pB = true ↔ pA < s.horizon ∧ pB < s.horizon := by
  simp [resetAccepted]

theorem exec_reset_accepted (ok : resetAccepted s pA pB = true) :
    exec (.reset mode pA pB) s = .next ((resetCore mode pA pB s).answered .done) := if_pos ok

theorem exec_reset_refused (no : ¬ resetAccepted s pA pB = true) :
    exec (.reset mode pA pB) s = .next (s.refuse .badReset) := if_neg no

/-- A cursor placed at a sample has the count of the transitions at or before it (R23, R210). -/
theorem cursorAt_eq_filter (tr : Trace) (p : Sample) :
    cursorAt tr p = ⟨p, BitVec.ofNat 64 (tr.trans.filter (· ≤ p)).length⟩ := by
  rw [cursorAt, countUpTo, List.countP_eq_length_filter]

/-- The level at a placed cursor is the line's at its sample: a count modulo `2^64` keeps its parity
(R22, R52). -/
theorem levelAfter_cursorAt (tr : Trace) (p : Sample) :
    levelAfter tr.init (cursorAt tr p).idx.toNat = tr.levelAt p := by
  have hparity : (cursorAt tr p).idx.toNat % 2 = countUpTo tr.trans p % 2 := by
    rw [cursorAt, BitVec.toNat_ofNat, Nat.mod_mod_of_dvd _ (by decide)]
  rw [Trace.levelAt, levelAfter, levelAfter, hparity]

/-- Settles O35: RESET has two outcomes, and the one that answers done has placed both cursors. -/
theorem resetInitialState : Obligations.ResetInitialState := by
  intro mode pA pB s
  refine ⟨⟨_, rfl⟩, fun hA hB => ?_, fun hno => ?_, fun t h hdone => ?_⟩
  · rw [exec_reset_accepted (resetAccepted_iff.2 ⟨hA, hB⟩), ← cursorAt_eq_filter,
      ← cursorAt_eq_filter]
    rfl
  · exact exec_reset_refused (mt resetAccepted_iff.1 hno)
  · by_cases ok : resetAccepted s pA pB = true
    · cases (exec_reset_accepted ok).symm.trans h
      exact ⟨levelAfter_cursorAt s.traceA pA, levelAfter_cursorAt s.traceB pB⟩
    · cases (exec_reset_refused ok).symm.trans h
      cases hdone

/-! ## The state after reset (R213) -/

/-- The state after reset is one that RESET leaves. -/
theorem reset_eq_resetCore : State.reset = resetCore .byte 0 0 State.reset := rfl

theorem captureInv_reset : State.reset.CaptureInv := by
  decide

theorem engineInv_reset : State.reset.EngineInv := engineInv_of_align rfl

/-- Settles O45: no transition is captured, ALIGN comes first, and RESET has emptied the log. -/
theorem resetMeetsTheInvariants : Obligations.ResetMeetsTheInvariants :=
  ⟨⟨captureInv_reset, .inl rfl, engineInv_reset, rfl⟩, fun h => absurd h (by decide),
    reset_eq_resetCore ▸ logInv_resetCore .byte 0 0 State.reset⟩

/-! ## The steps that pass a transition (R220) -/

/-- ALIGN hands over to START or stays (R120, R121). -/
theorem exec_align_handsOver_or_stays (h : exec .align s = .next t) (ha : t.answer ≠ .blocked) :
    t.phase = eocStart ∨ t.phase = eocAlign := ((exec_effect h).align_phase ha).symm

/-- A cursor that moves to its next transition or beyond has passed it. -/
theorem Forward.idx_lt_of_upcoming {c : Ch} (f : Forward s t) (inv : s.CaptureInv)
    (hx : s.upcoming c = some x) (hle : x ≤ t.position c) :
    (s.cur c).idx.toNat < (t.cur c).idx.toNat := by
  rw [inv.idx_eq, (f.inv inv).idx_eq, f.trace]
  have hcount := inv.count_upcoming hx
  have hmono := countUpTo_mono (s.trace c).trans hle
  omega

/-- CLASSIFY emits only at End, which moves B's cursor to the transition it peeked (R146 to R148). -/
theorem exec_classify_passes (inv : s.CaptureInv) (h : exec .classify s = .next t)
    (hout : t.out ≠ s.out) : s.passed < t.passed := by
  rcases exec_engine_next rfl h with rfl | ⟨u, rfl, hu⟩
  · exact absurd rfl hout
  have hrule : classifyRule s = .ok .done u ∨ classifyRule s = .ended u := by simpa using hu
  rcases hrule with hok | hended
  · obtain ⟨-, me, v, hme, f, -, hpos, rfl⟩ := classifyRule_ok hok
    have hA := f.idx_le inv .a
    have hB := f.idx_lt_of_upcoming inv hme (hpos ▸ BitVec.le_refl _)
    exact Nat.add_lt_add_of_le_of_lt hA hB
  · obtain ⟨v, f, -, rfl⟩ := classifyRule_ended hended
    obtain ⟨p, q, rfl⟩ := f.exists_withCursors
    exact absurd rfl hout

/-- Settles O55: one case for each operation that consumes. -/
theorem stepsThatConsume : Obligations.StepsThatConsume := by
  intro i s t inv h ha
  refine ⟨?_, ?_, ?_, ?_⟩
  · rintro rfl
    exact (exec_align_handsOver_or_stays h ha).imp_right (alignThatStaysConsumes s t inv h ha)
  · rintro rfl
    exact exec_start_passes inv h ha
  · rintro k rfl
    exact exec_bit_passes inv h ha
  · rintro rfl hout
    exact exec_classify_passes inv h hout

end Sys2Proof.Machine
end

section
/-! The engine depends only on the order of samples (R218). Under a renumbering that is strictly
increasing up to the horizon every comparison that a rule makes comes out as before, since each sample
compared is a cursor's position, a captured transition or the horizon; so each piece of a rule does on the
renumbered state what it did, renumbered. -/

namespace Sys2Proof.Machine

variable {s t : State} {c d : Ch} {x y : Sample} {k : BitVec 3} {f : Sample → Sample} {H : Sample}

/-! ## Renumberings -/

/-- A map of samples that is strictly increasing up to `H`. -/
def IncreasingUpTo (f : Sample → Sample) (H : Sample) : Prop := ∀ a b, b ≤ H → a < b → f a < f b

theorem IncreasingUpTo.lt_iff (mono : IncreasingUpTo f H) (hx : x ≤ H) (hy : y ≤ H) :
    f x < f y ↔ x < y := by
  refine ⟨fun h => ?_, mono x y hy⟩
  by_contra hn
  by_cases hlt : y < x
  · exact BitVec.lt_asymm h (mono y x hx hlt)
  · rw [sample_eq_of_le_of_not_lt (BitVec.not_lt.1 hn) hlt] at h
    exact BitVec.lt_irrefl _ h

theorem IncreasingUpTo.le_iff (mono : IncreasingUpTo f H) (hx : x ≤ H) (hy : y ≤ H) :
    f x ≤ f y ↔ x ≤ y := by
  rw [← BitVec.not_lt, ← BitVec.not_lt, mono.lt_iff hy hx]

/-- Renumbered transitions are counted up to a renumbered sample as before. -/
theorem IncreasingUpTo.countUpTo_map (mono : IncreasingUpTo f H) {l : List Sample}
    (hl : ∀ u ∈ l, u ≤ H) (hx : x ≤ H) : countUpTo (l.map f) (f x) = countUpTo l x := by
  rw [countUpTo, List.countP_map]
  exact List.countP_congr fun u hu => by simp [mono.le_iff (hl u hu) hx]

/-! ## The state's operations -/

section
variable (f : Sample → Sample) (s : State)

@[simp] theorem State.renumber_cur (c : Ch) : (s.renumber f).cur c = (s.cur c).renumber f := by
  cases c <;> rfl
@[simp] theorem State.renumber_trace (c : Ch) : (s.renumber f).trace c = (s.trace c).renumber f := by
  cases c <;> rfl
@[simp] theorem State.renumber_position (c : Ch) : (s.renumber f).position c = f (s.position c) := by
  cases c <;> rfl
@[simp] theorem State.renumber_level (c : Ch) : (s.renumber f).level c = s.level c := by
  cases c <;> rfl
@[simp] theorem State.renumber_upcoming (c : Ch) :
    (s.renumber f).upcoming c = (s.upcoming c).map f := by
  simp [State.upcoming, Trace.renumber, Cursor.renumber]
@[simp] theorem State.renumber_horizon : (s.renumber f).horizon = f s.horizon := rfl
theorem State.renumber_setCur (c : Ch) (x : Sample) (n : BitVec 64) :
    (s.renumber f).setCur c ⟨f x, ((s.renumber f).cur c).idx + n⟩ =
      (s.setCur c ⟨x, (s.cur c).idx + n⟩).renumber f := by cases c <;> rfl
theorem State.renumber_setPhase (p : Eoc) :
    (s.renumber f).setPhase p = (s.setPhase p).renumber f := rfl
theorem State.renumber_emit (e : Event) :
    (s.renumber f).emit (renumberEvent f e) = (s.emit e).renumber f := by
  simp [State.emit, State.renumber]
theorem State.renumber_beginPacket (x : Sample) :
    beginPacket (f x) (s.renumber f) = (beginPacket x s).renumber f := by
  simp [beginPacket, State.emit, State.renumber, renumberEvent, PacketState.init]
theorem State.renumber_sampleBit (k : BitVec 3) (x y : Sample) :
    sampleBit k (f x) (f y) (s.renumber f) = (sampleBit k x y s).renumber f := by
  simp only [sampleBit_eq, State.renumber_level]
  simp [State.renumber, renumberEvent, apply_ite f]
theorem State.renumber_neutralTest : neutralTest (s.renumber f) = (neutralTest s).renumber f := by
  simp only [neutralTest_eq, State.renumber_level, State.renumber_setPhase]

end

/-! ## Pieces of a rule -/

/-- A state with a sound capture up to the horizon `H`. -/
structure State.SoundTo (s : State) (H : Sample) : Prop where
  inv : s.CaptureInv
  horizon : s.horizon = H

theorem State.SoundTo.forward (hs : s.SoundTo H) (g : Forward s t) : t.SoundTo H :=
  ⟨g.inv hs.inv, g.horizon.trans hs.horizon⟩

theorem State.SoundTo.position_lt (hs : s.SoundTo H) (c : Ch) : s.position c < H :=
  hs.horizon ▸ hs.inv.position_lt c

theorem State.SoundTo.upcoming_lt (hs : s.SoundTo H) (h : s.upcoming c = some x) : x < H :=
  hs.horizon ▸ (hs.inv.lt_upcoming h).2

/-- A sample of the capture and its renumbering. -/
structure RenumberedSample (f : Sample → Sample) (H x x' : Sample) : Prop where
  eq : x' = f x
  lt : x < H

/-- A piece of a rule gives on the renumbered state what it gave, renumbered: the same outcome, the
states it leaves renumbered and its values related by `R`. Where it goes on, the state is sound. -/
inductive Flow.Renumbered (f : Sample → Sample) (H : Sample) {α : Type} (R : α → α → Prop) :
    Flow α → Flow α → Prop
  | ok {a a' : α} {t : State} (ha : R a a') (ht : t.SoundTo H) :
      Renumbered f H R (.ok a t) (.ok a' (t.renumber f))
  | ended {t : State} : Renumbered f H R (.ended t) (.ended (t.renumber f))
  | blocked : Renumbered f H R .blocked .blocked
  | fault {e : Fault} : Renumbered f H R (.fault e) (.fault e)

section
variable {α β : Type} {R : α → α → Prop} {S : β → β → Prop}

theorem Flow.Renumbered.andThen {p p' : Flow α} {g g' : α → State → Flow β}
    (h : p.Renumbered f H R p')
    (hg : ∀ a a' t, R a a' → t.SoundTo H →
      (g a t).Renumbered f H S (g' a' (t.renumber f))) :
    (p.andThen g).Renumbered f H S (p'.andThen g') := by
  cases h with
  | ok ha ht => exact hg _ _ _ ha ht
  | ended => exact .ended
  | blocked => exact .blocked
  | fault => exact .fault

/-- A test that comes out alike chooses between pieces that are renumbered. -/
theorem Flow.Renumbered.ite {P P' : Prop} [Decidable P] [Decidable P'] (hP : P' ↔ P)
    {p p' q q' : Flow α} (hp : P → p.Renumbered f H R p') (hq : ¬ P → q.Renumbered f H R q') :
    (if P then p else q).Renumbered f H R (if P' then p' else q') := by
  by_cases h : P
  · rw [if_pos h, if_pos (hP.2 h)]
    exact hp h
  · rw [if_neg h, if_neg (mt hP.1 h)]
    exact hq h

end

/-! ## Cursor commands -/

theorem position_renumbered (hs : s.SoundTo H) (c : Ch) :
    (Flow.ok (s.position c) s).Renumbered f H (RenumberedSample f H)
      (.ok ((s.renumber f).position c) (s.renumber f)) :=
  .ok ⟨State.renumber_position f s c, hs.position_lt c⟩ hs

theorem peekNext_renumbered (hs : s.SoundTo H) :
    (peekNext c s).Renumbered f H (RenumberedSample f H) (peekNext c (s.renumber f)) := by
  unfold peekNext
  rw [State.renumber_upcoming]
  cases h : s.upcoming c with
  | none => exact .blocked
  | some y => exact .ok ⟨rfl, hs.upcoming_lt h⟩ hs

theorem goNext_renumbered (hs : s.SoundTo H) :
    (goNext c s).Renumbered f H Eq (goNext c (s.renumber f)) := by
  cases h : s.upcoming c with
  | none =>
    have h' : (s.renumber f).upcoming c = none := by simp [h]
    rw [goNext_eq_blocked.2 h, goNext_eq_blocked.2 h']
    exact .blocked
  | some y =>
    have h' : (s.renumber f).upcoming c = some (f y) := by simp [h]
    rw [(goNext_eq_ok (a := ())).2 ⟨y, h, rfl⟩, (goNext_eq_ok (a := ())).2 ⟨f y, h', rfl⟩,
      State.renumber_setCur]
    exact .ok rfl ⟨hs.inv.setCur_next h, by simpa using hs.horizon⟩

section
variable (mono : IncreasingUpTo f H)
include mono

/-- The transitions that a move to a captured sample crosses are as many (R104). -/
theorem State.SoundTo.renumber_crossings (hs : s.SoundTo H) (hx : x < H) :
    (s.renumber f).crossings c (f x) = s.crossings c x := by
  have hbelow : ∀ u ∈ (s.trace c).trans.drop (s.cur c).idx.toNat, u ≤ H := fun u hu =>
    sample_le_of_lt (hs.horizon ▸ (hs.inv.wf c).below u (List.mem_of_mem_drop hu))
  have hcount := mono.countUpTo_map hbelow (sample_le_of_lt hx)
  rw [List.map_drop] at hcount
  rw [State.crossings, State.renumber_trace, State.renumber_cur]
  exact hcount

theorem advanceTo_renumbered (hs : s.SoundTo H) (hx : x < H) :
    (advanceTo c x s).Renumbered f H Eq (advanceTo c (f x) (s.renumber f)) := by
  have hxH := sample_le_of_lt hx
  have hback : f x < (s.renumber f).position c ↔ x < s.position c := by
    rw [State.renumber_position, mono.lt_iff hxH (sample_le_of_lt (hs.position_lt c))]
  have hahead : ¬ (s.renumber f).horizon ≤ f x := by
    rw [State.renumber_horizon, hs.horizon, BitVec.not_le]
    exact mono x H (BitVec.le_refl H) hx
  refine .ite hback (fun _ => .fault) fun hp => ?_
  have hmove : advanceTo c x s = .ok _ _ :=
    advanceTo_eq_ok.2 ⟨BitVec.not_lt.1 hp, hs.horizon ▸ hx, rfl, rfl⟩
  rw [if_neg (BitVec.not_le.2 (hs.horizon ▸ hx)), if_neg hahead, hs.renumber_crossings mono hx,
    State.renumber_setCur]
  exact .ok rfl (hs.forward (forward_advance hmove))

theorem wouldCross_renumbered (hs : s.SoundTo H) (hx : x < H) :
    (wouldCross c x s).Renumbered f H Eq (wouldCross c (f x) (s.renumber f)) := by
  have hxH := sample_le_of_lt hx
  have hcaptured : f x < (s.renumber f).horizon ↔ x < s.horizon := by
    rw [State.renumber_horizon, hs.horizon, mono.lt_iff hxH (BitVec.le_refl H)]
  unfold wouldCross
  rw [State.renumber_upcoming]
  cases h : s.upcoming c with
  | none => exact .ite hcaptured (fun _ => .ok rfl hs) fun _ => .blocked
  | some y =>
    refine .ite (mono.le_iff (sample_le_of_lt (hs.upcoming_lt h)) hxH) (fun _ => .ok rfl hs) fun _ => ?_
    exact .ite hcaptured (fun _ => .ok rfl hs) fun _ => .blocked

/-- Stages that end in a quiet line (R126, R128). -/
theorem quiet_renumbered {err : ErrCode} (hs : s.SoundTo H) (hx : x < H) :
    ((wouldCross c x s).andThen fun crosses u =>
        if crosses = true then .ended (u.resync err) else .ok () u).Renumbered f H Eq
      ((wouldCross c (f x) (s.renumber f)).andThen fun crosses u =>
        if crosses = true then .ended (u.resync err) else .ok () u) := by
  refine (wouldCross_renumbered mono hs hx).andThen ?_
  rintro crosses _ t rfl ht
  exact .ite .rfl (fun _ => .ended) fun _ => .ok rfl ht

/-! ## ALIGN and START -/

theorem alignTo_renumbered (hs : s.SoundTo H) :
    (alignTo c d s).Renumbered f H Eq (alignTo c d (s.renumber f)) := by
  unfold alignTo
  rw [State.renumber_position]
  exact (advanceTo_renumbered mono hs (hs.position_lt d)).andThen fun _ _ _ _ ht => .ok rfl ht

theorem alignPositions_renumbered (hs : s.SoundTo H) :
    (alignPositions s).Renumbered f H Eq (alignPositions (s.renumber f)) := by
  have hlt (c d : Ch) : (s.renumber f).position c < (s.renumber f).position d ↔
      s.position c < s.position d := by
    rw [State.renumber_position, State.renumber_position,
      mono.lt_iff (sample_le_of_lt (hs.position_lt c)) (sample_le_of_lt (hs.position_lt d))]
  exact .ite (hlt .a .b) (fun _ => alignTo_renumbered mono hs) fun _ =>
    .ite (hlt .b .a) (fun _ => alignTo_renumbered mono hs) fun _ => .ok rfl hs

theorem raiseLow_renumbered (hs : s.SoundTo H) :
    (raiseLow c s).Renumbered f H Eq (raiseLow c (s.renumber f)) :=
  .ite (by rw [State.renumber_level])
    (fun _ => (goNext_renumbered hs).andThen fun _ _ _ _ ht => alignTo_renumbered mono ht)
    fun _ => .ok rfl hs

theorem alignRule_renumbered (hs : s.SoundTo H) :
    (alignRule s).Renumbered f H Eq (alignRule (s.renumber f)) := by
  refine (alignPositions_renumbered mono hs).andThen fun _ _ s1 _ h1 => ?_
  refine (raiseLow_renumbered mono h1).andThen fun _ _ s2 _ h2 => ?_
  refine (raiseLow_renumbered mono h2).andThen fun _ _ s3 _ h3 => ?_
  have htest : (neutralTest s3).SoundTo H := by
    rw [neutralTest_eq]
    exact ⟨h3.inv, h3.horizon⟩
  rw [State.renumber_neutralTest]
  exact .ok rfl htest

omit mono in
theorem startWindow_renumbered (hs : s.SoundTo H) : (startWindow s).Renumbered f H
    (fun w w' => RenumberedSample f H w.1 w'.1 ∧ RenumberedSample f H w.2 w'.2)
    (startWindow (s.renumber f)) := by
  refine (goNext_renumbered hs).andThen fun _ _ t _ ht => ?_
  refine (peekNext_renumbered ht).andThen fun e e' u he hu => ?_
  exact .ok ⟨⟨State.renumber_position f u .a, hu.position_lt .a⟩, he⟩ hu

theorem burstToggle_renumbered {first : Bool} (hs : s.SoundTo H) (hx : x < H) (hy : y < H) :
    (burstToggle x y first s).Renumbered f H Eq
      (burstToggle (f x) (f y) first (s.renumber f)) := by
  refine (peekNext_renumbered hs).andThen ?_
  rintro z _ t ⟨rfl, hz⟩ ht
  have hearly : f z < f x ↔ z < x := mono.lt_iff (sample_le_of_lt hz) (sample_le_of_lt hx)
  have hshort : f y ≤ f z ↔ y ≤ z := mono.le_iff (sample_le_of_lt hy) (sample_le_of_lt hz)
  exact .ite (and_congr_right' hearly) (fun _ => .ended) fun _ =>
    .ite hshort (fun _ => .ended) fun _ => goNext_renumbered ht

theorem startBurst_renumbered {n : Nat} {first : Bool} (hs : s.SoundTo H) (hx : x < H) (hy : y < H) :
    (startBurst x y n first s).Renumbered f H Eq
      (startBurst (f x) (f y) n first (s.renumber f)) := by
  induction n generalizing s first with
  | zero => exact .ok rfl hs
  | succ n ih => exact (burstToggle_renumbered mono hs hx hy).andThen fun _ _ _ _ ht => ih ht

omit mono in
theorem refinedEnd_renumbered (hs : s.SoundTo H) :
    (refinedEnd s).Renumbered f H (RenumberedSample f H) (refinedEnd (s.renumber f)) :=
  (goNext_renumbered hs).andThen fun _ _ _ _ ht => position_renumbered ht .b

theorem startRule_renumbered (hs : s.SoundTo H) :
    (startRule s).Renumbered f H Eq (startRule (s.renumber f)) := by
  refine (startWindow_renumbered hs).andThen ?_
  rintro ⟨x, y⟩ ⟨_, _⟩ s1 ⟨⟨rfl, hx⟩, ⟨rfl, hy⟩⟩ h1
  refine (startBurst_renumbered mono h1 hx hy).andThen fun _ _ s2 _ h2 => ?_
  refine (quiet_renumbered mono h2 hy).andThen fun _ _ s3 _ h3 => ?_
  refine (refinedEnd_renumbered h3).andThen ?_
  rintro z _ s4 ⟨rfl, hz⟩ h4
  refine Flow.Renumbered.andThen (R := Eq) ((goNext_renumbered h4).andThen fun _ _ _ _ ht =>
    quiet_renumbered mono ht hz) fun _ _ s5 _ h5 => ?_
  refine (advanceTo_renumbered mono h5 hz).andThen fun _ _ s6 _ h6 => ?_
  rw [State.renumber_beginPacket]
  exact .ok rfl ⟨h6.inv, h6.horizon⟩

/-! ## BIT and CLASSIFY -/

omit mono in
theorem clockEdge_renumbered (hs : s.SoundTo H) :
    (clockEdge k s).Renumbered f H (RenumberedSample f H) (clockEdge k (s.renumber f)) := by
  have hskip : (skipLow (clockOf k) s).Renumbered f H Eq (skipLow (clockOf k) (s.renumber f)) :=
    .ite (by rw [State.renumber_level]) (fun _ => goNext_renumbered hs) fun _ => .ok rfl hs
  exact hskip.andThen fun _ _ _ _ ht => (goNext_renumbered ht).andThen fun _ _ _ _ hu =>
    position_renumbered hu _

omit mono in
theorem judgeBit_renumbered {n : Count} (hs : s.SoundTo H) :
    (judgeBit k x y n s).Renumbered f H Eq (judgeBit k (f x) (f y) n (s.renumber f)) := by
  have hsample : (Flow.ok Answer.done (sampleBit k x y s)).Renumbered f H Eq
      (.ok .done (sampleBit k (f x) (f y) (s.renumber f))) := by
    rw [State.renumber_sampleBit]
    exact .ok rfl ⟨hs.inv.congr (by simp) (by simp) (by simp) (by simp) (by simp),
      by simpa using hs.horizon⟩
  refine .ite .rfl (fun _ => ?_) fun _ => .ite .rfl (fun _ => .ended) fun _ => hsample
  split
  next => exact hsample
  next => exact .ok rfl ⟨hs.inv, hs.horizon⟩
  next => exact .ended
  next => exact .ended

theorem bitRule_renumbered (hs : s.SoundTo H) :
    (bitRule k s).Renumbered f H Eq (bitRule k (s.renumber f)) := by
  refine (clockEdge_renumbered hs).andThen ?_
  rintro ce _ t ⟨rfl, hce⟩ ht
  refine (advanceTo_renumbered mono ht hce).andThen ?_
  rintro n _ u rfl hu
  rw [State.renumber_position]
  exact judgeBit_renumbered hu

theorem countClock_renumbered {left cnt : Nat} (hs : s.SoundTo H) (hx : x < H) :
    (countClock x left cnt s).Renumbered f H Eq (countClock (f x) left cnt (s.renumber f)) := by
  induction left generalizing s cnt with
  | zero => exact .ok rfl hs
  | succ left ih =>
    refine (peekNext_renumbered hs).andThen ?_
    rintro z _ t ⟨rfl, hz⟩ ht
    exact .ite (mono.lt_iff (sample_le_of_lt hz) (sample_le_of_lt hx))
      (fun _ => (goNext_renumbered ht).andThen fun _ _ _ _ hu => ih hu) fun _ => .ok rfl ht

theorem fourthClock_renumbered {n : Nat} (hs : s.SoundTo H) (hx : x < H) :
    (fourthClock n x s).Renumbered f H Eq (fourthClock n (f x) (s.renumber f)) :=
  .ite .rfl (fun _ => wouldCross_renumbered mono hs hx) fun _ => .ok rfl hs

theorem endPacket_renumbered (hs : s.SoundTo H) (hx : x < H) :
    (endPacket x s).Renumbered f H Eq (endPacket (f x) (s.renumber f)) := by
  have hstops : ((s.renumber f).emit (.marker .stop .a (f x))).emit (.marker .stop .b (f x)) =
      ((s.emit (.marker .stop .a x)).emit (.marker .stop .b x)).renumber f := by
    rw [← State.renumber_emit, ← State.renumber_emit]
    rfl
  have hemit : ((s.emit (.marker .stop .a x)).emit (.marker .stop .b x)).SoundTo H :=
    ⟨hs.inv, hs.horizon⟩
  unfold endPacket
  rw [hstops]
  refine (advanceTo_renumbered mono hemit hx).andThen fun _ _ t _ ht => ?_
  refine (advanceTo_renumbered mono ht hx).andThen fun _ _ u _ hu => ?_
  exact .ok rfl ⟨hu.inv, hu.horizon⟩

theorem classifyRule_renumbered (hs : s.SoundTo H) :
    (classifyRule s).Renumbered f H Eq (classifyRule (s.renumber f)) := by
  refine (peekNext_renumbered hs).andThen ?_
  rintro me _ t ⟨rfl, hme⟩ ht
  refine (countClock_renumbered mono ht hme).andThen ?_
  rintro cnt _ u rfl hu
  refine (fourthClock_renumbered mono hu hme).andThen ?_
  rintro crosses _ v rfl hv
  split
  next => exact endPacket_renumbered mono hv hme
  next => exact .ended
  next => exact .ended

end

/-! ## ASSEMBLE -/

/-- A packet state under a renumbering: only the word's start is a sample. -/
def PacketState.renumber (f : Sample → Sample) (ps : PacketState) : PacketState :=
  { ps with wordStart := ps.wordStart.map f }

theorem State.renumber_ps (f : Sample → Sample) (s : State) :
    (s.renumber f).ps = s.ps.renumber f := rfl

section
variable {ps : PacketState} {v : Byte} {m : Mode} {cls : Cls} {just : Bool}

@[simp] theorem PacketState.renumber_byteCount : (ps.renumber f).byteCount = ps.byteCount := rfl
@[simp] theorem PacketState.renumber_bytesRem : (ps.renumber f).bytesRem = ps.bytesRem := rfl
@[simp] theorem PacketState.renumber_wordsRem : (ps.renumber f).wordsRem = ps.wordsRem := rfl
@[simp] theorem PacketState.renumber_wordStart :
    (ps.renumber f).wordStart = ps.wordStart.map f := rfl

theorem countByte_renumber : countByte v (f x) (ps.renumber f) = (countByte v x ps).renumber f := by
  simp [countByte, PacketState.renumber, apply_ite (Option.map f)]

theorem countRemaining_renumber : countRemaining v (ps.renumber f) =
    (countRemaining v ps).map (Prod.map (·.renumber f) id) := by
  unfold countRemaining
  rw [PacketState.renumber_byteCount, PacketState.renumber_bytesRem]
  split
  next => rfl
  next =>
    cases ps.bytesRem with
    | none => rfl
    | some rem =>
      dsimp only [readKnown]
      split <;> rfl

theorem byteClass_renumber : byteClass (ps.renumber f) = byteClass ps := rfl

theorem isFourth_renumber : isFourth (ps.renumber f) = isFourth ps := rfl

theorem wordStep_renumber : wordStep (ps.renumber f) = (wordStep ps).map (·.renumber f) := by
  unfold wordStep
  rw [isFourth_renumber]
  split
  next =>
    unfold countWord
    rw [PacketState.renumber_wordsRem]
    cases ps.wordsRem with
    | none => rfl
    | some rem =>
      dsimp only [readKnown]
      split <;> rfl
  next => rfl

theorem clearWord_renumber : clearWord (ps.renumber f) = (clearWord ps).renumber f := by
  unfold clearWord
  rw [isFourth_renumber]
  split <;> rfl

theorem byteUnit_renumber : byteUnit v cls (f x) (f y) (ps.renumber f) =
    (byteUnit v cls x y ps).map (renumberEvent f) := by
  unfold byteUnit
  rw [PacketState.renumber_bytesRem]
  cases ps.bytesRem <;> rfl

theorem wordUnit_renumber : wordUnit (f y) (ps.renumber f) =
    (wordUnit y ps).map (renumberEvent f) := by
  unfold wordUnit
  rw [PacketState.renumber_wordsRem, PacketState.renumber_wordStart]
  cases ps.wordsRem with
  | none => rfl
  | some rem => cases ps.wordStart <;> rfl

theorem unitsOf_renumber : unitsOf m v cls just (f x) (f y) (ps.renumber f) =
    (unitsOf m v cls just x y ps).map (List.map (renumberEvent f)) := by
  have hsingle (e : Except Fault Event) : ((e.map (renumberEvent f)).map fun e => [e]) =
      (e.map fun e => [e]).map (List.map (renumberEvent f)) := by cases e <;> rfl
  unfold unitsOf
  simp only [isFourth_renumber, byteUnit_renumber, wordUnit_renumber, hsingle]
  split
  next => rfl
  next =>
    split
    next => rfl
    next => split <;> rfl

theorem assembleByte_renumber : assembleByte m v (f x) (f y) (ps.renumber f) =
    (assembleByte m v x y ps).map (Prod.map (·.renumber f) (List.map (renumberEvent f))) := by
  unfold assembleByte
  rw [PacketState.renumber_byteCount, countByte_renumber, countRemaining_renumber]
  split
  next => rfl
  next =>
    cases countRemaining v (countByte v x ps) with
    | error => rfl
    | ok counted =>
      simp only [Except.map, Except.bind, Prod.map, byteClass_renumber, wordStep_renumber]
      cases byteClass counted.1 with
      | error => rfl
      | ok cls =>
        cases wordStep counted.1 with
        | error => rfl
        | ok ps' =>
          simp only [id, unitsOf_renumber, clearWord_renumber]
          cases unitsOf m v cls counted.2 x y ps' <;> rfl

end

theorem assembleRule_renumbered (hs : s.SoundTo H) :
    (assembleRule s).Renumbered f H Eq (assembleRule (s.renumber f)) := by
  have hbyte : assembleByte (s.renumber f).modeReg (s.renumber f).shift (s.renumber f).byteStart
      (s.renumber f).byteEnd (s.renumber f).ps =
      (assembleByte s.modeReg s.shift s.byteStart s.byteEnd s.ps).map
        (Prod.map (·.renumber f) (List.map (renumberEvent f))) := assembleByte_renumber
  unfold assembleRule
  rw [hbyte]
  cases assembleByte s.modeReg s.shift s.byteStart s.byteEnd s.ps with
  | error r => exact .fault
  | ok p =>
    have hout : (s.renumber f).out ++ p.2.map (renumberEvent f) =
        (s.out ++ p.2).map (renumberEvent f) := List.map_append.symm
    simp only [Except.map, Prod.map, hout]
    exact .ok (t := { s with ps := p.1, out := s.out ++ p.2, k := 0, shift := 0, phase := eocBit })
      rfl ⟨hs.inv, hs.horizon⟩

/-! ## The operations -/

/-- A rule that answers as before is settled into the renumbered outcome (R53, R196). -/
theorem Flow.Renumbered.settle {p p' : Flow Answer} (h : p.Renumbered f H Eq p')
    (hdone : ∀ a u, p = .ok a u → a = .done) :
    settle (s.renumber f) p' = renumberOutcome f (settle s p) := by
  cases h with
  | ok ha ht =>
    obtain rfl := hdone _ _ rfl
    obtain rfl := ha
    rfl
  | ended | blocked | fault => rfl

/-- Settles O54: each engine rule is renumbered with its state, and answers no sample. -/
theorem onlyTheOrderOfSamplesMatters : Obligations.OnlyTheOrderOfSamplesMatters := by
  intro i f s inv he mono
  have hs : s.SoundTo s.horizon := ⟨inv, rfl⟩
  cases i with
  | align => exact (alignRule_renumbered mono hs).settle fun _ _ h => (alignRule_ok h).1
  | start => exact (startRule_renumbered mono hs).settle fun _ _ h => (startRule_ok h).1
  | bit k => exact (bitRule_renumbered mono hs).settle fun _ _ h => (bitRule_ok h).1
  | classify => exact (classifyRule_renumbered mono hs).settle fun _ _ h => (classifyRule_ok h).1
  | assemble => exact (assembleRule_renumbered hs).settle fun _ _ h => (assembleRule_ok h).1
  | _ => cases he

end Sys2Proof.Machine
end
